-- ==== Sys2Proof/Word.lean ====
section
/-! DEFINITION. Word types of PSKCORE: the widths of 30_encoding.md R70 and 20_memory.md R53, and the bit vectors of
00_scope.md R10. -/

namespace Sys2Proof

/-- A 32-bit command word or register (R70, R22 to R26). -/
abbrev Word := BitVec 32

/-- A 64-bit data word: D of a command beat, RDATA of a response (R70, R34). -/
abbrev DWord := BitVec 64

/-- A byte of the slicer's output stream (R33). -/
abbrev Byte := BitVec 8

/-- A binary32 bit pattern (R53). -/
abbrev F32 := BitVec 32

/-- A bit vector of R10: element 0 is the first bit, the most significant one when the vector is read as a number. -/
abbrev Bits := List Bool

end Sys2Proof
end

