-- ==== Sys2Proof/Config.lean ====
section
/-! DEFINITION. The implementation parameters of 00_scope.md R8 as plain data, their defaults, and the two free values. -/

namespace Sys2Proof

/-- DEC_TAIL (R8, R146): what DEND does with fewer than 8 residual slicer bits. -/
inductive DecTail where
  | drop
  | zpad
  deriving DecidableEq, Repr

/-- One point at which an implementation's SYMVAL is given by a value of its own: SYMVAL(order, u) = (re, im). -/
structure SymvalEntry where
  order : Nat
  u     : Nat
  re    : F32
  im    : F32
  deriving DecidableEq, Repr

/-- One sample at which an implementation's SLICEDEC is given by a value of its own:
SLICEDEC(order, rot, re, im) = idx. -/
structure SlicedecEntry where
  order : Nat
  rot   : Bool
  re    : F32
  im    : F32
  idx   : Nat
  deriving DecidableEq, Repr

/-- The arguments of a model instance (R8), fixed for its life and written by no command.
SYM_TOL and SLICE_TOL are the tolerances the instance's SYMVAL and SLICEDEC conform within (R121, R142); a rational
tolerance does all that a real one does, since both compare with finitely many distances (Laws/Params.lean).
SYMVAL and SLICEDEC are functions on finite domains; each is held as the list of the points where it differs from the
spec's reference (first entry wins), so that every SYMVAL and every SLICEDEC is some value of these fields
(Laws/Params.lean proves that) and State stays plain data: log entry 2. -/
structure Params where
  lognMax  : Nat
  decTail  : DecTail
  symval   : List SymvalEntry
  symTol   : ℚ
  slicedec : List SlicedecEntry
  sliceTol : ℚ
  deriving DecidableEq, Repr

/-- The spec defaults of R8: LOGN_MAX = 8, DEC_TAIL = DROP, SYMVAL the reference procedure of R121, SLICEDEC the exact
reference of R141. R8 leaves SYM_TOL and SLICE_TOL OPEN: their values here, 2^−24 and 0, are the model's (log entry 2). -/
def Params.default : Params :=
  { lognMax := 8, decTail := .drop, symval := [], symTol := 1 / 2 ^ 24, slicedec := [], sliceTol := 0 }

/-- The legal values of R8: 8 ≤ LOGN_MAX ≤ 14, SLICEDEC answers in 0..N−1, SYM_TOL ≥ 0, 0 ≤ SLICE_TOL < 1/2. -/
abbrev Params.Legal (p : Params) : Prop :=
  8 ≤ p.lognMax ∧ p.lognMax ≤ 14 ∧ (∀ e ∈ p.slicedec, e.idx < e.order) ∧
  0 ≤ p.symTol ∧ 0 ≤ p.sliceTol ∧ p.sliceTol < 1 / 2

/-- ZERO_IDX (R8, R143): the draw for a zero sample, before it is brought into 0..N−1. A FREE VALUE: it has no body. -/
opaque Config.zeroIdx : Nat → Nat

/-- Whether a command in delivery when RESET is asserted completes before the reset (R190). A FREE VALUE: it has no
body. -/
opaque Config.beatCompletes : Nat → Bool

end Sys2Proof
end

