-- ==== Sys2Proof/Syntax.lean ====
section
/-! DEFINITION. The ten commands of PSKCORE command set 1 (30_encoding.md R77), one constructor per row of
spec/opcode_table.json, with the operands of R80 in the order of the assembly of R81. -/

namespace Sys2Proof

/-- The table selector T of RDTAB (R75): 0 ORD, 1 INV, 2 PH, 3 SYM. -/
inductive TableSel where
  | ord
  | inv
  | ph
  | sym
  deriving DecidableEq, Repr

/-- A command. SLICE carries its data word's two binary32 patterns; no other command reads D (R70). -/
inductive Instr where
  /-- NOP, format Z (R163). -/
  | nop
  /-- CFG, format K: NREQ and G (R73, R110). -/
  | cfg (nreq : BitVec 16) (gray : Bool)
  /-- PUSH, format V: V and W (R74, R130). -/
  | push (v : BitVec 16) (w : BitVec 5)
  /-- MEND, format Z (R131). -/
  | mend
  /-- SLICE, format Z, re = D[31:0], im = D[63:32] (R80, R140). -/
  | slice (re im : F32)
  /-- DEND, format Z (R146). -/
  | dend
  /-- RDTAB, format T: T and I (R75, R160). -/
  | rdtab (tab : TableSel) (idx : BitVec 16)
  /-- RDREG, format R: RN (R76, R161). -/
  | rdreg (rn : BitVec 4)
  /-- CLRERR, format Z (R162). -/
  | clrerr
  /-- I2B, format V: V and W (R74, R103). -/
  | i2b (v : BitVec 16) (w : BitVec 5)
  deriving DecidableEq, Repr

/-- A command beat (C, D) (R70). -/
structure Beat where
  cmd  : Word
  data : DWord
  deriving DecidableEq, Repr

end Sys2Proof
end

