-- ==== Sys2Proof/Machine/State.lean ====
section
/-! DEFINITION. The state of PSKCORE (10_state.md) as plain data, the host's side of the command port, the reasons a step
can stop, and the state after reset (R38). -/

namespace Sys2Proof.Machine

/-- The error kinds of 60_exceptions.md R170 (every code but 0, OK). -/
inductive Err where
  | cfgerr
  | overflow
  | notcfg
  | range
  | badsample
  | illegal
  deriving DecidableEq, Repr

/-- CFG, register 0 (R22): its five fields; the reserved bits read 0 and are not stored. `order` is N. -/
structure CfgReg where
  valid : Bool
  gray  : Bool
  rot   : Bool
  logn  : BitVec 4
  order : BitVec 16
  deriving DecidableEq, Repr

/-- STATUS, register 1 (R23): the two stored fields. MCNT and DCNT mirror MACC and DACC and are computed from them. -/
structure StatusReg where
  err     : Bool
  lastErr : BitVec 4
  deriving DecidableEq, Repr

/-- An element (k, re, im) of SOUT (R32). -/
structure Sample where
  k  : BitVec 16
  re : F32
  im : F32
  deriving DecidableEq, Repr

/-- A response (RSTATUS, RDATA) (R34). -/
structure Response where
  rstatus : BitVec 4
  rdata   : DWord
  deriving DecidableEq, Repr

/-- What the host can do to the block (70_reset_and_hazards.md R197): deliver a beat, assert RESET between commands,
assert RESET while a beat is in delivery (R190), or take the oldest element of one of the three output streams. -/
inductive HostInput where
  | beat (b : Beat)
  | reset
  | resetDuring (b : Beat)
  | takeResponse
  | takeSample
  | takeByte
  deriving DecidableEq, Repr

/-- What the host has taken off the block's outputs, oldest first: no part of the block, never read by it (R32, R33,
R193); kept so that a run's observation (R198) can be read off a state. -/
structure Taken where
  responses : List Response
  samples   : List Sample
  bytes     : List Byte
  deriving DecidableEq, Repr

/-- The machine. A table is the list of the slots that hold a value: slot k of ORD holds `ord[k]`, and a slot at or past
the list's end "holds no value" (10_state.md section 3). MACC and DACC are bit vectors, oldest bit first (R24, R25).
`draws` counts the free values taken so far; `inputs` holds what the host will do next, in order (R21, R60). -/
structure State where
  params    : Params
  cfg       : CfgReg
  status    : StatusReg
  macc      : Bits
  dacc      : Bits
  ord       : List Nat
  inv       : List Nat
  ph        : List Nat
  sout      : List Sample
  bout      : List Byte
  responses : List Response
  draws     : Nat
  inputs    : List HostInput
  taken     : Taken
  deriving DecidableEq, Repr

/-- The reasons a step can stop the machine. Each needs a state that no run from reset reaches: Obligations state that a
step from a state that meets `State.Inv` never stops. -/
inductive Fault where
  /-- Raised by PUSH, SLICE and RDTAB where the slot they read holds no value (10_state.md section 3; 93 I9: "refuse: no
  value"). Safe: the model stops where the spec gives no value. -/
  | emptySlot (tab : TableSel)
  /-- Raised by PUSH where CFG.VALID = 1 and CFG.LOGN = 0: the loop of R130 removes groups of 0 bits and never ends, a
  stuck state. Safe: the model stops where the spec's pseudocode gives no next state. -/
  | endlessGroups
  deriving DecidableEq, Repr

/-- The reasons an instruction can be refused. -/
inductive Refusal where
  /-- Raised by an arm of `exec` whose instruction has no meaning yet; no arm of this model does. Safe. -/
  | notModelled (mnemonic : String)
  deriving DecidableEq, Repr

/-- CFG while no configuration is in force: every field 0 (R22). -/
def CfgReg.unconfigured : CfgReg :=
  { valid := false, gray := false, rot := false, logn := 0#4, order := 0#16 }

/-- STATUS with no error since the last reset or CLRERR (R23). -/
def StatusReg.clear : StatusReg := { err := false, lastErr := 0#4 }

/-- The machine right after reset (R38), for the parameters' spec defaults (R8). Nothing has been delivered to the block
or taken from it. -/
def State.reset : State :=
  { params := Params.default
    cfg := CfgReg.unconfigured
    status := StatusReg.clear
    macc := []
    dacc := []
    ord := []
    inv := []
    ph := []
    sout := []
    bout := []
    responses := []
    draws := 0
    inputs := []
    taken := { responses := [], samples := [], bytes := [] } }

end Sys2Proof.Machine
end

