-- ==== Sys2Proof/Machine/Flags.lean ====
section
/-! DEFINITION. The error codes (60_exceptions.md R170), every update of STATUS.ERR and STATUS.LASTERR (R171, R162), and
the register words as RDREG and CFG's response show them (10_state.md R22, R23, R26). -/

namespace Sys2Proof.Machine

/-- RSTATUS of a command that succeeds (R170, code 0). -/
def okCode : BitVec 4 := 0#4

/-- code(E) of R170. -/
def Err.code : Err → BitVec 4
  | .cfgerr => 1#4
  | .overflow => 2#4
  | .notcfg => 3#4
  | .range => 4#4
  | .badsample => 5#4
  | .illegal => 6#4

/-- STATUS.ERR <- 1; STATUS.LASTERR <- code(E) (R171). -/
def StatusReg.afterError (e : Err) (_ : StatusReg) : StatusReg := { err := true, lastErr := e.code }

/-- STATUS.ERR <- 0; STATUS.LASTERR <- 0 (R162). -/
def StatusReg.afterClrerr (_ : StatusReg) : StatusReg := StatusReg.clear

/-- CFG as a 32-bit word (R22): N in 31:16, LOGN in 7:4, ROT, GRAY and VALID in bits 2, 1 and 0. -/
def CfgReg.word (r : CfgReg) : Word :=
  r.order ++ 0#8 ++ r.logn ++ 0#1 ++ BitVec.ofBool r.rot ++ BitVec.ofBool r.gray ++ BitVec.ofBool r.valid

/-- STATUS as a 32-bit word (R23), from its two fields and the lengths it mirrors: DCNT in 14:12, MCNT in 11:8, LASTERR in
7:4, ERR in bit 0. -/
def StatusReg.word (r : StatusReg) (mcnt dcnt : Nat) : Word :=
  0#17 ++ BitVec.ofNat 3 dcnt ++ BitVec.ofNat 4 mcnt ++ r.lastErr ++ 0#3 ++ BitVec.ofBool r.err

end Sys2Proof.Machine
end

