-- ==== Sys2Proof/WellFormed.lean ====
section
/-! DEFINITION. Which instructions have an encoding: the extra field condition of 30_encoding.md R77 and R78 (c). -/

namespace Sys2Proof

/-- Every operand is encodable but for a width above 16: "W in 17..31 is illegal" (R74), for PUSH and for I2B. -/
def Instr.wellFormed : Instr → Bool
  | .push _ w => decide (w.toNat ≤ 16)
  | .i2b _ w => decide (w.toNat ≤ 16)
  | .nop | .cfg _ _ | .mend | .slice _ _ | .dend | .rdtab _ _ | .rdreg _ | .clrerr => true

end Sys2Proof
end

