-- ==== Sys2Proof/Decode.lean ====
section
/-! DEFINITION. The decoder of 30_encoding.md, total on every command beat and rejecting by name (R78), then the encoder
written from the same formats (R72 to R76, R81), then the host's view of a table word. -/

namespace Sys2Proof

/-- Why a command word is illegal (R78). -/
inductive DecodeError where
  /-- R78 (a): C[31:28] is 0xA to 0xF. -/
  | reservedOpcode
  /-- R78 (b): a reserved field of the format is not zero. -/
  | reservedBits
  /-- R78 (c): format V with W > 16. -/
  | illegalWidth
  deriving DecidableEq, Repr

/-- C[31:28], the opcode (R71). -/
def fieldOp (c : Word) : BitVec 4 := c.extractLsb' 28 4

/-- C[15:0]: NREQ, V and I (R73 to R75). -/
def fieldV (c : Word) : BitVec 16 := c.extractLsb' 0 16

/-- C[20:16]: W (R74). -/
def fieldW (c : Word) : BitVec 5 := c.extractLsb' 16 5

/-- C[16]: G (R73). -/
def fieldG (c : Word) : Bool := c.getLsbD 16

/-- C[17:16]: T (R75). -/
def fieldT (c : Word) : BitVec 2 := c.extractLsb' 16 2

/-- C[3:0]: RN (R76). -/
def fieldRN (c : Word) : BitVec 4 := c.extractLsb' 0 4

/-- D[31:0]: the real part of the sample (R53, R80). -/
def fieldRe (d : DWord) : F32 := d.extractLsb' 0 32

/-- D[63:32]: the imaginary part of the sample (R53, R80). -/
def fieldIm (d : DWord) : F32 := d.extractLsb' 32 32

/-- The table a selector names (R75). -/
def tableOfField (t : BitVec 2) : TableSel :=
  if t = 0#2 then .ord else if t = 1#2 then .inv else if t = 2#2 then .ph else .sym

/-- The selector of a table (R75). -/
def fieldOfTable : TableSel → BitVec 2
  | .ord => 0#2
  | .inv => 1#2
  | .ph => 2#2
  | .sym => 3#2

/-- Format Z: C[27:0] is reserved (R72). -/
def formatZ (c : Word) (i : Instr) : Except DecodeError Instr :=
  if c.extractLsb' 0 28 = 0#28 then .ok i else .error .reservedBits

/-- Format K: C[27:17] is reserved (R73). -/
def formatK (c : Word) (i : Instr) : Except DecodeError Instr :=
  if c.extractLsb' 17 11 = 0#11 then .ok i else .error .reservedBits

/-- Format V: C[27:21] is reserved, and W > 16 is illegal (R74, R78 (c)). -/
def formatV (c : Word) (i : Instr) : Except DecodeError Instr :=
  if c.extractLsb' 21 7 = 0#7 then
    if (fieldW c).toNat ≤ 16 then .ok i else .error .illegalWidth
  else .error .reservedBits

/-- Format T: C[27:18] is reserved (R75). -/
def formatT (c : Word) (i : Instr) : Except DecodeError Instr :=
  if c.extractLsb' 18 10 = 0#10 then .ok i else .error .reservedBits

/-- Format R: C[27:4] is reserved (R76). -/
def formatR (c : Word) (i : Instr) : Except DecodeError Instr :=
  if c.extractLsb' 4 24 = 0#24 then .ok i else .error .reservedBits

/-- The decoder: the opcode map of R77. Every beat is exactly one of the ten commands or illegal (R78). -/
def decode (b : Beat) : Except DecodeError Instr :=
  let c := b.cmd
  match (fieldOp c).toNat with
  | 0 => formatZ c .nop
  | 1 => formatK c (.cfg (fieldV c) (fieldG c))
  | 2 => formatV c (.push (fieldV c) (fieldW c))
  | 3 => formatZ c .mend
  | 4 => formatZ c (.slice (fieldRe b.data) (fieldIm b.data))
  | 5 => formatZ c .dend
  | 6 => formatT c (.rdtab (tableOfField (fieldT c)) (fieldV c))
  | 7 => formatR c (.rdreg (fieldRN c))
  | 8 => formatZ c .clrerr
  | 9 => formatV c (.i2b (fieldV c) (fieldW c))
  | _ => .error .reservedOpcode

/-- The command word C of an instruction, its fields laid out from bit 31 down (R72 to R76, R81). -/
def Instr.word : Instr → Word
  | .nop => 0x0#4 ++ 0#28
  | .cfg nreq gray => 0x1#4 ++ 0#11 ++ BitVec.ofBool gray ++ nreq
  | .push v w => 0x2#4 ++ 0#7 ++ w ++ v
  | .mend => 0x3#4 ++ 0#28
  | .slice _ _ => 0x4#4 ++ 0#28
  | .dend => 0x5#4 ++ 0#28
  | .rdtab tab idx => 0x6#4 ++ 0#10 ++ fieldOfTable tab ++ idx
  | .rdreg rn => 0x7#4 ++ 0#24 ++ rn
  | .clrerr => 0x8#4 ++ 0#28
  | .i2b v w => 0x9#4 ++ 0#7 ++ w ++ v

/-- The data word D of an instruction: the sample of a SLICE (R53), and 0 for every command that ignores D (R70). -/
def Instr.dataWord : Instr → DWord
  | .slice re im => im ++ re
  | .nop | .cfg _ _ | .push _ _ | .mend | .dend | .rdtab _ _ | .rdreg _ | .clrerr | .i2b _ _ => 0#64

/-- The encoder: the beat of an instruction. -/
def encode (i : Instr) : Beat := ⟨i.word, i.dataWord⟩

/-- The beat whose bits are `w`, numbered as spec/opcode_table.json numbers them: C is bits 31..0 and D the bits from 32
up; every bit at or above `nbits` is 0. -/
def tableBeat (nbits w : Nat) : Beat :=
  let bits := w % 2 ^ nbits
  ⟨BitVec.ofNat 32 bits, BitVec.ofNat 64 (bits / 2 ^ 32)⟩

/-- The instruction the decoder reads from a table word (the host's interface). -/
def decodeTableWord (nbits w : Nat) : Option Instr :=
  match decode (tableBeat nbits w) with
  | .ok i => some i
  | .error _ => none

end Sys2Proof
end

