-- ==== Sys2Proof/Machine/Operands.lean ====
section
/-! DEFINITION. The operand forms: the codec functions (40_codec.md R100 to R102), the width a format V command uses, the
signed order of CFG, and the binary32 operands of SLICE (43_slicer.md R144). -/

namespace Sys2Proof.Machine

/-- `bits_to_int` (R100): the bit vector read MSB-first as a number; 0 for the empty one. -/
def bitsToInt (b : Bits) : Nat := b.foldl (fun acc bit => 2 * acc + bit.toNat) 0

/-- `int_to_bits` (R101): `w` bits, MSB first, element j being bit w−1−j of `v`. -/
def intToBits (v : Nat) : Nat → Bits
  | 0 => []
  | w + 1 => v.testBit w :: intToBits v w

/-- `minw` (R102): 1 for 0, else the number of binary digits. -/
def minw (v : Nat) : Nat := if v = 0 then 1 else Nat.log2 v + 1

/-- The width a format V command uses (R103, R130): the minimal one for W = 0, else W, and none where V ≥ 2^W, the
command's OVERFLOW. -/
def effectiveWidth (v : BitVec 16) (w : BitVec 5) : Option Nat :=
  if w = 0#5 then some (minw v.toNat)
  else if 2 ^ w.toNat ≤ v.toNat then none
  else some w.toNat

/-- `log2 Nreq` where `valid_order(Nreq)` holds (R111): the n in 1..LOGN_MAX with Nreq = 2^n. NREQ is signed (R73). -/
def orderLog? (lognMax : Nat) (nreq : BitVec 16) : Option Nat :=
  (List.range' 1 lognMax).find? (fun n => decide (nreq.toInt = 2 ^ n))

/-- Bits 30:23 of a binary32 pattern (R144). -/
def f32Exp (p : F32) : BitVec 8 := p.extractLsb' 23 8

/-- Bits 22:0 of a binary32 pattern (R144). -/
def f32Frac (p : F32) : BitVec 23 := p.extractLsb' 0 23

/-- An infinity: p[30:23] = 0xFF and p[22:0] = 0 (R144). -/
def f32IsInf (p : F32) : Bool := f32Exp p = 0xFF#8 && f32Frac p = 0#23

/-- A NaN: p[30:23] = 0xFF and p[22:0] ≠ 0 (R144). -/
def f32IsNaN (p : F32) : Bool := f32Exp p = 0xFF#8 && f32Frac p != 0#23

/-- A zero: p[30:0] = 0 (R144). -/
def f32IsZero (p : F32) : Bool := p.extractLsb' 0 31 = 0#31

/-- The magnitude of a finite pattern in units of 2^−149, an exact natural number (R144): f for e = 0, and
(2^23 + f)·2^(e−1) for e ≥ 1. -/
def f32Mag (p : F32) : Nat :=
  if f32Exp p = 0#8 then (f32Frac p).toNat
  else (2 ^ 23 + (f32Frac p).toNat) * 2 ^ ((f32Exp p).toNat - 1)

/-- The value of a finite pattern in units of 2^−149, an exact integer (R13, R144). -/
def f32Scaled (p : F32) : Int := if p.getLsbD 31 then -(f32Mag p : Int) else f32Mag p

end Sys2Proof.Machine
end

