-- ==== Sys2Proof/Machine/Ops.lean ====
section
/-! DEFINITION. The named operations over the state: responding, failing (60_exceptions.md R171, the one shared form of
taking an error), the registers as RDREG reads them, the streams, the tables, RESET (70_reset_and_hazards.md R190) and the
host's takes. PSKCORE has no addressable memory (20_memory.md R50) and no trap return (60_exceptions.md R175). -/

namespace Sys2Proof.Machine

/-- respond(status, data) (R11): one response is appended, in command order (R34). -/
def State.respond (s : State) (st : BitVec 4) (d : DWord) : State :=
  { s with responses := s.responses ++ [⟨st, d⟩] }

/-- respond(OK, data). -/
def State.ok (s : State) (d : DWord) : State := s.respond okCode d

/-- raise E(C) (R171): STATUS.ERR and STATUS.LASTERR, then the response code(E) with zext_64(C); nothing else. -/
def State.raise (s : State) (e : Err) (c : Word) : State :=
  State.respond { s with status := s.status.afterError e } e.code (c.setWidth 64)

/-- The end of a command that fails with `e`: the machine goes on (R174). -/
def fail (e : Err) (i : Instr) (s : State) : Host.Outcome State Fault Refusal := .next (s.raise e i.word)

/-- STATUS.ERR and STATUS.LASTERR cleared (R162). -/
def State.clearErrors (s : State) : State := { s with status := s.status.afterClrerr }

/-- MACC.bits <- b (R24). -/
def State.setMacc (s : State) (b : Bits) : State := { s with macc := b }

/-- DACC.bits <- b (R25). -/
def State.setDacc (s : State) (b : Bits) : State := { s with dacc := b }

/-- emit_sout of several elements, in order (R11, R32). -/
def State.emitSout (s : State) (l : List Sample) : State := { s with sout := s.sout ++ l }

/-- emit_bout of several bytes, in order (R11, R33). -/
def State.emitBout (s : State) (l : List Byte) : State := { s with bout := s.bout ++ l }

/-- One free value has been drawn. -/
def State.drawn (s : State) : State := { s with draws := s.draws + 1 }

/-- CFG and the tables with no configuration in force (R110, CFGERR): every field 0, every slot without a value. -/
def State.dropConfig (s : State) : State :=
  { s with cfg := CfgReg.unconfigured, ord := [], inv := [], ph := [] }

/-- CFG and the tables of a new configuration (R110). -/
def State.setConfig (s : State) (r : CfgReg) (ord inv ph : List Nat) : State :=
  { s with cfg := r, ord := ord, inv := inv, ph := ph }

/-- PARAM, register 4 (R26): LOGN_MAX in bits 3:0, DEC_TAIL in bit 4. -/
def paramWord (p : Params) : Word :=
  0#27 ++ BitVec.ofBool (decide (p.decTail = .zpad)) ++ BitVec.ofNat 4 p.lognMax

/-- The 32-bit register RN names, none for RN in 5..15 (R22 to R27, R161). -/
def State.register? (s : State) (rn : BitVec 4) : Option Word :=
  match rn.toNat with
  | 0 => some s.cfg.word
  | 1 => some (s.status.word s.macc.length s.dacc.length)
  | 2 => some (BitVec.ofNat 32 (bitsToInt s.macc))
  | 3 => some (BitVec.ofNat 32 (bitsToInt s.dacc))
  | 4 => some (paramWord s.params)
  | _ => none

/-- The loop of R130 and R140, `while len(s) >= n: take(n, s); s <- drop(n, s)`, run at most `fuel` times: the groups in
order, and the bits that remain. For n ≥ 1 the loop ends within len(s) rounds. -/
def splitGroups (n : Nat) : Nat → Bits → List Bits × Bits
  | 0, s => ([], s)
  | fuel + 1, s =>
    if n ≤ s.length then
      (s.take n :: (splitGroups n fuel (s.drop n)).1, (splitGroups n fuel (s.drop n)).2)
    else ([], s)

/-- RESET (R190, R38): every piece of the block's state at its reset value, PARAM unchanged. The elements, bytes and
responses delivered before the reset stay with the host, and no element is produced. What the host will do next is the
host's, and the count of draws goes on. -/
def State.applyReset (s : State) : State :=
  { State.reset with
    params := s.params
    draws := s.draws
    inputs := s.inputs
    taken :=
      { responses := s.taken.responses ++ s.responses
        samples := s.taken.samples ++ s.sout
        bytes := s.taken.bytes ++ s.bout } }

/-- The host takes the oldest response, if there is one (R34, R193). -/
def State.takeResponse (s : State) : State :=
  match s.responses with
  | [] => s
  | r :: rest => { s with responses := rest, taken := { s.taken with responses := s.taken.responses ++ [r] } }

/-- The host takes the oldest SOUT element, if there is one (R32, R193). -/
def State.takeSample (s : State) : State :=
  match s.sout with
  | [] => s
  | x :: rest => { s with sout := rest, taken := { s.taken with samples := s.taken.samples ++ [x] } }

/-- The host takes the oldest BOUT byte, if there is one (R33, R193). -/
def State.takeByte (s : State) : State :=
  match s.bout with
  | [] => s
  | x :: rest => { s with bout := rest, taken := { s.taken with bytes := s.taken.bytes ++ [x] } }

end Sys2Proof.Machine
end

