-- ==== Sys2Proof/Machine/Codec.lean ====
section
/-! DEFINITION. I2B, the command of the BitVectorCodec (40_codec.md R103). -/

namespace Sys2Proof.Machine

/-- RDATA of I2B (R103): L in 20:16, the value of the bits in 15:0. -/
def i2bData (v : BitVec 16) (len : Nat) : DWord :=
  (BitVec.ofNat 5 len ++ BitVec.ofNat 16 (bitsToInt (intToBits v.toNat len))).setWidth 64

/-- I2B V, W (R103). -/
def execI2b (v : BitVec 16) (w : BitVec 5) (s : State) : Host.Outcome State Fault Refusal :=
  if 16 < w.toNat then fail .illegal (.i2b v w) s
  else
    match effectiveWidth v w with
    | none => fail .overflow (.i2b v w) s
    | some len => .next (s.ok (i2bData v len))

end Sys2Proof.Machine
end

