-- ==== Sys2Proof/Machine/Constellation.lean ====
section
/-! DEFINITION. ConstellationModel: the phase LUT (41_configuration.md R120) and the symbol values SYMVAL (R121), whose
reference, the binary32 nearest to the exact cosine and sine, is computed exactly: a cosine of u·π/2^n is compared with a
dyadic rational by doubling the angle, so no approximation of π, cosine or sine occurs. -/

namespace Sys2Proof.Machine

/-- PH[0..N−1] (R120): PH[k] = 2·k + ROT. -/
def phaseTable (order : Nat) (rot : Bool) : List Nat := (List.range order).map (fun k => 2 * k + rot.toNat)

/-- `cosCompare n u a b` is how cos(u·π/2^n) stands to a/2^b, for 0 ≤ u ≤ 2^n. Where both sides have one sign,
c ↦ 2c² − 1 doubles the angle and keeps the order (both ≥ 0) or turns it round (both < 0). -/
def cosCompare : Nat → Nat → Int → Nat → Ordering
  | 0, u, a, b => if u = 0 then compare (2 ^ b : Int) a else compare (-2 ^ b : Int) a
  | n + 1, u, a, b =>
    if a < 0 then
      if u ≤ 2 ^ n then .gt
      else (cosCompare n (2 ^ (n + 1) - u) (2 * a * a - 2 ^ (2 * b)) (2 * b)).swap
    else if 2 ^ n < u then .lt
    else cosCompare n u (2 * a * a - 2 ^ (2 * b)) (2 * b)

/-- The largest pattern below `p + 2^bits` whose value is at most cos(u·π/2^n), found bit by bit from bit `bits − 1`
down: the value of a positive binary32 rises with its pattern. -/
def floorPattern (n u : Nat) : Nat → Nat → Nat
  | 0, p => p
  | i + 1, p =>
    if cosCompare n u (f32Mag (BitVec.ofNat 32 (p + 2 ^ i)) : Int) 149 = .lt then floorPattern n u i p
    else floorPattern n u i (p + 2 ^ i)

/-- The pattern of the binary32 nearest to cos(u·π/2^n), for an angle in the first quadrant, where the cosine is in
[0, 1]: the pattern below it or the next one, as the cosine stands to their midpoint, and the even one at a tie. -/
def nearestPattern (n u : Nat) : Nat :=
  let p := floorPattern n u 30 0
  let twiceMid := f32Mag (BitVec.ofNat 32 p) + f32Mag (BitVec.ofNat 32 (p + 1))
  match cosCompare n u (twiceMid : Int) 150 with
  | .lt => p
  | .gt => p + 1
  | .eq => if p % 2 = 0 then p else p + 1

/-- The reference binary32 of cos(u·π/N), N = 2^n (R121): the angle is brought into a half turn and then, with the sign
apart, into the first quadrant; the value 0 is +0. -/
def cosRef (n u : Nat) : F32 :=
  let order := 2 ^ n
  let v := u % (2 * order)
  let h := if order < v then 2 * order - v else v
  if order < 2 * h then BitVec.ofNat 32 (2 ^ 31 + nearestPattern n (order - h))
  else BitVec.ofNat 32 (nearestPattern n h)

/-- The reference binary32 of sin(u·π/N) (R121): the sine is the cosine three quarter turns, 3N/2 units, further on. -/
def sinRef (n u : Nat) : F32 := cosRef n (u + 3 * 2 ^ n / 2)

/-- SYMVAL(N, u) of the model instance (R8, R121): the instance's own value where it gives one, else the reference. -/
def symvalOf (p : Params) (order u : Nat) : F32 × F32 :=
  match p.symval.find? (fun e => decide (e.order = order ∧ e.u = u)) with
  | some e => (e.re, e.im)
  | none => (cosRef (Nat.log2 order) u, sinRef (Nat.log2 order) u)

end Sys2Proof.Machine
end

