-- ==== Sys2Proof/Machine/Configuration.lean ====
section
/-! DEFINITION. BitOrderingGenerator and IndexPermutation (41_configuration.md R111 to R115), and CFG (R110). -/

namespace Sys2Proof.Machine

/-- Natural-binary ordering (R112): `natural_order(n)[k] = bits_to_int(int_to_bits(k, n))`. -/
def naturalOrder (n : Nat) : List Nat := (List.range (2 ^ n)).map (fun k => bitsToInt (intToBits k n))

/-- One mirror-and-prefix step of the Gray construction (R113). -/
def grayStep (rows : List Bits) : List Bits := rows.map (false :: ·) ++ rows.reverse.map (true :: ·)

/-- The rows after the step has run `m` times from [0] and [1] (R113). -/
def grayRows : Nat → List Bits
  | 0 => [[false], [true]]
  | m + 1 => grayStep (grayRows m)

/-- Gray ordering (R113): the step runs n−1 times. -/
def grayOrder (n : Nat) : List Nat := (grayRows (n - 1)).map bitsToInt

/-- ORD[0..N−1] (R110): the Gray or the natural ordering. -/
def orderTable (n : Nat) (gray : Bool) : List Nat := if gray then grayOrder n else naturalOrder n

/-- The loop of R115 from entry `k` on: for each index, inverse[bit_ordering_inds[i]] = i. -/
def fillInverse : List Nat → Nat → List Nat → List Nat
  | [], _, inv => inv
  | v :: rest, k, inv => fillInverse rest (k + 1) (inv.set v k)

/-- INV[0..N−1] (R115). The slots are written over a list of the right length; ORD is a permutation (R117), so each is
written exactly once and none keeps the value it had. -/
def inverseTable (ord : List Nat) : List Nat := fillInverse ord 0 (List.replicate ord.length 0)

/-- The CFG register of a configuration (R110): ROT = 1 when N ≠ 2. -/
def configReg (n : Nat) (gray : Bool) : CfgReg :=
  { valid := true
    gray := gray
    rot := decide (2 ^ n ≠ 2)
    logn := BitVec.ofNat 4 n
    order := BitVec.ofNat 16 (2 ^ n) }

/-- The configuration of order 2^n in force: CFG, ORD, INV and PH (R110). -/
def State.configure (s : State) (n : Nat) (gray : Bool) : State :=
  s.setConfig (configReg n gray) (orderTable n gray) (inverseTable (orderTable n gray))
    (phaseTable (2 ^ n) (decide (2 ^ n ≠ 2)))

/-- CFG N, G (R110): MACC and DACC are cleared on both outcomes; a bad order leaves the block unconfigured. -/
def execCfg (nreq : BitVec 16) (gray : Bool) (s : State) : Host.Outcome State Fault Refusal :=
  let cleared := (s.setMacc []).setDacc []
  match orderLog? s.params.lognMax nreq with
  | none => fail .cfgerr (.cfg nreq gray) cleared.dropConfig
  | some n => .next ((cleared.configure n gray).ok ((configReg n gray).word.setWidth 64))

end Sys2Proof.Machine
end

