-- ==== Sys2Proof/Machine/Control.lean ====
section
/-! DEFINITION. Table and register readback, CLRERR and NOP (44_control.md R160 to R163). -/

namespace Sys2Proof.Machine

/-- The entry RDTAB reads, zero-extended (R160, R51); none where the slot holds no value. SYM is derived from PH (R31). -/
def State.tableEntry? (s : State) (tab : TableSel) (i : Nat) : Option DWord :=
  match tab with
  | .ord => s.ord[i]?.map (BitVec.ofNat 64)
  | .inv => s.inv[i]?.map (BitVec.ofNat 64)
  | .ph => s.ph[i]?.map (BitVec.ofNat 64)
  | .sym =>
    s.ph[i]?.map (fun u => (symvalOf s.params s.cfg.order.toNat u).2 ++ (symvalOf s.params s.cfg.order.toNat u).1)

/-- RDTAB TAB, I (R160). -/
def execRdtab (tab : TableSel) (idx : BitVec 16) (s : State) : Host.Outcome State Fault Refusal :=
  if s.cfg.valid = false then fail .notcfg (.rdtab tab idx) s
  else if s.cfg.order.toNat ≤ idx.toNat then fail .range (.rdtab tab idx) s
  else
    match s.tableEntry? tab idx.toNat with
    | none => .fault (.emptySlot tab)
    | some d => .next (s.ok d)

/-- RDREG REG (R161). -/
def execRdreg (rn : BitVec 4) (s : State) : Host.Outcome State Fault Refusal :=
  match s.register? rn with
  | none => fail .range (.rdreg rn) s
  | some r => .next (s.ok (r.setWidth 64))

/-- CLRERR (R162). -/
def execClrerr (s : State) : Host.Outcome State Fault Refusal := .next (s.clearErrors.ok 0#64)

/-- NOP (R163). -/
def execNop (s : State) : Host.Outcome State Fault Refusal := .next (s.ok 0#64)

end Sys2Proof.Machine
end

