-- ==== Sys2Proof/Machine/Modulator.lean ====
section
/-! DEFINITION. The Modulator: PUSH (42_modulator.md R130) and MEND (R131). -/

namespace Sys2Proof.Machine

/-- The symbol of one group (R130): its value, through INV in Gray mode, is the constellation index; its phase gives the
sample. The fault is a slot without a value. -/
def State.symbolOf (s : State) (group : Bits) : Except Fault Sample :=
  let v := bitsToInt group
  match (if s.cfg.gray then s.inv[v]? else some v) with
  | none => .error (.emptySlot .inv)
  | some k =>
    match s.ph[k]? with
    | none => .error (.emptySlot .ph)
    | some u => .ok ⟨BitVec.ofNat 16 k, (symvalOf s.params s.cfg.order.toNat u).1, (symvalOf s.params s.cfg.order.toNat u).2⟩

/-- The symbols of the groups, in group order (R130). -/
def State.symbolsOf (s : State) : List Bits → Except Fault (List Sample)
  | [] => .ok []
  | g :: rest =>
    match s.symbolOf g with
    | .error e => .error e
    | .ok x =>
      match s.symbolsOf rest with
      | .error e => .error e
      | .ok xs => .ok (x :: xs)

/-- RDATA of PUSH (R130): the new MCNT in 11:8, the number of symbols in 4:0. -/
def pushData (mcnt cnt : Nat) : DWord := (BitVec.ofNat 4 mcnt ++ 0#3 ++ BitVec.ofNat 5 cnt).setWidth 64

/-- RDATA of MEND (R131): the dropped bits' value in 28:16, their number in 3:0. -/
def mendData (bits : Bits) : DWord :=
  (BitVec.ofNat 13 (bitsToInt bits) ++ 0#12 ++ BitVec.ofNat 4 bits.length).setWidth 64

/-- The success path of PUSH (R130): the bits join MACC, each complete group becomes a symbol, the rest stays in MACC. -/
def State.pushBits (s : State) (b : Bits) : Host.Outcome State Fault Refusal :=
  let all := s.macc ++ b
  if s.cfg.logn = 0#4 then .fault .endlessGroups
  else
    match s.symbolsOf (splitGroups s.cfg.logn.toNat all.length all).1 with
    | .error e => .fault e
    | .ok xs =>
      let rest := (splitGroups s.cfg.logn.toNat all.length all).2
      .next (((s.emitSout xs).setMacc rest).ok (pushData rest.length xs.length))

/-- PUSH V, W (R130). -/
def execPush (v : BitVec 16) (w : BitVec 5) (s : State) : Host.Outcome State Fault Refusal :=
  if 16 < w.toNat then fail .illegal (.push v w) s
  else if s.cfg.valid = false then fail .notcfg (.push v w) s
  else
    match effectiveWidth v w with
    | none => fail .overflow (.push v w) s
    | some len => s.pushBits (intToBits v.toNat len)

/-- MEND (R131): the incomplete group is dropped and reported. -/
def execMend (s : State) : Host.Outcome State Fault Refusal := .next ((s.setMacc []).ok (mendData s.macc))

end Sys2Proof.Machine
end

