-- ==== Sys2Proof/Machine/Slicer.lean ====
section
/-! DEFINITION. The hard-decision slicer: the reference decision (43_slicer.md R141), SLICEDEC (R142), SLICE (R140) and
DEND (R146). The reference is computed exactly: squaring a complex number doubles its angle, so the binary digits of the
angle in turns are signs of exact integers. -/

namespace Sys2Proof.Machine

/-- `turn m x y` for (x, y) ≠ (0, 0) of angle θ in [0, 2π): the integer part of 2^m·θ/2π, and whether 2^m·θ/2π is an
integer. -/
def turn : Nat → Int → Int → Nat × Bool
  | 0, x, y => (0, decide (y = 0 ∧ 0 < x))
  | m + 1, x, y =>
    let half := if y < 0 ∨ (y = 0 ∧ x < 0) then 1 else 0
    let deeper := turn m (x * x - y * y) (2 * x * y)
    (half * 2 ^ m + deeper.1, deeper.2)

/-- `sliceRef(N, ROT, x, y)` (R141): t = (θ·N/π − ROT)/2 rounded half to even, mod N. With f the integer part of θ·N/π,
the integer part of t + ½ is j = (f + 1 − ROT)/2; t is half-way exactly when θ·N/π is an integer and f + 1 − ROT is even,
and then the even one of j − 1 and j is taken. -/
def sliceRef (order : Nat) (rot : Bool) (re im : F32) : Nat :=
  let t := turn (Nat.log2 order + 1) (f32Scaled re) (f32Scaled im)
  let g := t.1 + (1 - rot.toNat)
  let j := g / 2
  if t.2 = true ∧ g % 2 = 0 ∧ j % 2 = 1 then (j - 1) % order else j % order

/-- SLICEDEC(N, ROT, re, im) of the model instance (R8, R142): the instance's own decision where it gives one, else the
reference. -/
def slicedecOf (p : Params) (order : Nat) (rot : Bool) (re im : F32) : Nat :=
  match p.slicedec.find? (fun e => decide (e.order = order ∧ e.rot = rot ∧ e.re = re ∧ e.im = im)) with
  | some e => e.idx
  | none => sliceRef order rot re im

/-- The constellation index of a finite sample (R140): a draw in 0..N−1 for a zero sample (R143), else SLICEDEC; and the
state after it, which counts the draw. -/
def State.chooseIndex (s : State) (re im : F32) : Nat × State :=
  if f32IsZero re ∧ f32IsZero im then (Config.zeroIdx s.draws % s.cfg.order.toNat, s.drawn)
  else (slicedecOf s.params s.cfg.order.toNat s.cfg.rot re im, s)

/-- A bit vector of 8 bits becomes a byte (R55). -/
def byteOf (b : Bits) : Byte := BitVec.ofNat 8 (bitsToInt b)

/-- RDATA of SLICE (R140): the new DCNT in 38:36, the number of bytes in 33:32, ORD[k] in 31:16, k in 15:0. -/
def sliceData (dcnt nb pattern k : Nat) : DWord :=
  (BitVec.ofNat 3 dcnt ++ 0#2 ++ BitVec.ofNat 2 nb ++ BitVec.ofNat 16 pattern ++ BitVec.ofNat 16 k).setWidth 64

/-- RDATA of DEND (R146): the residual bits' value in 22:16, e in bit 4, their number in 3:0. -/
def dendData (bits : Bits) (padded : Bool) : DWord :=
  (BitVec.ofNat 7 (bitsToInt bits) ++ 0#11 ++ BitVec.ofBool padded ++ BitVec.ofNat 4 bits.length).setWidth 64

/-- The byte packer (R140): the bits join DACC, every 8 of them become a byte of BOUT, the rest stays in DACC. -/
def State.packBits (s : State) (b : Bits) : State :=
  let all := s.dacc ++ b
  (s.emitBout ((splitGroups 8 all.length all).1.map byteOf)).setDacc (splitGroups 8 all.length all).2

/-- The success path of SLICE from the index on (R140). -/
def State.sliceIndex (s : State) (k : Nat) : Host.Outcome State Fault Refusal :=
  match s.ord[k]? with
  | none => .fault (.emptySlot .ord)
  | some v =>
    let all := s.dacc ++ intToBits v s.cfg.logn.toNat
    let groups := splitGroups 8 all.length all
    .next ((s.packBits (intToBits v s.cfg.logn.toNat)).ok (sliceData groups.2.length groups.1.length v k))

/-- SLICE re, im (R140). -/
def execSlice (re im : F32) (s : State) : Host.Outcome State Fault Refusal :=
  if s.cfg.valid = false then fail .notcfg (.slice re im) s
  else if f32IsNaN re ∨ f32IsInf re ∨ f32IsNaN im ∨ f32IsInf im then fail .badsample (.slice re im) s
  else (s.chooseIndex re im).2.sliceIndex (s.chooseIndex re im).1

/-- DEND (R146): the incomplete byte is reported, and padded and emitted where DEC_TAIL = ZPAD. -/
def execDend (s : State) : Host.Outcome State Fault Refusal :=
  let pad := decide (s.params.decTail = .zpad ∧ 0 < s.dacc.length)
  let tail := if pad then [byteOf (s.dacc ++ List.replicate (8 - s.dacc.length) false)] else []
  .next (((s.emitBout tail).setDacc []).ok (dendData s.dacc pad))

end Sys2Proof.Machine
end

