-- ==== Sys2Proof/Machine/Dispatch.lean ====
section
/-! DEFINITION. The dispatch of the opcode map (30_encoding.md R77): one arm per command, each one call of its meaning. -/

namespace Sys2Proof.Machine

/-- One command (R77). -/
def exec (i : Instr) (s : State) : Host.Outcome State Fault Refusal :=
  match i with
  | .nop => Sys2Proof.Machine.execNop s
  | .cfg nreq gray => Sys2Proof.Machine.execCfg nreq gray s
  | .push v w => Sys2Proof.Machine.execPush v w s
  | .mend => Sys2Proof.Machine.execMend s
  | .slice re im => Sys2Proof.Machine.execSlice re im s
  | .dend => Sys2Proof.Machine.execDend s
  | .rdtab tab idx => Sys2Proof.Machine.execRdtab tab idx s
  | .rdreg rn => Sys2Proof.Machine.execRdreg rn s
  | .clrerr => Sys2Proof.Machine.execClrerr s
  | .i2b v w => Sys2Proof.Machine.execI2b v w s

end Sys2Proof.Machine
end

