-- ==== Sys2Proof/Machine/Delivery.lean ====
section
/-! DEFINITION. What one thing the host does makes of the state: a delivered beat is decoded and run (20_memory.md R58,
R60), an illegal word fails with ILLEGAL (30_encoding.md R78), RESET (70_reset_and_hazards.md R190), the host's takes
(R193, R197). -/

namespace Sys2Proof.Machine

/-- A beat runs as one step: the command it decodes to, or ILLEGAL and no other effect (R78). -/
def runBeat (b : Beat) (s : State) : Host.Outcome State Fault Refusal :=
  match decode b with
  | .ok i => exec i s
  | .error _ => .next (s.raise .illegal b.cmd)

/-- The state after RESET, where the step before it answers a state (R190). -/
def thenReset : Host.Outcome State Fault Refusal → Host.Outcome State Fault Refusal
  | .next t => .next t.applyReset
  | .fault f => .fault f
  | .refused r => .refused r

/-- A beat in delivery when RESET is asserted "either completes wholly before reset or is not executed at all" (R190):
which of the two is a free value. -/
def runBeatDuringReset (b : Beat) (s : State) : Host.Outcome State Fault Refusal :=
  if Config.beatCompletes s.draws then thenReset (runBeat b s.drawn) else .next s.drawn.applyReset

/-- One host input. -/
def deliver (x : HostInput) (s : State) : Host.Outcome State Fault Refusal :=
  match x with
  | .beat b => runBeat b s
  | .reset => .next s.applyReset
  | .resetDuring b => runBeatDuringReset b s
  | .takeResponse => .next s.takeResponse
  | .takeSample => .next s.takeSample
  | .takeByte => .next s.takeByte

/-- The next host input and the state in which it has been taken off the port; none while the host does nothing. -/
def State.nextInput? (s : State) : Option (HostInput × State) :=
  match s.inputs with
  | [] => none
  | x :: rest => some (x, { s with inputs := rest })

end Sys2Proof.Machine
end

