-- ==== Sys2Proof/Machine/Step.lean ====
section
/-! DEFINITION. One step: the next thing the host does is done (10_state.md R21, 20_memory.md R60); with nothing to do the
block waits (70_reset_and_hazards.md R190). -/

namespace Sys2Proof.Machine

/-- One step of the machine. -/
def step (s : State) : Host.Outcome State Fault Refusal :=
  match s.nextInput? with
  | none => .next s
  | some (x, t) => deliver x t

/-- The state whose very next step takes the beat of a table word off the command port (log entry 3). -/
def State.withFetchWord (s : State) (nbits w : Nat) : State :=
  { s with inputs := HostInput.beat (tableBeat nbits w) :: s.inputs }

end Sys2Proof.Machine
end

