-- ==== Sys2Proof/Machine/Formats.lean ====
section
/-! DEFINITION. The host's side of the block's data: the symbol file and the byte file (20_memory.md R53 to R56), and the
pseudo-instructions with the encode and decode paths they make (30_encoding.md R82). -/

namespace Sys2Proof.Machine

/-- The 64-bit sample word (R53): the real part in bits 31:0, the imaginary part in bits 63:32. -/
def sampleWord (re im : F32) : DWord := im ++ re

/-- The 8 bytes of one record of the symbol file (R54): byte i is word bits 8i+7:8i. -/
def recordBytes (d : DWord) : List Byte := (List.range 8).map (fun i => d.extractLsb' (8 * i) 8)

/-- The symbol file of a sequence of SOUT elements (R54, R197): 8 bytes a sample, "no header, no length prefix". -/
def symbolFile (l : List Sample) : List Byte := l.flatMap (fun x => recordBytes (sampleWord x.re x.im))

/-- Record bytes read as one little-endian number (R54). -/
def littleEndian : List Byte → Nat
  | [] => 0
  | b :: rest => b.toNat + 2 ^ 8 * littleEndian rest

/-- The sample words of a symbol file (R54): "sample count = file size / 8". None for a file whose size is not a multiple
of 8, which R57 leaves outside the block and for which no rule gives a reading (log entry 9). -/
def readSymbolFile (file : List Byte) : Option (List DWord) :=
  if file.length % 8 = 0 then
    some ((List.range (file.length / 8)).map (fun j => BitVec.ofNat 64 (littleEndian ((file.drop (8 * j)).take 8))))
  else none

/-- The bit vector of a byte (R55): bit 7 first. -/
def byteBits (b : Byte) : Bits := intToBits b.toNat 8

/-- The bit stream of a byte file (R55, R56). -/
def bitStream (file : List Byte) : Bits := file.flatMap byteBits

/-- `pushb B` (R82). -/
def pushb (b : Byte) : Instr := .push (b.setWidth 16) 8#5

/-- `pushv V` (R82). -/
def pushv (v : BitVec 16) : Instr := .push v 0#5

/-- `cfgn N` (R82). -/
def cfgn (nreq : BitVec 16) : Instr := .cfg nreq false

/-- `cfgg N` (R82). -/
def cfgg (nreq : BitVec 16) : Instr := .cfg nreq true

/-- The host delivers a program, one beat a command. -/
def beatsOf (p : List Instr) : List HostInput := p.map (fun i => .beat (encode i))

/-- `encode B0, ..., Bm` (R82): the encode path of a byte file. -/
def encodeFile (file : List Byte) : List HostInput := beatsOf (file.map pushb ++ [.mend])

/-- `decode S0, ..., Sm` (R82) of the samples of a symbol file: the decode path. -/
def decodeFile (file : List Byte) : Option (List HostInput) :=
  (readSymbolFile file).map (fun ds => beatsOf (ds.map (fun d => .slice (fieldRe d) (fieldIm d)) ++ [.dend]))

end Sys2Proof.Machine
end

