-- ==== Sys2Proof/Safety.lean ====
section
/-! DEFINITION. The terms claims use: the invariant of the machine (10_state.md R28 to R30 and R37, with the legal values of
R8, R22 and R23), and what it is for SYMVAL and SLICEDEC to conform (41_configuration.md R121, 43_slicer.md R142), in exact
real numbers (00_scope.md R13). -/

namespace Sys2Proof.Machine

/-- The invariant that holds between commands. It holds at reset and every step keeps it (Obligations). -/
structure State.Inv (s : State) : Prop where
  /-- The parameters are legal (R8). -/
  params : s.params.Legal
  /-- With VALID = 0, CFG is all zero, no slot holds a value, and MACC and DACC are empty (R22, R37). -/
  unconfigured : s.cfg.valid = false →
    s.cfg = CfgReg.unconfigured ∧ s.ord = [] ∧ s.inv = [] ∧ s.ph = [] ∧ s.macc = [] ∧ s.dacc = []
  /-- With VALID = 1, CFG and the tables are those of an order 2^n with 1 ≤ n ≤ LOGN_MAX (R22, R28 to R30, R110), and
  MACC holds fewer than n bits (R37). -/
  configured : s.cfg.valid = true → ∃ n, 1 ≤ n ∧ n ≤ s.params.lognMax ∧ s.cfg = configReg n s.cfg.gray ∧
    s.ord = orderTable n s.cfg.gray ∧ s.inv = inverseTable s.ord ∧
    s.ph = phaseTable (2 ^ n) (decide (2 ^ n ≠ 2)) ∧ s.macc.length < n
  /-- DACC holds fewer than 8 bits (R37). -/
  dacc : s.dacc.length < 8
  /-- LASTERR is 0 exactly while no command has failed since the last reset or CLRERR, and then ERR is 0 (R23). -/
  errCode : s.status.err = true ↔ s.status.lastErr ≠ 0#4
  /-- LASTERR is one of the codes in use, 0 to 6 (R170). -/
  lastErr : s.status.lastErr.toNat ≤ 6

/-- A binary32 pattern that denotes a real number: neither a NaN nor an infinity (R144). -/
def f32Finite (p : F32) : Bool := !f32IsNaN p && !f32IsInf p

/-- The real number a finite pattern denotes, exact as a rational (R13, R144). -/
def f32Rat (p : F32) : ℚ := (f32Scaled p : ℚ) / 2 ^ 149

/-- SYMVAL conforms at order N = 2^n and phase u·π/N (R121): (a) both parts are finite, (b) each is within SYM_TOL of the
exact cosine and sine. -/
def SymvalConformsAt (p : Params) (n u : Nat) : Prop :=
  f32Finite (symvalOf p (2 ^ n) u).1 = true ∧ f32Finite (symvalOf p (2 ^ n) u).2 = true ∧
  |((f32Rat (symvalOf p (2 ^ n) u).1 : ℚ) : ℝ) - Real.cos (u * Real.pi / 2 ^ n)| ≤ p.symTol ∧
  |((f32Rat (symvalOf p (2 ^ n) u).2 : ℚ) : ℝ) - Real.sin (u * Real.pi / 2 ^ n)| ≤ p.symTol

/-- `t` is the t of R141 for a sample and an order N = 2^n: (θ − ROT·π/N)/(2π/N), θ the sample's angle in (−π, π]. -/
def IsSlicerPosition (n : Nat) (rot : Bool) (re im : F32) (t : ℝ) : Prop :=
  t * (2 * Real.pi / 2 ^ n) = Complex.arg ⟨((f32Rat re : ℚ) : ℝ), ((f32Rat im : ℚ) : ℝ)⟩ - rot.toNat * Real.pi / 2 ^ n

/-- `r` is `round_half_even(t)` (R13). -/
def IsRoundHalfEven (t : ℝ) (r : ℤ) : Prop := |t - r| ≤ 1 / 2 ∧ (|t - r| = 1 / 2 → Even r)

/-- SLICEDEC conforms at one sample (R142): with h = m + ½ the half-integer nearest to t and d = |t − h|, it is the reference
decision where d ≥ SLICE_TOL, and one of the two indices the boundary h separates where d < SLICE_TOL. -/
def SlicedecConformsAt (p : Params) (n : Nat) (rot : Bool) (re im : F32) : Prop :=
  ∀ (t : ℝ) (m : ℤ), IsSlicerPosition n rot re im t → |t - (m + 1 / 2)| ≤ 1 / 2 →
    (p.sliceTol ≤ |t - (m + 1 / 2)| → slicedecOf p (2 ^ n) rot re im = sliceRef (2 ^ n) rot re im) ∧
    (|t - (m + 1 / 2)| < p.sliceTol →
      (slicedecOf p (2 ^ n) rot re im : ℤ) = m % 2 ^ n ∨ (slicedecOf p (2 ^ n) rot re im : ℤ) = (m + 1) % 2 ^ n)

/-- The parameters are those of a conforming instance (R8): legal, with a SYMVAL that conforms at every order and phase the
instance has (R121), and a SLICEDEC that conforms on every finite sample but zero (R142), both within the instance's own
tolerances. -/
structure ParamsConform (p : Params) : Prop where
  legal    : p.Legal
  symval   : ∀ n u : Nat, 1 ≤ n → n ≤ p.lognMax → u < 2 * 2 ^ n → SymvalConformsAt p n u
  slicedec : ∀ (n : Nat) (re im : F32), 1 ≤ n → n ≤ p.lognMax → f32Finite re = true → f32Finite im = true →
    ¬ (f32IsZero re = true ∧ f32IsZero im = true) → SlicedecConformsAt p n (decide (2 ^ n ≠ 2)) re im

/-- The state of a conforming instance: the invariant, and parameters that conform. -/
structure State.Conforming (s : State) : Prop where
  inv      : s.Inv
  conforms : ParamsConform s.params

end Sys2Proof.Machine
end

