-- ==== Sys2Proof/Certificates/Slice0/Obligations.lean ====
section
/-! DEFINITION. The statements for the provers, from the numbered rules of spec/. The helpers first: they spell the rules out
in numbers, apart from the model's own operations. -/

open Sys2Proof Sys2Proof.Machine

namespace Sys2Proof.Statements

/-- C[hi:lo] as a number (R9). -/
def slice (c : Word) (hi lo : Nat) : Nat := c.toNat / 2 ^ lo % 2 ^ (hi - lo + 1)

/-- C[15:0] read as a signed 16-bit number (R73). -/
def signed16 (x : Nat) : Int := if x < 2 ^ 15 then (x : Int) else (x : Int) - 2 ^ 16

/-- respond(OK, d) and nothing else. -/
def answered (s : State) (d : Nat) : State := { s with responses := s.responses ++ [⟨0#4, BitVec.ofNat 64 d⟩] }

/-- raise E(C) with code(E) = `code` (R171): ERR, LASTERR and the response code(E), zext_64(C), and nothing else. -/
def failed (s : State) (code : Nat) (c : Word) : State :=
  { s with
    status := ⟨true, BitVec.ofNat 4 code⟩
    responses := s.responses ++ [⟨BitVec.ofNat 4 code, BitVec.ofNat 64 c.toNat⟩] }

/-- The width a format V command uses (R103, R130): W, or the minimal width of V for W = 0. -/
def usedWidth (v : BitVec 16) (w : BitVec 5) : Nat := if w = 0#5 then minw v.toNat else w.toNat

/-- The operands a format V command accepts: W ≤ 16, and V < 2^W where W is given. -/
def FitsWidth (v : BitVec 16) (w : BitVec 5) : Prop := w.toNat ≤ 16 ∧ (w ≠ 0#5 → v.toNat < 2 ^ w.toNat)

/-- Group j of a bit vector cut into groups of n bits. -/
def group (n : Nat) (b : Bits) (j : Nat) : Bits := (b.drop (j * n)).take n

/-- `xs` are the symbols of the complete groups of `b` (R130, R132): one a group, in order; the symbol of a group of value
v has the index k = INV[v], for which ORD[k] = v, k = v in natural mode, and the sample SYMVAL(N, PH[k]). -/
def SymbolsOf (s : State) (b : Bits) (xs : List Sample) : Prop :=
  xs.length = b.length / s.cfg.logn.toNat ∧
  ∀ j, j < b.length / s.cfg.logn.toNat → ∃ k u,
    s.inv[bitsToInt (group s.cfg.logn.toNat b j)]? = some k ∧
    s.ord[k]? = some (bitsToInt (group s.cfg.logn.toNat b j)) ∧
    (s.cfg.gray = false → k = bitsToInt (group s.cfg.logn.toNat b j)) ∧
    s.ph[k]? = some u ∧ k < s.cfg.order.toNat ∧
    xs[j]? = some ⟨BitVec.ofNat 16 k, (symvalOf s.params s.cfg.order.toNat u).1, (symvalOf s.params s.cfg.order.toNat u).2⟩

/-- The bytes of the complete groups of 8 bits of `b` (R55, R140). -/
def bytesOf (b : Bits) : List Byte := (List.range (b.length / 8)).map (fun j => BitVec.ofNat 8 (bitsToInt (group 8 b j)))

/-- The state after a SLICE that took index k with the pattern v = ORD[k] (R140). -/
def sliced (s : State) (k v : Nat) : State :=
  let all := s.dacc ++ intToBits v s.cfg.logn.toNat
  answered { s with dacc := all.drop (all.length / 8 * 8), bout := s.bout ++ bytesOf all }
    (all.length % 8 * 2 ^ 36 + all.length / 8 * 2 ^ 32 + v * 2 ^ 16 + k)

/-- The state after a CFG of order 2^n (R110). -/
def configured (s : State) (n : Nat) (gray : Bool) : State :=
  answered
    { s with
      cfg := ⟨true, gray, decide (2 ^ n ≠ 2), BitVec.ofNat 4 n, BitVec.ofNat 16 (2 ^ n)⟩
      ord := if gray then grayOrder n else naturalOrder n
      inv := inverseTable (if gray then grayOrder n else naturalOrder n)
      ph := (List.range (2 ^ n)).map (fun k => 2 * k + if 2 ^ n ≠ 2 then 1 else 0)
      macc := []
      dacc := [] }
    (2 ^ n * 2 ^ 16 + n * 2 ^ 4 + (if 2 ^ n ≠ 2 then 4 else 0) + (if gray then 2 else 0) + 1)

/-- The state in which a CFG with a bad order leaves the block, before its error (R110). -/
def deconfigured (s : State) : State :=
  { s with cfg := ⟨false, false, false, 0#4, 0#16⟩, ord := [], inv := [], ph := [], macc := [], dacc := [] }

/-- `valid_order(Nreq)` (R111): Nreq is 2^n for an n in 1..LOGN_MAX. -/
abbrev ValidOrder (lognMax : Nat) (nreq : Int) : Prop := ∃ n ∈ List.range (lognMax + 1), 1 ≤ n ∧ nreq = 2 ^ n

/-- The rows of the opcode map (R77): match, mask, and whether the extra condition W ≤ 16 applies. -/
def opcodeRows : List (Nat × Nat × Bool) :=
  [(0x00000000, 0xFFFFFFFF, false), (0x10000000, 0xFFFE0000, false), (0x20000000, 0xFFE00000, true),
   (0x30000000, 0xFFFFFFFF, false), (0x40000000, 0xFFFFFFFF, false), (0x50000000, 0xFFFFFFFF, false),
   (0x60000000, 0xFFFC0000, false), (0x70000000, 0xFFFFFFF0, false), (0x80000000, 0xFFFFFFFF, false),
   (0x90000000, 0xFFE00000, true)]

/-- A legal command word (R77, R78): `(C & mask) = match` for a row, with W ≤ 16 where the row asks it. -/
abbrev LegalWord (c : Word) : Prop :=
  ∃ r ∈ opcodeRows, c.toNat &&& r.2.1 = r.1 ∧ (r.2.2 = true → slice c 20 16 ≤ 16)

/-- The one error code a command reports, its checks in the order of R172; 0 for success. -/
def verdict (s : State) (b : Beat) : Nat :=
  let op := slice b.cmd 31 28
  let w := slice b.cmd 20 16
  let v := slice b.cmd 15 0
  if ¬ LegalWord b.cmd then 6
  else if (op = 2 ∨ op = 4 ∨ op = 6) ∧ s.cfg.valid = false then 3
  else if (op = 2 ∨ op = 9) ∧ w ≠ 0 ∧ 2 ^ w ≤ v then 2
  else if op = 6 ∧ s.cfg.order.toNat ≤ v then 4
  else if op = 7 ∧ 5 ≤ slice b.cmd 3 0 then 4
  else if op = 4 ∧ ¬ (f32Finite (fieldRe b.data) = true ∧ f32Finite (fieldIm b.data) = true) then 5
  else if op = 1 ∧ ¬ ValidOrder s.params.lognMax (signed16 v) then 1
  else 0

/-- `k` steps. -/
def steps : Nat → State → Host.Outcome State Fault Refusal
  | 0, s => .next s
  | k + 1, s =>
    match step s with
    | .next t => steps k t
    | .fault f => .fault f
    | .refused r => .refused r


/-- `r` is what `f` answers for the illegal and the legal words of opcode `op` whose reserved field is C[27:lo] (R78):
an illegal one fails with ILLEGAL and no other effect, a legal one is as `legal` says. -/
def WordsOf (op lo : Nat) (legal : Word → DWord → State → Prop) : Prop :=
  ∀ (c : Word) (d : DWord) (s : State), slice c 31 28 = op →
    (slice c 27 lo ≠ 0 → runBeat ⟨c, d⟩ s = .next (failed s 6 c)) ∧ (slice c 27 lo = 0 → legal c d s)

end Sys2Proof.Statements

open Sys2Proof.Statements

/-! ### Encoding -/

/-- Decode and encode agree: no bit of an encoding is dropped (R71 to R77). -/
def Obligations.DecodeInvertsEncode : Prop :=
  ∀ i : Instr, i.wellFormed = true → decode (encode i) = .ok i

/-- Each legal word has one meaning: what a beat decodes to is well formed and encodes to the same command word, and for
SLICE to the same data word. -/
def Obligations.EncodeInvertsDecode : Prop :=
  ∀ (b : Beat) (i : Instr), decode b = .ok i →
    i.wellFormed = true ∧ (encode i).cmd = b.cmd ∧ (slice b.cmd 31 28 = 4 → (encode i).data = b.data)

/-- R78: a word that no row of the opcode map selects fails with ILLEGAL and has no other effect, and every other word is a
command: the decoder is total. -/
def Obligations.IllegalWordsFailAlone : Prop :=
  ∀ (c : Word) (d : DWord),
    (¬ LegalWord c → ∀ s, runBeat ⟨c, d⟩ s = .next (failed s 6 c)) ∧
    (LegalWord c → ∃ i, decode ⟨c, d⟩ = .ok i ∧ ∀ s, runBeat ⟨c, d⟩ s = exec i s)

/-- R80: the operands each command reads, as numbers of its command word and data word. -/
def Obligations.OperandAssembly : Prop :=
  ∀ b : Beat,
    (∀ nreq gray, decode b = .ok (.cfg nreq gray) →
      nreq.toInt = signed16 (slice b.cmd 15 0) ∧ gray = decide (slice b.cmd 16 16 = 1)) ∧
    (∀ v w, decode b = .ok (.push v w) ∨ decode b = .ok (.i2b v w) →
      v.toNat = slice b.cmd 15 0 ∧ w.toNat = slice b.cmd 20 16) ∧
    (∀ tab idx, decode b = .ok (.rdtab tab idx) →
      (fieldOfTable tab).toNat = slice b.cmd 17 16 ∧ idx.toNat = slice b.cmd 15 0) ∧
    (∀ rn, decode b = .ok (.rdreg rn) → rn.toNat = slice b.cmd 3 0) ∧
    (∀ re im, decode b = .ok (.slice re im) →
      re.toNat = b.data.toNat % 2 ^ 32 ∧ im.toNat = b.data.toNat / 2 ^ 32)

/-- R70: D is read only by SLICE. -/
def Obligations.DataWordReadOnlyBySlice : Prop :=
  ∀ (c : Word) (d d' : DWord) (s : State), slice c 31 28 ≠ 4 → runBeat ⟨c, d⟩ s = runBeat ⟨c, d'⟩ s

/-- A few words written out in the spec's worked examples and vectors decode to the commands they stand for. -/
def Obligations.SpecWordsDecode : Prop :=
  decode ⟨0x00000000#32, 0#64⟩ = .ok .nop ∧
  decode ⟨0x10010004#32, 0#64⟩ = .ok (.cfg 4#16 true) ∧
  decode ⟨0x20080041#32, 0#64⟩ = .ok (.push 0x41#16 8#5) ∧
  decode ⟨0x40000000#32, 0x3F3504F3BF3504F3#64⟩ = .ok (.slice 0xBF3504F3#32 0x3F3504F3#32) ∧
  decode ⟨0x60010004#32, 0#64⟩ = .ok (.rdtab .inv 4#16) ∧
  decode ⟨0x70000004#32, 0#64⟩ = .ok (.rdreg 4#4) ∧
  decode ⟨0x90110000#32, 0#64⟩ = .error .illegalWidth

/-! ### Steps -/

/-- A step runs the decoded command: when the next thing the host does is to deliver a beat that decodes to i, the step is
exec of i in the state with the beat taken off the port; an illegal beat's step is the ILLEGAL failure. -/
def Obligations.StepRunsDeliveredBeat : Prop :=
  ∀ (s : State) (b : Beat) (rest : List HostInput), s.inputs = .beat b :: rest →
    (∀ i, decode b = .ok i → step s = exec i { s with inputs := rest }) ∧
    (∀ e, decode b = .error e → step s = .next (failed { s with inputs := rest } 6 b.cmd))

/-- With nothing to do the block waits, and the host takes the oldest response, sample and byte (log entries 3 and 5: the
takes are the model's form of the draining of R193). -/
def Obligations.WaitsAndHostTakes : Prop :=
  ∀ (s : State) (rest : List HostInput),
    (s.inputs = [] → step s = .next s) ∧
    (∀ x xs, s.inputs = .takeResponse :: rest → s.responses = x :: xs → step s = .next
      { s with inputs := rest, responses := xs, taken := { s.taken with responses := s.taken.responses ++ [x] } }) ∧
    (∀ x xs, s.inputs = .takeSample :: rest → s.sout = x :: xs → step s = .next
      { s with inputs := rest, sout := xs, taken := { s.taken with samples := s.taken.samples ++ [x] } }) ∧
    (∀ x xs, s.inputs = .takeByte :: rest → s.bout = x :: xs → step s = .next
      { s with inputs := rest, bout := xs, taken := { s.taken with bytes := s.taken.bytes ++ [x] } })

/-! ### BitVectorCodec -/

/-- R100: `bits_to_int(b) = Σ b[j]·2^(L−1−j)`, below 2^L. -/
def Obligations.BitsToIntIsMsbFirstSum : Prop :=
  ∀ b : Bits,
    bitsToInt b = (Finset.range b.length).sum (fun j => (b.getD j false).toNat * 2 ^ (b.length - 1 - j)) ∧
    bitsToInt b < 2 ^ b.length

/-- R101 on the values that fit: the vector has length w, its element j is bit w−1−j of v, and it reads back as v. -/
def Obligations.IntToBitsElements : Prop :=
  ∀ v w : Nat, v < 2 ^ w →
    (intToBits v w).length = w ∧ bitsToInt (intToBits v w) = v ∧
    ∀ j, j < w → (intToBits v w)[j]? = some (decide (v / 2 ^ (w - 1 - j) % 2 = 1))

/-- R102: `minw`, and the omitted width never overflows. -/
def Obligations.MinimalWidthIsUnique : Prop :=
  minw 0 = 1 ∧
  (∀ v len : Nat, v ≠ 0 → (minw v = len ↔ 1 ≤ len ∧ 2 ^ (len - 1) ≤ v ∧ v < 2 ^ len)) ∧
  (∀ v : BitVec 16, effectiveWidth v 0#5 = some (minw v.toNat) ∧
    bitsToInt (intToBits v.toNat (minw v.toNat)) = v.toNat)

/-- R103, I2B: its answer on the operands it accepts, and what the words of opcode 9 do. -/
def Obligations.I2bRule : Prop :=
  (∀ (s : State) (v : BitVec 16) (w : BitVec 5), FitsWidth v w →
    exec (.i2b v w) s = .next (answered s (usedWidth v w * 2 ^ 16 + v.toNat))) ∧
  WordsOf 9 21 (fun c d s =>
    (16 < slice c 20 16 → runBeat ⟨c, d⟩ s = .next (failed s 6 c)) ∧
    (slice c 20 16 ≤ 16 → slice c 20 16 ≠ 0 → 2 ^ slice c 20 16 ≤ slice c 15 0 →
      runBeat ⟨c, d⟩ s = .next (failed s 2 c)) ∧
    (slice c 20 16 = 0 → runBeat ⟨c, d⟩ s = .next (answered s (minw (slice c 15 0) * 2 ^ 16 + slice c 15 0))) ∧
    (slice c 20 16 ≤ 16 → slice c 20 16 ≠ 0 → slice c 15 0 < 2 ^ slice c 20 16 →
      runBeat ⟨c, d⟩ s = .next (answered s (slice c 20 16 * 2 ^ 16 + slice c 15 0))))

/-! ### Configuration -/

/-- R112: `natural_order(n)[k] = bits_to_int(int_to_bits(k, n)) = k` for k in 0..2^n−1. -/
def Obligations.NaturalOrderIsIdentity : Prop :=
  ∀ n : Nat, (naturalOrder n).length = 2 ^ n ∧
    ∀ k, k < 2 ^ n → (naturalOrder n)[k]? = some (bitsToInt (intToBits k n)) ∧ bitsToInt (intToBits k n) = k

/-- R114: `gray_order(n)[k] = k XOR (k >> 1)`, for the rows the mirror-and-prefix construction of R113 builds. -/
def Obligations.GrayClosedForm : Prop :=
  ∀ n : Nat, 1 ≤ n → grayOrder n = (List.range (2 ^ n)).map (fun k => k ^^^ (k >>> 1))

/-- R117: for every order and both modes the ordering is a permutation of 0..N−1, and INV is its inverse on both sides
(R29). -/
def Obligations.OrderingBijection : Prop :=
  ∀ (n : Nat) (gray : Bool), 1 ≤ n →
    (orderTable n gray).Perm (List.range (2 ^ n)) ∧
    (inverseTable (orderTable n gray)).length = 2 ^ n ∧
    (∀ k, k < 2 ^ n → ∃ v, (orderTable n gray)[k]? = some v ∧ (inverseTable (orderTable n gray))[v]? = some k) ∧
    (∀ v, v < 2 ^ n → ∃ k, (inverseTable (orderTable n gray))[v]? = some k ∧ (orderTable n gray)[k]? = some v)

/-- R116: the closed form of INV: the identity in natural mode, the prefix XOR in Gray mode. -/
def Obligations.InverseClosedForm : Prop :=
  ∀ n : Nat, 1 ≤ n →
    inverseTable (orderTable n false) = List.range (2 ^ n) ∧
    inverseTable (orderTable n true) =
      (List.range (2 ^ n)).map (fun v => (List.range n).foldl (fun acc j => acc ^^^ (v >>> j)) 0)

/-- R118: in Gray mode consecutive entries, the wrap included, differ in exactly one bit; in natural mode that holds only
for N = 2. -/
def Obligations.GrayAdjacency : Prop :=
  ∀ (n : Nat) (gray : Bool), 1 ≤ n →
    ((∀ k, k < 2 ^ n → ∃ a b i, (orderTable n gray)[k]? = some a ∧ (orderTable n gray)[(k + 1) % 2 ^ n]? = some b ∧
      a ^^^ b = 2 ^ i) ↔ (gray = true ∨ n = 1))

/-- R120: PH[k] = 2·k + ROT with ROT = 1 when N ≠ 2 and 0 when N = 2, each below one full turn, for the table CFG builds;
R122's cases N = 2 and N = 8. -/
def Obligations.PhaseTableValues : Prop :=
  (∀ (s : State) (n : Nat) (gray : Bool), 1 ≤ n → ∀ k, k < 2 ^ n →
    (s.configure n gray).ph[k]? = some (2 * k + if 2 ^ n ≠ 2 then 1 else 0) ∧
    2 * k + (if 2 ^ n ≠ 2 then 1 else 0) < 2 * 2 ^ n) ∧
  (∀ (s : State) (gray : Bool), (s.configure 1 gray).ph = [0, 2] ∧ (s.configure 3 gray).ph = [1, 3, 5, 7, 9, 11, 13, 15])

/-- R121's reference SYMVAL is the nearest binary32, for every legal order: both parts finite, no finite binary32 nearer to
the exact cosine or sine, the even pattern at a tie, and the value 0 as +0. -/
def Obligations.ReferenceSymvalIsNearest : Prop :=
  ∀ n u : Nat, 1 ≤ n → n ≤ 14 → u < 2 * 2 ^ n →
    ∀ pc : F32 × ℝ, pc = (cosRef n u, Real.cos (u * Real.pi / 2 ^ n)) ∨ pc = (sinRef n u, Real.sin (u * Real.pi / 2 ^ n)) →
      f32Finite pc.1 = true ∧
      (∀ q : F32, f32Finite q = true → |((f32Rat pc.1 : ℚ) : ℝ) - pc.2| ≤ |((f32Rat q : ℚ) : ℝ) - pc.2|) ∧
      (∀ q : F32, f32Finite q = true → |((f32Rat pc.1 : ℚ) : ℝ) - pc.2| = |((f32Rat q : ℚ) : ℝ) - pc.2| →
        f32Rat q = f32Rat pc.1 ∨ pc.1.getLsbD 0 = false) ∧
      (f32Rat pc.1 = 0 → pc.1 = 0#32)

/-- A model instance with the default SYMVAL conforms for every SYM_TOL from 2^−24 on, at every legal order and phase (R121,
D8). -/
def Obligations.ReferenceSymvalConforms : Prop :=
  ∀ (p : Params) (n u : Nat), p.symval = [] → 1 / 2 ^ 24 ≤ p.symTol → 1 ≤ n → n ≤ 14 → u < 2 * 2 ^ n →
    SymvalConformsAt p n u

/-- R122: the magnitude of a conforming SYMVAL pair differs from 1 by at most 2·SYM_TOL. -/
def Obligations.SymbolMagnitude : Prop :=
  ∀ (p : Params) (n u : Nat), SymvalConformsAt p n u →
    |Real.sqrt (((f32Rat (symvalOf p (2 ^ n) u).1 : ℚ) : ℝ) ^ 2 + ((f32Rat (symvalOf p (2 ^ n) u).2 : ℚ) : ℝ) ^ 2) - 1|
      ≤ 2 * p.symTol

/-- R110 and R111, CFG: an order 2^n with 1 ≤ n ≤ LOGN_MAX configures the block, any other order leaves it unconfigured
with CFGERR, MACC and DACC are cleared on both outcomes, and a reserved bit makes it ILLEGAL with nothing written. -/
def Obligations.CfgRule : Prop :=
  (∀ (s : State) (nreq : BitVec 16) (gray : Bool) (n : Nat), 1 ≤ n → n ≤ s.params.lognMax → nreq.toInt = 2 ^ n →
    exec (.cfg nreq gray) s = .next (configured s n gray)) ∧
  WordsOf 1 17 (fun c d s =>
    (∀ n, 1 ≤ n → n ≤ s.params.lognMax → signed16 (slice c 15 0) = 2 ^ n →
      runBeat ⟨c, d⟩ s = .next (configured s n (decide (slice c 16 16 = 1)))) ∧
    ((∀ n, 1 ≤ n → n ≤ s.params.lognMax → signed16 (slice c 15 0) ≠ 2 ^ n) →
      runBeat ⟨c, d⟩ s = .next (failed (deconfigured s) 1 c)))

/-! ### Modulator -/

/-- R130, PUSH: the bits join MACC, each complete group of n bits becomes one symbol, in order, and the rest stays in MACC;
ILLEGAL, NOTCFG and OVERFLOW as the rule says. -/
def Obligations.PushRule : Prop :=
  (∀ (s : State) (v : BitVec 16) (w : BitVec 5), s.Inv → s.cfg.valid = true → FitsWidth v w →
    ∃ xs, SymbolsOf s (s.macc ++ intToBits v.toNat (usedWidth v w)) xs ∧
      exec (.push v w) s = .next (answered
        { s with
          sout := s.sout ++ xs
          macc := (s.macc ++ intToBits v.toNat (usedWidth v w)).drop
            ((s.macc.length + usedWidth v w) / s.cfg.logn.toNat * s.cfg.logn.toNat) }
        ((s.macc.length + usedWidth v w) % s.cfg.logn.toNat * 2 ^ 8 +
          (s.macc.length + usedWidth v w) / s.cfg.logn.toNat))) ∧
  WordsOf 2 21 (fun c d s =>
    (16 < slice c 20 16 → runBeat ⟨c, d⟩ s = .next (failed s 6 c)) ∧
    (slice c 20 16 ≤ 16 → s.cfg.valid = false → runBeat ⟨c, d⟩ s = .next (failed s 3 c)) ∧
    (slice c 20 16 ≤ 16 → s.cfg.valid = true → slice c 20 16 ≠ 0 → 2 ^ slice c 20 16 ≤ slice c 15 0 →
      runBeat ⟨c, d⟩ s = .next (failed s 2 c)) ∧
    (slice c 20 16 ≤ 16 →
      runBeat ⟨c, d⟩ s = exec (.push (BitVec.ofNat 16 (slice c 15 0)) (BitVec.ofNat 5 (slice c 20 16))) s))

/-- R131, MEND: the incomplete group is dropped and reported, with or without a configuration. -/
def Obligations.MendRule : Prop :=
  (∀ s : State, exec .mend s = .next (answered { s with macc := [] }
    (bitsToInt s.macc % 2 ^ 13 * 2 ^ 16 + s.macc.length % 2 ^ 4))) ∧
  WordsOf 3 0 (fun c d s => runBeat ⟨c, d⟩ s = exec .mend s)

/-- R132 and R133: from a configured state with MACC empty, PUSH commands that do not fail and a MEND append to SOUT exactly
the symbols of the complete groups of all their bits together, and MEND reports the len(b) mod n bits it drops. -/
def Obligations.PushesEndedByMendAreGen : Prop :=
  ∀ (s : State) (ps : List (BitVec 16 × BitVec 5)) (rest : List HostInput),
    s.Inv → s.cfg.valid = true → s.macc = [] → (∀ p ∈ ps, FitsWidth p.1 p.2) →
    s.inputs = ps.map (fun p => HostInput.beat (encode (.push p.1 p.2))) ++ HostInput.beat (encode .mend) :: rest →
    ∃ xs rs, SymbolsOf s (ps.flatMap (fun p => intToBits p.1.toNat (usedWidth p.1 p.2))) xs ∧
      rs.length = ps.length ∧ (∀ r ∈ rs, r.rstatus = 0#4) ∧
      steps (ps.length + 1) s = .next (answered
        { s with sout := s.sout ++ xs, macc := [], inputs := rest, responses := s.responses ++ rs }
        (let b := ps.flatMap (fun p => intToBits p.1.toNat (usedWidth p.1 p.2))
         bitsToInt (b.drop (b.length / s.cfg.logn.toNat * s.cfg.logn.toNat)) * 2 ^ 16 + b.length % s.cfg.logn.toNat))

/-! ### Slicer -/

/-- R144's classification of a binary32 pattern, and the value of a finite one. -/
def Obligations.Binary32Classes : Prop :=
  ∀ p : F32,
    (f32IsInf p = true ↔ slice p 30 23 = 0xFF ∧ slice p 22 0 = 0) ∧
    (f32IsNaN p = true ↔ slice p 30 23 = 0xFF ∧ slice p 22 0 ≠ 0) ∧
    (f32IsZero p = true ↔ slice p 30 0 = 0) ∧
    (1 ≤ slice p 30 23 → slice p 30 23 < 0xFF →
      f32Rat p = (-1) ^ slice p 31 31 * 2 ^ ((slice p 30 23 : ℤ) - 127) * (1 + (slice p 22 0 : ℚ) / 2 ^ 23)) ∧
    (slice p 30 23 = 0 → f32Rat p = (-1) ^ slice p 31 31 * 2 ^ (-126 : ℤ) * ((slice p 22 0 : ℚ) / 2 ^ 23)) ∧
    (f32Finite p = true → (f32Rat p = 0 ↔ f32IsZero p = true))

/-- R141: the model's exact integer computation is `round_half_even(t) mod N`, t = (arg(x + i·y) − ROT·π/N)/(2π/N). -/
def Obligations.SliceRefIsRoundedPhase : Prop :=
  ∀ (n : Nat) (rot : Bool) (re im : F32) (t : ℝ) (r : ℤ), 1 ≤ n → f32Finite re = true → f32Finite im = true →
    ¬ (f32IsZero re = true ∧ f32IsZero im = true) → IsSlicerPosition n rot re im t → IsRoundHalfEven t r →
    (sliceRef (2 ^ n) rot re im : ℤ) = r % 2 ^ n

/-- R141 (b): sliceRef is the index that maximises x·cos(PH[k]·π/N) + y·sin(PH[k]·π/N), the even one at a tie. -/
def Obligations.SliceRefMaximisesProjection : Prop :=
  ∀ (n : Nat) (re im : F32) (j : Nat), 1 ≤ n → f32Finite re = true → f32Finite im = true →
    ¬ (f32IsZero re = true ∧ f32IsZero im = true) → j < 2 ^ n →
    let rot := decide (2 ^ n ≠ 2)
    let along := fun k : Nat =>
      ((f32Rat re : ℚ) : ℝ) * Real.cos ((2 * k + rot.toNat : ℕ) * Real.pi / 2 ^ n) +
      ((f32Rat im : ℚ) : ℝ) * Real.sin ((2 * k + rot.toNat : ℕ) * Real.pi / 2 ^ n)
    sliceRef (2 ^ n) rot re im < 2 ^ n ∧ along j ≤ along (sliceRef (2 ^ n) rot re im) ∧
    (along j = along (sliceRef (2 ^ n) rot re im) → j ≠ sliceRef (2 ^ n) rot re im → sliceRef (2 ^ n) rot re im % 2 = 0)

/-- R141: the magnitude of a sample does not matter: scaling it by a positive real leaves the decision unchanged. -/
def Obligations.SliceRefIgnoresMagnitude : Prop :=
  ∀ (n : Nat) (rot : Bool) (re im re' im' : F32) (c : ℚ), 1 ≤ n → 0 < c →
    f32Finite re = true → f32Finite im = true → f32Finite re' = true → f32Finite im' = true →
    ¬ (f32IsZero re = true ∧ f32IsZero im = true) → f32Rat re' = c * f32Rat re → f32Rat im' = c * f32Rat im →
    sliceRef (2 ^ n) rot re' im' = sliceRef (2 ^ n) rot re im

/-- R142: a model instance with the default SLICEDEC conforms for every SLICE_TOL, and so for SLICE_TOL = 0. -/
def Obligations.ReferenceSlicedecConforms : Prop :=
  ∀ (p : Params) (n : Nat) (rot : Bool) (re im : F32), p.slicedec = [] → 1 ≤ n → f32Finite re = true → f32Finite im = true →
    ¬ (f32IsZero re = true ∧ f32IsZero im = true) → SlicedecConformsAt p n rot re im

/-- R140, SLICE: a finite sample's index is SLICEDEC's, a zero sample's is some index in 0..N−1 (R143, a free value: the
statement says nothing of which); the bits of ORD[k] join DACC and every 8 of them become a byte; ILLEGAL, NOTCFG and
BADSAMPLE as the rule says. -/
def Obligations.SliceRule : Prop :=
  (∀ (s : State) (re im : F32), s.Inv → s.cfg.valid = true → f32Finite re = true → f32Finite im = true →
    (¬ (f32IsZero re = true ∧ f32IsZero im = true) →
      ∃ v, s.ord[slicedecOf s.params s.cfg.order.toNat s.cfg.rot re im]? = some v ∧
        exec (.slice re im) s = .next (sliced s (slicedecOf s.params s.cfg.order.toNat s.cfg.rot re im) v)) ∧
    (f32IsZero re = true → f32IsZero im = true →
      ∃ k v, k < s.cfg.order.toNat ∧ s.ord[k]? = some v ∧
        exec (.slice re im) s = .next (sliced { s with draws := s.draws + 1 } k v))) ∧
  WordsOf 4 0 (fun c d s =>
    (s.cfg.valid = false → runBeat ⟨c, d⟩ s = .next (failed s 3 c)) ∧
    (s.cfg.valid = true → ¬ (f32Finite (BitVec.ofNat 32 d.toNat) = true ∧ f32Finite (BitVec.ofNat 32 (d.toNat / 2 ^ 32)) = true) →
      runBeat ⟨c, d⟩ s = .next (failed s 5 c)) ∧
    runBeat ⟨c, d⟩ s = exec (.slice (BitVec.ofNat 32 d.toNat) (BitVec.ofNat 32 (d.toNat / 2 ^ 32))) s)

/-- R146, DEND: the incomplete byte is reported, dropped under DROP and padded with zeros and emitted under ZPAD, with or
without a configuration. -/
def Obligations.DendRule : Prop :=
  (∀ s : State, s.params.decTail = .drop ∨ s.dacc = [] → exec .dend s = .next (answered { s with dacc := [] }
    (bitsToInt s.dacc % 2 ^ 7 * 2 ^ 16 + s.dacc.length % 2 ^ 4))) ∧
  (∀ s : State, s.params.decTail = .zpad → s.dacc ≠ [] → exec .dend s = .next (answered
    { s with
      dacc := []
      bout := s.bout ++ [BitVec.ofNat 8 (bitsToInt (s.dacc ++ List.replicate (8 - s.dacc.length) false))] }
    (bitsToInt s.dacc % 2 ^ 7 * 2 ^ 16 + 2 ^ 4 + s.dacc.length % 2 ^ 4))) ∧
  WordsOf 5 0 (fun c d s => runBeat ⟨c, d⟩ s = exec .dend s)

/-- R145: from a configured state with DACC empty, SLICE commands of finite samples and a DEND append to BOUT exactly the
bytes of the concatenated patterns ORD[k_j], and under ZPAD one more byte where the bits do not fill one. -/
def Obligations.SlicesEndedByDendAreSlicer : Prop :=
  ∀ (s : State) (ds : List (F32 × F32)) (rest : List HostInput),
    s.Inv → s.cfg.valid = true → s.dacc = [] → (∀ d ∈ ds, f32Finite d.1 = true ∧ f32Finite d.2 = true) →
    s.inputs = ds.map (fun d => HostInput.beat (encode (.slice d.1 d.2))) ++ HostInput.beat (encode .dend) :: rest →
    ∃ (ks : List Nat) (vs : List Nat) (t : State), ks.length = ds.length ∧ vs.length = ds.length ∧
      (∀ (j : Nat) (d : F32 × F32), ds[j]? = some d → ∃ k v, ks[j]? = some k ∧ vs[j]? = some v ∧ s.ord[k]? = some v ∧
        (¬ (f32IsZero d.1 = true ∧ f32IsZero d.2 = true) → k = slicedecOf s.params s.cfg.order.toNat s.cfg.rot d.1 d.2)) ∧
      steps (ds.length + 1) s = .next t ∧
      (let b := vs.flatMap (fun v => intToBits v s.cfg.logn.toNat)
       t.bout = s.bout ++ bytesOf b ++
         (if s.params.decTail = .zpad ∧ b.length % 8 ≠ 0 then
            [BitVec.ofNat 8 (bitsToInt (b.drop (b.length / 8 * 8) ++ List.replicate (8 - b.length % 8) false))]
          else [])) ∧
      t.dacc = [] ∧ t.macc = s.macc ∧ t.sout = s.sout ∧ t.cfg = s.cfg ∧ t.inputs = rest ∧ t.status = s.status

/-- R147, the index: a conforming SYMVAL with SYM_TOL ≤ 2^−20 and a conforming SLICEDEC with SLICE_TOL ≤ 1/4 slice the
sample of index k back to k, for every configuration and every k; conformance is asked at that sample only. -/
def Obligations.NoiselessSymbolSlicesBack : Prop :=
  ∀ (s : State) (k u : Nat), s.Inv → s.cfg.valid = true → k < s.cfg.order.toNat → s.ph[k]? = some u →
    s.params.symTol ≤ 1 / 2 ^ 20 → s.params.sliceTol ≤ 1 / 4 → SymvalConformsAt s.params s.cfg.logn.toNat u →
    SlicedecConformsAt s.params s.cfg.logn.toNat s.cfg.rot
      (symvalOf s.params s.cfg.order.toNat u).1 (symvalOf s.params s.cfg.order.toNat u).2 →
    ∃ v, s.ord[k]? = some v ∧
      exec (.slice (symvalOf s.params s.cfg.order.toNat u).1 (symvalOf s.params s.cfg.order.toNat u).2) s =
        .next (sliced s k v)

/-- R147, the bits: slicing the symbols of a bit vector, without perturbation, returns its first n·floor(len(b)/n) bits. -/
def Obligations.NoiselessRoundTripReturnsBits : Prop :=
  ∀ (s : State) (b : Bits) (xs : List Sample), s.Inv → s.cfg.valid = true → SymbolsOf s b xs →
    s.params.symTol ≤ 1 / 2 ^ 20 → s.params.sliceTol ≤ 1 / 4 →
    (∀ u ∈ s.ph, SymvalConformsAt s.params s.cfg.logn.toNat u ∧
      SlicedecConformsAt s.params s.cfg.logn.toNat s.cfg.rot
        (symvalOf s.params s.cfg.order.toNat u).1 (symvalOf s.params s.cfg.order.toNat u).2) →
    xs.flatMap (fun x => intToBits (s.ord.getD (slicedecOf s.params s.cfg.order.toNat s.cfg.rot x.re x.im) 0) s.cfg.logn.toNat)
      = b.take (b.length / s.cfg.logn.toNat * s.cfg.logn.toNat)

/-- The encode path and the decode path of R82, end to end and through the symbol file of R54: the bytes pushed, the emitted
samples written to a file, the file sliced. The decoded bytes are those of the pushed bits' complete groups, and under ZPAD
one more where these do not fill a byte; they are the bytes pushed where n divides their bits (R132, R145, R147). -/
def Obligations.EncodedBytesDecodeBack : Prop :=
  ∀ (s : State) (bs : List Byte), s.Inv → s.cfg.valid = true → s.macc = [] → s.dacc = [] →
    s.params.symTol ≤ 1 / 2 ^ 20 → s.params.sliceTol ≤ 1 / 4 →
    (∀ u ∈ s.ph, SymvalConformsAt s.params s.cfg.logn.toNat u ∧
      SlicedecConformsAt s.params s.cfg.logn.toNat s.cfg.rot
        (symvalOf s.params s.cfg.order.toNat u).1 (symvalOf s.params s.cfg.order.toNat u).2) →
    s.inputs = bs.map (fun b => HostInput.beat (encode (.push (b.setWidth 16) 8#5))) ++ [HostInput.beat (encode .mend)] →
    ∃ (t u : State) (xs : List Sample) (ins : List HostInput), steps (bs.length + 1) s = .next t ∧ t.sout = s.sout ++ xs ∧
      ins = xs.map (fun x => HostInput.beat (encode (.slice x.re x.im))) ++ [HostInput.beat (encode .dend)] ∧
      s.inputs = encodeFile bs ∧ decodeFile (symbolFile xs) = some ins ∧
      steps (xs.length + 1) { t with inputs := ins } = .next u ∧
      (let b := (bitStream bs).take (8 * bs.length / s.cfg.logn.toNat * s.cfg.logn.toNat)
       u.bout = s.bout ++ bs.take (b.length / 8) ++
         (if s.params.decTail = .zpad ∧ b.length % 8 ≠ 0 then
            [BitVec.ofNat 8 (bitsToInt (b.drop (b.length / 8 * 8) ++ List.replicate (8 - b.length % 8) false))]
          else [])) ∧
      (s.cfg.logn.toNat ∣ 8 * bs.length → u.bout = s.bout ++ bs) ∧ u.dacc = []

/-! ### Readback and control -/

/-- R160, RDTAB: the entry it answers for each table, NOTCFG, RANGE and ILLEGAL. -/
def Obligations.RdtabRule : Prop :=
  (∀ (s : State) (idx : BitVec 16), s.Inv → s.cfg.valid = true → idx.toNat < s.cfg.order.toNat →
    ∃ o v u, s.ord[idx.toNat]? = some o ∧ s.inv[idx.toNat]? = some v ∧ s.ph[idx.toNat]? = some u ∧
      exec (.rdtab .ord idx) s = .next (answered s o) ∧
      exec (.rdtab .inv idx) s = .next (answered s v) ∧
      exec (.rdtab .ph idx) s = .next (answered s u) ∧
      exec (.rdtab .sym idx) s = .next (answered s
        ((symvalOf s.params s.cfg.order.toNat u).2.toNat * 2 ^ 32 + (symvalOf s.params s.cfg.order.toNat u).1.toNat))) ∧
  WordsOf 6 18 (fun c d s =>
    (s.cfg.valid = false → runBeat ⟨c, d⟩ s = .next (failed s 3 c)) ∧
    (s.cfg.valid = true → s.cfg.order.toNat ≤ slice c 15 0 → runBeat ⟨c, d⟩ s = .next (failed s 4 c)) ∧
    (∀ tab, (fieldOfTable tab).toNat = slice c 17 16 →
      runBeat ⟨c, d⟩ s = exec (.rdtab tab (BitVec.ofNat 16 (slice c 15 0))) s))

/-- R161 with the registers R22 to R27, RDREG: each register's word field by field, RANGE for 5 to 15, ILLEGAL. -/
def Obligations.RdregRule : Prop :=
  (∀ s : State,
    exec (.rdreg 0#4) s = .next (answered s (s.cfg.order.toNat * 2 ^ 16 + s.cfg.logn.toNat * 2 ^ 4 +
      s.cfg.rot.toNat * 4 + s.cfg.gray.toNat * 2 + s.cfg.valid.toNat)) ∧
    exec (.rdreg 1#4) s = .next (answered s (s.dacc.length % 8 * 2 ^ 12 + s.macc.length % 16 * 2 ^ 8 +
      s.status.lastErr.toNat * 2 ^ 4 + s.status.err.toNat)) ∧
    exec (.rdreg 2#4) s = .next (answered s (bitsToInt s.macc % 2 ^ 32)) ∧
    exec (.rdreg 3#4) s = .next (answered s (bitsToInt s.dacc % 2 ^ 32)) ∧
    exec (.rdreg 4#4) s = .next (answered s ((if s.params.decTail = .zpad then 2 ^ 4 else 0) + s.params.lognMax % 16))) ∧
  WordsOf 7 4 (fun c d s =>
    (5 ≤ slice c 3 0 → runBeat ⟨c, d⟩ s = .next (failed s 4 c)) ∧
    runBeat ⟨c, d⟩ s = exec (.rdreg (BitVec.ofNat 4 (slice c 3 0))) s)

/-- R162, CLRERR. -/
def Obligations.ClrerrRule : Prop :=
  (∀ s : State, exec .clrerr s = .next (answered { s with status := ⟨false, 0#4⟩ } 0)) ∧
  WordsOf 8 0 (fun c d s => runBeat ⟨c, d⟩ s = exec .clrerr s)

/-- R163, NOP. -/
def Obligations.NopRule : Prop :=
  (∀ s : State, exec .nop s = .next (answered s 0)) ∧
  WordsOf 0 0 (fun c d s => runBeat ⟨c, d⟩ s = exec .nop s)

/-! ### Errors -/

/-- R34 and R170: every command produces exactly one response, its code is 0 to 6; a failed one carries zext_64(C) and sets
ERR and LASTERR, and a successful one leaves them, but for CLRERR. -/
def Obligations.EveryCommandRespondsOnce : Prop :=
  ∀ (s t : State) (b : Beat), runBeat b s = .next t →
    ∃ r, t.responses = s.responses ++ [r] ∧ r.rstatus.toNat ≤ 6 ∧
      (r.rstatus ≠ 0#4 → r.rdata = BitVec.ofNat 64 b.cmd.toNat ∧ t.status = ⟨true, r.rstatus⟩) ∧
      (r.rstatus = 0#4 → t.status = s.status ∨ (decode b = .ok .clrerr ∧ t.status = ⟨false, 0#4⟩))

/-- R171: a failed command writes ERR, LASTERR and its response and nothing else, except the writes CFG makes before it
raises CFGERR. -/
def Obligations.FailedCommandWritesNothingElse : Prop :=
  ∀ (s t : State) (b : Beat) (r : Response), runBeat b s = .next t → t.responses = s.responses ++ [r] → r.rstatus ≠ 0#4 →
    t = failed s r.rstatus.toNat b.cmd ∨
    (slice b.cmd 31 28 = 1 ∧ r.rstatus = 1#4 ∧ t = failed (deconfigured s) 1 b.cmd)

/-- R172: every command of a state that meets the invariant is answered, and its code is that of the first check that fails,
in the order ILLEGAL, NOTCFG, then the command's own operand check. -/
def Obligations.FirstFailingCheckIsReported : Prop :=
  ∀ (s : State) (b : Beat), s.Inv →
    ∃ t d, runBeat b s = .next t ∧ t.responses = s.responses ++ [⟨BitVec.ofNat 4 (verdict s b), d⟩]

/-- R175: only CLRERR or reset clears the error state. -/
def Obligations.ErrorStaysUntilCleared : Prop :=
  ∀ (s t : State), step s = .next t → s.status.err = true → t.status.err = false →
    ∃ rest, (∃ b, s.inputs = .beat b :: rest ∧ b.cmd = 0x80000000#32) ∨ s.inputs = .reset :: rest ∨
      ∃ b, s.inputs = .resetDuring b :: rest

/-! ### Whole machine -/

/-- R38: the reset values, right after power-on and after a RESET in any state, which leaves PARAM as it was. -/
def Obligations.ResetValues : Prop :=
  ∀ s t : State, (t = State.reset ∨ t = s.applyReset) →
    t.cfg = ⟨false, false, false, 0#4, 0#16⟩ ∧ t.status = ⟨false, 0#4⟩ ∧
    t.status.word t.macc.length t.dacc.length = 0#32 ∧ t.macc = [] ∧ t.dacc = [] ∧ t.ord = [] ∧ t.inv = [] ∧ t.ph = [] ∧
    t.sout = [] ∧ t.bout = [] ∧ t.responses = [] ∧ (t = s.applyReset → t.params = s.params)

/-- R190: RESET puts every piece of state at its reset value and leaves PARAM; what was delivered before stays with the host
and nothing is produced. A command in delivery when RESET is asserted either completes wholly before it or is not executed
at all (which is a free value: the statement allows both). -/
def Obligations.ResetInput : Prop :=
  ∀ (s : State) (rest : List HostInput),
    (s.inputs = .reset :: rest → step s = .next
      { State.reset with
        params := s.params, draws := s.draws, inputs := rest
        taken := ⟨s.taken.responses ++ s.responses, s.taken.samples ++ s.sout, s.taken.bytes ++ s.bout⟩ }) ∧
    (∀ b, s.inputs = .resetDuring b :: rest → s.Inv →
      ∃ t, step s = .next t.applyReset ∧
        (t = { s with inputs := rest, draws := s.draws + 1 } ∨
         runBeat b { s with inputs := rest, draws := s.draws + 1 } = .next t))

/-- The invariant holds at reset. -/
def Obligations.ResetMeetsInvariant : Prop := State.reset.Inv

/-- Every step keeps the invariant: the configuration stays all zero or that of a legal order with the tables CFG builds,
MACC and DACC stay short, ERR and LASTERR agree (R22, R23, R28 to R30, R37). -/
def Obligations.StepKeepsInvariant : Prop :=
  ∀ s t : State, s.Inv → step s = .next t → t.Inv

/-- The block never stops: from a state that meets the invariant every step answers a next state, whatever the host does
(R174: an error does not stop the block, whatever ERR holds). -/
def Obligations.StepNeverStops : Prop :=
  ∀ s : State, s.Inv → ∃ t, step s = .next t

/-- What the invariant says of a configured block, in the spec's own terms: N = 2^LOGN in 2..2^LOGN_MAX and ROT = (N ≠ 2)
(R22), ORD a permutation of 0..N−1 (R28), INV its inverse on both sides (R29), PH[k] = 2·k + ROT (R30), len(MACC) < n
(R37). -/
def Obligations.ConfiguredTablesAreAsSpecified : Prop :=
  ∀ s : State, s.Inv → s.cfg.valid = true →
    1 ≤ s.cfg.logn.toNat ∧ s.cfg.logn.toNat ≤ s.params.lognMax ∧ s.cfg.order.toNat = 2 ^ s.cfg.logn.toNat ∧
    s.cfg.rot = decide (s.cfg.order.toNat ≠ 2) ∧ s.macc.length < s.cfg.logn.toNat ∧
    s.ord.Perm (List.range s.cfg.order.toNat) ∧ s.inv.length = s.cfg.order.toNat ∧
    s.ph.length = s.cfg.order.toNat ∧
    ∀ k, k < s.cfg.order.toNat →
      (∃ v, s.ord[k]? = some v ∧ s.inv[v]? = some k) ∧ (∃ v, s.inv[k]? = some v ∧ s.ord[v]? = some k) ∧
      s.ph[k]? = some (2 * k + s.cfg.rot.toNat)

/-- R22, R28 to R30: the configuration register and the tables are written only by CFG and by reset. -/
def Obligations.OnlyCfgAndResetWriteTheConfiguration : Prop :=
  ∀ s t : State, step s = .next t →
    (t.cfg ≠ s.cfg ∨ t.ord ≠ s.ord ∨ t.inv ≠ s.inv ∨ t.ph ≠ s.ph) →
    ∃ rest, (∃ b, s.inputs = .beat b :: rest ∧ slice b.cmd 31 28 = 1) ∨ s.inputs = .reset :: rest ∨
      ∃ b, s.inputs = .resetDuring b :: rest

/-- The frame of the reading commands NOP, I2B, RDTAB and RDREG (R59): whatever they answer, only the responses and, where
they fail, STATUS change; and a successful one issued twice in a row gives the same response twice. -/
def Obligations.ReadersChangeNothing : Prop :=
  ∀ (i : Instr) (s t : State),
    (i = .nop ∨ (∃ v w, i = .i2b v w) ∨ (∃ tab idx, i = .rdtab tab idx) ∨ ∃ rn, i = .rdreg rn) → exec i s = .next t →
    t = { s with status := t.status, responses := t.responses } ∧
    ∀ r, t.responses = s.responses ++ [r] → r.rstatus = 0#4 →
      t.status = s.status ∧ exec i t = .next { s with responses := s.responses ++ [r, r] }

/-- The frame of PUSH and MEND (R130, R131, R195): nothing changes but MACC, STATUS on a failure, the responses and, by
appending, SOUT; DACC and BOUT never do. -/
def Obligations.ModulatorFrame : Prop :=
  ∀ (i : Instr) (s t : State), ((∃ v w, i = .push v w) ∨ i = .mend) → exec i s = .next t →
    ∃ xs, t = { s with
      macc := t.macc, status := t.status, responses := t.responses, sout := s.sout ++ xs } ∧
      (i = .mend → xs = [] ∧ t.status = s.status)

/-- The frame of SLICE and DEND (R140, R146, R195): nothing changes but DACC, STATUS on a failure, the count of draws, the
responses and, by appending, BOUT; MACC and SOUT never do. -/
def Obligations.SlicerFrame : Prop :=
  ∀ (i : Instr) (s t : State), ((∃ re im, i = .slice re im) ∨ i = .dend) → exec i s = .next t →
    ∃ bs, t = { s with
      dacc := t.dacc, status := t.status, responses := t.responses, draws := t.draws, bout := s.bout ++ bs } ∧
      bs.length ≤ (s.dacc.length + 15) / 8 ∧ (i = .dend → bs.length ≤ 1 ∧ t.status = s.status ∧ t.draws = s.draws)

/-- R195: a modulator command and a slicer command may be exchanged: the two orders leave the same state, but for the order
of the two responses and, where both commands fail, LASTERR. -/
def Obligations.ModulatorAndSlicerInterleave : Prop :=
  ∀ (i j : Instr) (s : State), s.Inv → ((∃ v w, i = .push v w) ∨ i = .mend) → ((∃ re im, j = .slice re im) ∨ j = .dend) →
    ∃ (a b t u : State) (ri rj : Response),
      exec i s = .next a ∧ exec j a = .next t ∧ exec j s = .next b ∧ exec i b = .next u ∧
      t.responses = s.responses ++ [ri, rj] ∧ u.responses = s.responses ++ [rj, ri] ∧
      u = { t with status := u.status, responses := u.responses } ∧
      (ri.rstatus = 0#4 ∨ rj.rstatus = 0#4 → u.status = t.status)

/-- The frame of CFG and CLRERR (R110, R162): CFG changes CFG, the tables, MACC, DACC, the responses and, on a failure,
STATUS, and emits nothing; CLRERR changes STATUS and the responses. -/
def Obligations.CfgAndClrerrFrame : Prop :=
  (∀ (nreq : BitVec 16) (gray : Bool) (s t : State), exec (.cfg nreq gray) s = .next t →
    t = { s with
      cfg := t.cfg, ord := t.ord, inv := t.inv, ph := t.ph, macc := [], dacc := []
      status := t.status, responses := t.responses }) ∧
  (∀ s t : State, exec .clrerr s = .next t → t = { s with status := t.status, responses := t.responses })

/-- R191: before a successful CFG, PUSH, SLICE and RDTAB fail with NOTCFG, and NOP, MEND, DEND, RDREG (of a register), CLRERR
and I2B (of a value that fits) succeed. -/
def Obligations.WhatWorksBeforeCfg : Prop :=
  ∀ s : State, s.cfg.valid = false →
    (∀ v w, w.toNat ≤ 16 → exec (.push v w) s = .next (failed s 3 (encode (.push v w)).cmd)) ∧
    (∀ re im, exec (.slice re im) s = .next (failed s 3 (encode (.slice re im)).cmd)) ∧
    (∀ tab idx, exec (.rdtab tab idx) s = .next (failed s 3 (encode (.rdtab tab idx)).cmd)) ∧
    ∀ i : Instr, (i = .nop ∨ i = .mend ∨ i = .dend ∨ i = .clrerr ∨ (∃ rn, rn.toNat < 5 ∧ i = .rdreg rn) ∨
        ∃ v w, FitsWidth v w ∧ i = .i2b v w) →
      ∃ t d, exec i s = .next t ∧ t.responses = s.responses ++ [⟨0#4, d⟩]

/-! ### The host's file formats, and the parameters -/

/-- R54: the symbol file has 8 bytes a sample and nothing else, file byte 8j+i being bits 8i+7:8i of the sample word of R53
(the real part in its low half, so in the first four bytes, least significant byte first); a file of whole records is read
back as the sample words it was written from, and every such file is the one written from the words read from it. -/
def Obligations.SymbolFileLayout : Prop :=
  (∀ l : List Sample,
    (symbolFile l).length = 8 * l.length ∧
    (∀ (j i : Nat) (x : Sample), l[j]? = some x → i < 8 →
      (symbolFile l)[8 * j + i]? = some (BitVec.ofNat 8 ((x.im.toNat * 2 ^ 32 + x.re.toNat) / 2 ^ (8 * i)))) ∧
    readSymbolFile (symbolFile l) = some (l.map (fun x => x.im ++ x.re))) ∧
  (∀ file : List Byte, 8 ∣ file.length →
    ∃ l : List Sample, l.length = file.length / 8 ∧ readSymbolFile file = some (l.map (fun x => x.im ++ x.re)) ∧
      symbolFile l = file)

/-- R55: a byte is the bit vector of its 8 bits, bit 7 first, a vector of 8 bits becomes the byte of its value, and a byte
file is the stream of the bits of its bytes in order. -/
def Obligations.ByteStreamBitOrder : Prop :=
  (∀ b : Byte, byteBits b = intToBits b.toNat 8 ∧ (byteBits b).length = 8 ∧ byteOf (byteBits b) = b ∧
    ∀ i, i < 8 → (byteBits b)[i]? = some (b.getLsbD (7 - i))) ∧
  (∀ v : Bits, v.length = 8 → (byteOf v).toNat = bitsToInt v ∧ byteBits (byteOf v) = v) ∧
  (∀ bs : List Byte, (bitStream bs).length = 8 * bs.length ∧ bytesOf (bitStream bs) = bs ∧
    ∀ (j i : Nat) (b : Byte), bs[j]? = some b → i < 8 → (bitStream bs)[8 * j + i]? = some (b.getLsbD (7 - i)))

/-- The parameters of R8 are fixed for the life of the instance, no step writing them, so an instance that conforms does so
for its life; and the one State.reset has conforms (with the model's own SYM_TOL = 2^−24 and SLICE_TOL = 0, log entry 2). -/
def Obligations.ParametersConformForLife : Prop :=
  (∀ s t : State, step s = .next t → t.params = s.params) ∧
  (∀ s t : State, s.Conforming → step s = .next t → t.Conforming) ∧
  State.reset.Conforming
end

