-- ==== Sys2Proof/Laws/State.lean ====
section
/-! SUPPORT. What each named update does to each field of the state: one lemma per field per update, true by unfolding. -/

namespace Sys2Proof.Machine

variable (s : State)

@[simp] theorem State.respond_params (st : BitVec 4) (d : DWord) : (s.respond st d).params = s.params := rfl
@[simp] theorem State.respond_cfg (st : BitVec 4) (d : DWord) : (s.respond st d).cfg = s.cfg := rfl
@[simp] theorem State.respond_status (st : BitVec 4) (d : DWord) : (s.respond st d).status = s.status := rfl
@[simp] theorem State.respond_macc (st : BitVec 4) (d : DWord) : (s.respond st d).macc = s.macc := rfl
@[simp] theorem State.respond_dacc (st : BitVec 4) (d : DWord) : (s.respond st d).dacc = s.dacc := rfl
@[simp] theorem State.respond_ord (st : BitVec 4) (d : DWord) : (s.respond st d).ord = s.ord := rfl
@[simp] theorem State.respond_inv (st : BitVec 4) (d : DWord) : (s.respond st d).inv = s.inv := rfl
@[simp] theorem State.respond_ph (st : BitVec 4) (d : DWord) : (s.respond st d).ph = s.ph := rfl
@[simp] theorem State.respond_sout (st : BitVec 4) (d : DWord) : (s.respond st d).sout = s.sout := rfl
@[simp] theorem State.respond_bout (st : BitVec 4) (d : DWord) : (s.respond st d).bout = s.bout := rfl
@[simp] theorem State.respond_responses (st : BitVec 4) (d : DWord) : (s.respond st d).responses = s.responses ++ [⟨st, d⟩] := rfl
@[simp] theorem State.respond_draws (st : BitVec 4) (d : DWord) : (s.respond st d).draws = s.draws := rfl
@[simp] theorem State.respond_inputs (st : BitVec 4) (d : DWord) : (s.respond st d).inputs = s.inputs := rfl
@[simp] theorem State.respond_taken (st : BitVec 4) (d : DWord) : (s.respond st d).taken = s.taken := rfl

@[simp] theorem State.ok_params (d : DWord) : (s.ok d).params = s.params := rfl
@[simp] theorem State.ok_cfg (d : DWord) : (s.ok d).cfg = s.cfg := rfl
@[simp] theorem State.ok_status (d : DWord) : (s.ok d).status = s.status := rfl
@[simp] theorem State.ok_macc (d : DWord) : (s.ok d).macc = s.macc := rfl
@[simp] theorem State.ok_dacc (d : DWord) : (s.ok d).dacc = s.dacc := rfl
@[simp] theorem State.ok_ord (d : DWord) : (s.ok d).ord = s.ord := rfl
@[simp] theorem State.ok_inv (d : DWord) : (s.ok d).inv = s.inv := rfl
@[simp] theorem State.ok_ph (d : DWord) : (s.ok d).ph = s.ph := rfl
@[simp] theorem State.ok_sout (d : DWord) : (s.ok d).sout = s.sout := rfl
@[simp] theorem State.ok_bout (d : DWord) : (s.ok d).bout = s.bout := rfl
@[simp] theorem State.ok_responses (d : DWord) : (s.ok d).responses = s.responses ++ [⟨okCode, d⟩] := rfl
@[simp] theorem State.ok_draws (d : DWord) : (s.ok d).draws = s.draws := rfl
@[simp] theorem State.ok_inputs (d : DWord) : (s.ok d).inputs = s.inputs := rfl
@[simp] theorem State.ok_taken (d : DWord) : (s.ok d).taken = s.taken := rfl

@[simp] theorem State.raise_params (e : Err) (c : Word) : (s.raise e c).params = s.params := rfl
@[simp] theorem State.raise_cfg (e : Err) (c : Word) : (s.raise e c).cfg = s.cfg := rfl
@[simp] theorem State.raise_status (e : Err) (c : Word) : (s.raise e c).status = s.status.afterError e := rfl
@[simp] theorem State.raise_macc (e : Err) (c : Word) : (s.raise e c).macc = s.macc := rfl
@[simp] theorem State.raise_dacc (e : Err) (c : Word) : (s.raise e c).dacc = s.dacc := rfl
@[simp] theorem State.raise_ord (e : Err) (c : Word) : (s.raise e c).ord = s.ord := rfl
@[simp] theorem State.raise_inv (e : Err) (c : Word) : (s.raise e c).inv = s.inv := rfl
@[simp] theorem State.raise_ph (e : Err) (c : Word) : (s.raise e c).ph = s.ph := rfl
@[simp] theorem State.raise_sout (e : Err) (c : Word) : (s.raise e c).sout = s.sout := rfl
@[simp] theorem State.raise_bout (e : Err) (c : Word) : (s.raise e c).bout = s.bout := rfl
@[simp] theorem State.raise_responses (e : Err) (c : Word) : (s.raise e c).responses = s.responses ++ [⟨e.code, c.setWidth 64⟩] := rfl
@[simp] theorem State.raise_draws (e : Err) (c : Word) : (s.raise e c).draws = s.draws := rfl
@[simp] theorem State.raise_inputs (e : Err) (c : Word) : (s.raise e c).inputs = s.inputs := rfl
@[simp] theorem State.raise_taken (e : Err) (c : Word) : (s.raise e c).taken = s.taken := rfl

@[simp] theorem State.clearErrors_params : s.clearErrors.params = s.params := rfl
@[simp] theorem State.clearErrors_cfg : s.clearErrors.cfg = s.cfg := rfl
@[simp] theorem State.clearErrors_status : s.clearErrors.status = StatusReg.clear := rfl
@[simp] theorem State.clearErrors_macc : s.clearErrors.macc = s.macc := rfl
@[simp] theorem State.clearErrors_dacc : s.clearErrors.dacc = s.dacc := rfl
@[simp] theorem State.clearErrors_ord : s.clearErrors.ord = s.ord := rfl
@[simp] theorem State.clearErrors_inv : s.clearErrors.inv = s.inv := rfl
@[simp] theorem State.clearErrors_ph : s.clearErrors.ph = s.ph := rfl
@[simp] theorem State.clearErrors_sout : s.clearErrors.sout = s.sout := rfl
@[simp] theorem State.clearErrors_bout : s.clearErrors.bout = s.bout := rfl
@[simp] theorem State.clearErrors_responses : s.clearErrors.responses = s.responses := rfl
@[simp] theorem State.clearErrors_draws : s.clearErrors.draws = s.draws := rfl
@[simp] theorem State.clearErrors_inputs : s.clearErrors.inputs = s.inputs := rfl
@[simp] theorem State.clearErrors_taken : s.clearErrors.taken = s.taken := rfl

@[simp] theorem State.setMacc_params (b : Bits) : (s.setMacc b).params = s.params := rfl
@[simp] theorem State.setMacc_cfg (b : Bits) : (s.setMacc b).cfg = s.cfg := rfl
@[simp] theorem State.setMacc_status (b : Bits) : (s.setMacc b).status = s.status := rfl
@[simp] theorem State.setMacc_macc (b : Bits) : (s.setMacc b).macc = b := rfl
@[simp] theorem State.setMacc_dacc (b : Bits) : (s.setMacc b).dacc = s.dacc := rfl
@[simp] theorem State.setMacc_ord (b : Bits) : (s.setMacc b).ord = s.ord := rfl
@[simp] theorem State.setMacc_inv (b : Bits) : (s.setMacc b).inv = s.inv := rfl
@[simp] theorem State.setMacc_ph (b : Bits) : (s.setMacc b).ph = s.ph := rfl
@[simp] theorem State.setMacc_sout (b : Bits) : (s.setMacc b).sout = s.sout := rfl
@[simp] theorem State.setMacc_bout (b : Bits) : (s.setMacc b).bout = s.bout := rfl
@[simp] theorem State.setMacc_responses (b : Bits) : (s.setMacc b).responses = s.responses := rfl
@[simp] theorem State.setMacc_draws (b : Bits) : (s.setMacc b).draws = s.draws := rfl
@[simp] theorem State.setMacc_inputs (b : Bits) : (s.setMacc b).inputs = s.inputs := rfl
@[simp] theorem State.setMacc_taken (b : Bits) : (s.setMacc b).taken = s.taken := rfl

@[simp] theorem State.setDacc_params (b : Bits) : (s.setDacc b).params = s.params := rfl
@[simp] theorem State.setDacc_cfg (b : Bits) : (s.setDacc b).cfg = s.cfg := rfl
@[simp] theorem State.setDacc_status (b : Bits) : (s.setDacc b).status = s.status := rfl
@[simp] theorem State.setDacc_macc (b : Bits) : (s.setDacc b).macc = s.macc := rfl
@[simp] theorem State.setDacc_dacc (b : Bits) : (s.setDacc b).dacc = b := rfl
@[simp] theorem State.setDacc_ord (b : Bits) : (s.setDacc b).ord = s.ord := rfl
@[simp] theorem State.setDacc_inv (b : Bits) : (s.setDacc b).inv = s.inv := rfl
@[simp] theorem State.setDacc_ph (b : Bits) : (s.setDacc b).ph = s.ph := rfl
@[simp] theorem State.setDacc_sout (b : Bits) : (s.setDacc b).sout = s.sout := rfl
@[simp] theorem State.setDacc_bout (b : Bits) : (s.setDacc b).bout = s.bout := rfl
@[simp] theorem State.setDacc_responses (b : Bits) : (s.setDacc b).responses = s.responses := rfl
@[simp] theorem State.setDacc_draws (b : Bits) : (s.setDacc b).draws = s.draws := rfl
@[simp] theorem State.setDacc_inputs (b : Bits) : (s.setDacc b).inputs = s.inputs := rfl
@[simp] theorem State.setDacc_taken (b : Bits) : (s.setDacc b).taken = s.taken := rfl

@[simp] theorem State.emitSout_params (l : List Sample) : (s.emitSout l).params = s.params := rfl
@[simp] theorem State.emitSout_cfg (l : List Sample) : (s.emitSout l).cfg = s.cfg := rfl
@[simp] theorem State.emitSout_status (l : List Sample) : (s.emitSout l).status = s.status := rfl
@[simp] theorem State.emitSout_macc (l : List Sample) : (s.emitSout l).macc = s.macc := rfl
@[simp] theorem State.emitSout_dacc (l : List Sample) : (s.emitSout l).dacc = s.dacc := rfl
@[simp] theorem State.emitSout_ord (l : List Sample) : (s.emitSout l).ord = s.ord := rfl
@[simp] theorem State.emitSout_inv (l : List Sample) : (s.emitSout l).inv = s.inv := rfl
@[simp] theorem State.emitSout_ph (l : List Sample) : (s.emitSout l).ph = s.ph := rfl
@[simp] theorem State.emitSout_sout (l : List Sample) : (s.emitSout l).sout = s.sout ++ l := rfl
@[simp] theorem State.emitSout_bout (l : List Sample) : (s.emitSout l).bout = s.bout := rfl
@[simp] theorem State.emitSout_responses (l : List Sample) : (s.emitSout l).responses = s.responses := rfl
@[simp] theorem State.emitSout_draws (l : List Sample) : (s.emitSout l).draws = s.draws := rfl
@[simp] theorem State.emitSout_inputs (l : List Sample) : (s.emitSout l).inputs = s.inputs := rfl
@[simp] theorem State.emitSout_taken (l : List Sample) : (s.emitSout l).taken = s.taken := rfl

@[simp] theorem State.emitBout_params (l : List Byte) : (s.emitBout l).params = s.params := rfl
@[simp] theorem State.emitBout_cfg (l : List Byte) : (s.emitBout l).cfg = s.cfg := rfl
@[simp] theorem State.emitBout_status (l : List Byte) : (s.emitBout l).status = s.status := rfl
@[simp] theorem State.emitBout_macc (l : List Byte) : (s.emitBout l).macc = s.macc := rfl
@[simp] theorem State.emitBout_dacc (l : List Byte) : (s.emitBout l).dacc = s.dacc := rfl
@[simp] theorem State.emitBout_ord (l : List Byte) : (s.emitBout l).ord = s.ord := rfl
@[simp] theorem State.emitBout_inv (l : List Byte) : (s.emitBout l).inv = s.inv := rfl
@[simp] theorem State.emitBout_ph (l : List Byte) : (s.emitBout l).ph = s.ph := rfl
@[simp] theorem State.emitBout_sout (l : List Byte) : (s.emitBout l).sout = s.sout := rfl
@[simp] theorem State.emitBout_bout (l : List Byte) : (s.emitBout l).bout = s.bout ++ l := rfl
@[simp] theorem State.emitBout_responses (l : List Byte) : (s.emitBout l).responses = s.responses := rfl
@[simp] theorem State.emitBout_draws (l : List Byte) : (s.emitBout l).draws = s.draws := rfl
@[simp] theorem State.emitBout_inputs (l : List Byte) : (s.emitBout l).inputs = s.inputs := rfl
@[simp] theorem State.emitBout_taken (l : List Byte) : (s.emitBout l).taken = s.taken := rfl

@[simp] theorem State.drawn_params : s.drawn.params = s.params := rfl
@[simp] theorem State.drawn_cfg : s.drawn.cfg = s.cfg := rfl
@[simp] theorem State.drawn_status : s.drawn.status = s.status := rfl
@[simp] theorem State.drawn_macc : s.drawn.macc = s.macc := rfl
@[simp] theorem State.drawn_dacc : s.drawn.dacc = s.dacc := rfl
@[simp] theorem State.drawn_ord : s.drawn.ord = s.ord := rfl
@[simp] theorem State.drawn_inv : s.drawn.inv = s.inv := rfl
@[simp] theorem State.drawn_ph : s.drawn.ph = s.ph := rfl
@[simp] theorem State.drawn_sout : s.drawn.sout = s.sout := rfl
@[simp] theorem State.drawn_bout : s.drawn.bout = s.bout := rfl
@[simp] theorem State.drawn_responses : s.drawn.responses = s.responses := rfl
@[simp] theorem State.drawn_draws : s.drawn.draws = s.draws + 1 := rfl
@[simp] theorem State.drawn_inputs : s.drawn.inputs = s.inputs := rfl
@[simp] theorem State.drawn_taken : s.drawn.taken = s.taken := rfl

@[simp] theorem State.dropConfig_params : s.dropConfig.params = s.params := rfl
@[simp] theorem State.dropConfig_cfg : s.dropConfig.cfg = CfgReg.unconfigured := rfl
@[simp] theorem State.dropConfig_status : s.dropConfig.status = s.status := rfl
@[simp] theorem State.dropConfig_macc : s.dropConfig.macc = s.macc := rfl
@[simp] theorem State.dropConfig_dacc : s.dropConfig.dacc = s.dacc := rfl
@[simp] theorem State.dropConfig_ord : s.dropConfig.ord = [] := rfl
@[simp] theorem State.dropConfig_inv : s.dropConfig.inv = [] := rfl
@[simp] theorem State.dropConfig_ph : s.dropConfig.ph = [] := rfl
@[simp] theorem State.dropConfig_sout : s.dropConfig.sout = s.sout := rfl
@[simp] theorem State.dropConfig_bout : s.dropConfig.bout = s.bout := rfl
@[simp] theorem State.dropConfig_responses : s.dropConfig.responses = s.responses := rfl
@[simp] theorem State.dropConfig_draws : s.dropConfig.draws = s.draws := rfl
@[simp] theorem State.dropConfig_inputs : s.dropConfig.inputs = s.inputs := rfl
@[simp] theorem State.dropConfig_taken : s.dropConfig.taken = s.taken := rfl

@[simp] theorem State.setConfig_params (r : CfgReg) (o i p : List Nat) : (s.setConfig r o i p).params = s.params := rfl
@[simp] theorem State.setConfig_cfg (r : CfgReg) (o i p : List Nat) : (s.setConfig r o i p).cfg = r := rfl
@[simp] theorem State.setConfig_status (r : CfgReg) (o i p : List Nat) : (s.setConfig r o i p).status = s.status := rfl
@[simp] theorem State.setConfig_macc (r : CfgReg) (o i p : List Nat) : (s.setConfig r o i p).macc = s.macc := rfl
@[simp] theorem State.setConfig_dacc (r : CfgReg) (o i p : List Nat) : (s.setConfig r o i p).dacc = s.dacc := rfl
@[simp] theorem State.setConfig_ord (r : CfgReg) (o i p : List Nat) : (s.setConfig r o i p).ord = o := rfl
@[simp] theorem State.setConfig_inv (r : CfgReg) (o i p : List Nat) : (s.setConfig r o i p).inv = i := rfl
@[simp] theorem State.setConfig_ph (r : CfgReg) (o i p : List Nat) : (s.setConfig r o i p).ph = p := rfl
@[simp] theorem State.setConfig_sout (r : CfgReg) (o i p : List Nat) : (s.setConfig r o i p).sout = s.sout := rfl
@[simp] theorem State.setConfig_bout (r : CfgReg) (o i p : List Nat) : (s.setConfig r o i p).bout = s.bout := rfl
@[simp] theorem State.setConfig_responses (r : CfgReg) (o i p : List Nat) : (s.setConfig r o i p).responses = s.responses := rfl
@[simp] theorem State.setConfig_draws (r : CfgReg) (o i p : List Nat) : (s.setConfig r o i p).draws = s.draws := rfl
@[simp] theorem State.setConfig_inputs (r : CfgReg) (o i p : List Nat) : (s.setConfig r o i p).inputs = s.inputs := rfl
@[simp] theorem State.setConfig_taken (r : CfgReg) (o i p : List Nat) : (s.setConfig r o i p).taken = s.taken := rfl

@[simp] theorem State.configure_params (n : Nat) (g : Bool) : (s.configure n g).params = s.params := rfl
@[simp] theorem State.configure_cfg (n : Nat) (g : Bool) : (s.configure n g).cfg = configReg n g := rfl
@[simp] theorem State.configure_status (n : Nat) (g : Bool) : (s.configure n g).status = s.status := rfl
@[simp] theorem State.configure_macc (n : Nat) (g : Bool) : (s.configure n g).macc = s.macc := rfl
@[simp] theorem State.configure_dacc (n : Nat) (g : Bool) : (s.configure n g).dacc = s.dacc := rfl
@[simp] theorem State.configure_ord (n : Nat) (g : Bool) : (s.configure n g).ord = orderTable n g := rfl
@[simp] theorem State.configure_inv (n : Nat) (g : Bool) : (s.configure n g).inv = inverseTable (orderTable n g) := rfl
@[simp] theorem State.configure_ph (n : Nat) (g : Bool) : (s.configure n g).ph = phaseTable (2 ^ n) (decide (2 ^ n ≠ 2)) := rfl
@[simp] theorem State.configure_sout (n : Nat) (g : Bool) : (s.configure n g).sout = s.sout := rfl
@[simp] theorem State.configure_bout (n : Nat) (g : Bool) : (s.configure n g).bout = s.bout := rfl
@[simp] theorem State.configure_responses (n : Nat) (g : Bool) : (s.configure n g).responses = s.responses := rfl
@[simp] theorem State.configure_draws (n : Nat) (g : Bool) : (s.configure n g).draws = s.draws := rfl
@[simp] theorem State.configure_inputs (n : Nat) (g : Bool) : (s.configure n g).inputs = s.inputs := rfl
@[simp] theorem State.configure_taken (n : Nat) (g : Bool) : (s.configure n g).taken = s.taken := rfl

@[simp] theorem State.packBits_params (b : Bits) : (s.packBits b).params = s.params := rfl
@[simp] theorem State.packBits_cfg (b : Bits) : (s.packBits b).cfg = s.cfg := rfl
@[simp] theorem State.packBits_status (b : Bits) : (s.packBits b).status = s.status := rfl
@[simp] theorem State.packBits_macc (b : Bits) : (s.packBits b).macc = s.macc := rfl
@[simp] theorem State.packBits_dacc (b : Bits) : (s.packBits b).dacc = (splitGroups 8 (s.dacc ++ b).length (s.dacc ++ b)).2 := rfl
@[simp] theorem State.packBits_ord (b : Bits) : (s.packBits b).ord = s.ord := rfl
@[simp] theorem State.packBits_inv (b : Bits) : (s.packBits b).inv = s.inv := rfl
@[simp] theorem State.packBits_ph (b : Bits) : (s.packBits b).ph = s.ph := rfl
@[simp] theorem State.packBits_sout (b : Bits) : (s.packBits b).sout = s.sout := rfl
@[simp] theorem State.packBits_bout (b : Bits) : (s.packBits b).bout = s.bout ++ (splitGroups 8 (s.dacc ++ b).length (s.dacc ++ b)).1.map byteOf := rfl
@[simp] theorem State.packBits_responses (b : Bits) : (s.packBits b).responses = s.responses := rfl
@[simp] theorem State.packBits_draws (b : Bits) : (s.packBits b).draws = s.draws := rfl
@[simp] theorem State.packBits_inputs (b : Bits) : (s.packBits b).inputs = s.inputs := rfl
@[simp] theorem State.packBits_taken (b : Bits) : (s.packBits b).taken = s.taken := rfl

@[simp] theorem State.applyReset_params : s.applyReset.params = s.params := rfl
@[simp] theorem State.applyReset_cfg : s.applyReset.cfg = CfgReg.unconfigured := rfl
@[simp] theorem State.applyReset_status : s.applyReset.status = StatusReg.clear := rfl
@[simp] theorem State.applyReset_macc : s.applyReset.macc = [] := rfl
@[simp] theorem State.applyReset_dacc : s.applyReset.dacc = [] := rfl
@[simp] theorem State.applyReset_ord : s.applyReset.ord = [] := rfl
@[simp] theorem State.applyReset_inv : s.applyReset.inv = [] := rfl
@[simp] theorem State.applyReset_ph : s.applyReset.ph = [] := rfl
@[simp] theorem State.applyReset_sout : s.applyReset.sout = [] := rfl
@[simp] theorem State.applyReset_bout : s.applyReset.bout = [] := rfl
@[simp] theorem State.applyReset_responses : s.applyReset.responses = [] := rfl
@[simp] theorem State.applyReset_draws : s.applyReset.draws = s.draws := rfl
@[simp] theorem State.applyReset_inputs : s.applyReset.inputs = s.inputs := rfl
@[simp] theorem State.applyReset_taken : s.applyReset.taken = ⟨s.taken.responses ++ s.responses, s.taken.samples ++ s.sout, s.taken.bytes ++ s.bout⟩ := rfl

@[simp] theorem State.withFetchWord_params (nbits w : Nat) : (s.withFetchWord nbits w).params = s.params := rfl
@[simp] theorem State.withFetchWord_cfg (nbits w : Nat) : (s.withFetchWord nbits w).cfg = s.cfg := rfl
@[simp] theorem State.withFetchWord_status (nbits w : Nat) : (s.withFetchWord nbits w).status = s.status := rfl
@[simp] theorem State.withFetchWord_macc (nbits w : Nat) : (s.withFetchWord nbits w).macc = s.macc := rfl
@[simp] theorem State.withFetchWord_dacc (nbits w : Nat) : (s.withFetchWord nbits w).dacc = s.dacc := rfl
@[simp] theorem State.withFetchWord_ord (nbits w : Nat) : (s.withFetchWord nbits w).ord = s.ord := rfl
@[simp] theorem State.withFetchWord_inv (nbits w : Nat) : (s.withFetchWord nbits w).inv = s.inv := rfl
@[simp] theorem State.withFetchWord_ph (nbits w : Nat) : (s.withFetchWord nbits w).ph = s.ph := rfl
@[simp] theorem State.withFetchWord_sout (nbits w : Nat) : (s.withFetchWord nbits w).sout = s.sout := rfl
@[simp] theorem State.withFetchWord_bout (nbits w : Nat) : (s.withFetchWord nbits w).bout = s.bout := rfl
@[simp] theorem State.withFetchWord_responses (nbits w : Nat) : (s.withFetchWord nbits w).responses = s.responses := rfl
@[simp] theorem State.withFetchWord_draws (nbits w : Nat) : (s.withFetchWord nbits w).draws = s.draws := rfl
@[simp] theorem State.withFetchWord_inputs (nbits w : Nat) : (s.withFetchWord nbits w).inputs = HostInput.beat (tableBeat nbits w) :: s.inputs := rfl
@[simp] theorem State.withFetchWord_taken (nbits w : Nat) : (s.withFetchWord nbits w).taken = s.taken := rfl

end Sys2Proof.Machine
end

