-- ==== Sys2Proof/Laws/Angle.lean ====
section
/-! SUPPORT. The two exact angle computations against the real functions: `cosCompare` (41_configuration.md R121) and `turn`
(43_slicer.md R141). -/

namespace Sys2Proof.Machine

open Real

/-- Doubling an angle turns c into 2c² − 1 (the dyadic step of `cosCompare`). -/
theorem dyadic_double (a : Int) (b : Nat) :
    (((2 * a * a - 2 ^ (2 * b) : Int) : ℝ) / 2 ^ (2 * b)) = 2 * ((a : ℝ) / 2 ^ b) ^ 2 - 1 := by
  have h : (2 : ℝ) ^ b ≠ 0 := by positivity
  push_cast
  rw [mul_comm 2 b, pow_mul]
  field_simp

/-- `cosCompare` decides how cos(u·π/2^n) stands to a/2^b, exactly. -/
theorem cosCompare_compares (n u : Nat) (a : Int) (b : Nat) (hu : u ≤ 2 ^ n) :
    (cosCompare n u a b).Compares (Real.cos (u * π / 2 ^ n)) ((a : ℝ) / 2 ^ b) := by
  induction n generalizing u a b with
  | zero =>
    have h2 : (0 : ℝ) < 2 ^ b := by positivity
    have base : ∀ (x : Int) (c : ℝ), (x : ℝ) = c * 2 ^ b → (compare x a).Compares c ((a : ℝ) / 2 ^ b) := by
      intro x c hx
      have hc : c = (x : ℝ) / 2 ^ b := by rw [hx]; field_simp
      rw [hc]
      rcases lt_trichotomy x a with h | h | h
      · rw [compare_lt_iff_lt.mpr h]
        exact (div_lt_div_iff_of_pos_right h2).mpr (by exact_mod_cast h)
      · rw [compare_eq_iff_eq.mpr h, h]
        exact rfl
      · rw [compare_gt_iff_gt.mpr h]
        exact (div_lt_div_iff_of_pos_right h2).mpr (by exact_mod_cast h)
    unfold cosCompare
    split
    · rename_i h
      subst h
      exact base _ _ (by simp)
    · have : u = 1 := by simp at hu; omega
      subst this
      exact base _ _ (by simp)
  | succ n ih =>
    have hpow : (0 : ℝ) < 2 ^ n := by positivity
    have h2b : (0 : ℝ) < 2 ^ b := by positivity
    set φ : ℝ := u * π / 2 ^ (n + 1) with hφ
    have hdouble : 2 * φ = u * π / 2 ^ n := by rw [hφ, pow_succ]; field_simp
    have hcos2 : Real.cos (u * π / 2 ^ n) = 2 * Real.cos φ ^ 2 - 1 := by rw [← hdouble, Real.cos_two_mul]
    have hφ0 : 0 ≤ φ := by positivity
    have hφπ : φ ≤ π := by
      rw [hφ, div_le_iff₀ (by positivity)]
      have : (u : ℝ) ≤ 2 ^ (n + 1) := by exact_mod_cast hu
      nlinarith [Real.pi_pos]
    have hsmall : u ≤ 2 ^ n → 0 ≤ Real.cos φ := by
      intro h
      refine Real.cos_nonneg_of_neg_pi_div_two_le_of_le (by linarith [Real.pi_pos]) ?_
      rw [hφ, pow_succ, div_le_div_iff₀ (by positivity) (by positivity)]
      have : (u : ℝ) ≤ 2 ^ n := by exact_mod_cast h
      nlinarith [Real.pi_pos]
    have hbig : 2 ^ n < u → Real.cos φ < 0 := by
      intro h
      refine Real.cos_neg_of_pi_div_two_lt_of_lt ?_ (by linarith [Real.pi_pos])
      rw [hφ, pow_succ, div_lt_div_iff₀ (by positivity) (by positivity)]
      have : (2 : ℝ) ^ n < u := by exact_mod_cast h
      nlinarith [Real.pi_pos]
    unfold cosCompare
    split
    · rename_i ha
      have hc : (a : ℝ) / 2 ^ b < 0 := div_neg_of_neg_of_pos (by exact_mod_cast ha) h2b
      split
      · rename_i h
        exact lt_of_lt_of_le hc (hsmall h)
      · rename_i h
        rw [not_le] at h
        have hneg := hbig h
        rw [Ordering.compares_swap]
        have hmir : Real.cos ((2 ^ (n + 1) - u : ℕ) * π / 2 ^ n) = 2 * Real.cos φ ^ 2 - 1 := by
          rw [Nat.cast_sub hu]
          have : ((2 ^ (n + 1) : ℕ) - (u : ℝ)) * π / 2 ^ n = 2 * π - u * π / 2 ^ n := by
            push_cast
            rw [pow_succ]
            field_simp
          rw [this, Real.cos_two_pi_sub, hcos2]
        have := ih (2 ^ (n + 1) - u) (2 * a * a - 2 ^ (2 * b)) (2 * b) (by rw [pow_succ]; omega)
        rw [dyadic_double, hmir] at this
        revert this
        generalize cosCompare n (2 ^ (n + 1) - u) (2 * a * a - 2 ^ (2 * b)) (2 * b) = o
        cases o <;> simp only [Ordering.Compares] <;> intro this <;> nlinarith
    · rename_i ha
      have hc : 0 ≤ (a : ℝ) / 2 ^ b := div_nonneg (by exact_mod_cast (not_lt.mp ha)) h2b.le
      split
      · rename_i h
        exact lt_of_lt_of_le (hbig h) hc
      · rename_i h
        rw [not_lt] at h
        have hpos := hsmall h
        have := ih u (2 * a * a - 2 ^ (2 * b)) (2 * b) h
        rw [dyadic_double, hcos2] at this
        revert this
        generalize cosCompare n u (2 * a * a - 2 ^ (2 * b)) (2 * b) = o
        cases o <;> simp only [Ordering.Compares] <;> intro this <;> nlinarith

/-- The first binary digit of an angle in turns is the sign test of `turn`. -/
theorem half_turn_iff {x y : Int} {r θ : ℝ} (hr : 0 < r) (h0 : 0 ≤ θ) (h1 : θ < 2 * π)
    (hx : (x : ℝ) = r * Real.cos θ) (hy : (y : ℝ) = r * Real.sin θ) : (y < 0 ∨ (y = 0 ∧ x < 0)) ↔ π ≤ θ := by
  constructor
  · intro h
    by_contra hlt
    rw [not_le] at hlt
    rcases h with h | ⟨hy0, hx0⟩
    · have hs : 0 ≤ Real.sin θ := Real.sin_nonneg_of_nonneg_of_le_pi h0 hlt.le
      have : (0 : ℝ) ≤ y := by rw [hy]; positivity
      exact absurd h (by exact_mod_cast not_lt.mpr this)
    · rcases h0.eq_or_lt with he | hpos
      · rw [← he, Real.cos_zero, mul_one] at hx
        have : (0 : ℝ) < x := by rw [hx]; exact hr
        exact absurd hx0 (by exact_mod_cast not_lt.mpr this.le)
      · have hs : 0 < Real.sin θ := Real.sin_pos_of_pos_of_lt_pi hpos hlt
        have : (0 : ℝ) < y := by rw [hy]; positivity
        rw [hy0] at this
        simp at this
  · intro h
    rcases h.eq_or_lt with he | hlt
    · right
      rw [← he] at hx hy
      rw [Real.sin_pi, mul_zero] at hy
      rw [Real.cos_pi] at hx
      refine ⟨by exact_mod_cast hy, ?_⟩
      have : (x : ℝ) < 0 := by linarith
      exact_mod_cast this
    · left
      have hs : Real.sin θ < 0 := by
        have := Real.sin_pos_of_pos_of_lt_pi (x := 2 * π - θ) (by linarith) (by linarith)
        rw [Real.sin_two_pi_sub] at this
        linarith
      have : (y : ℝ) < 0 := by rw [hy]; exact mul_neg_of_pos_of_neg hr hs
      exact_mod_cast this

/-- `turn` is exact: the integer part of 2^m·θ/2π, and whether that is an integer, for the angle θ in [0, 2π) of (x, y). -/
theorem turn_spec (m : Nat) (x y : Int) {r θ : ℝ} (hr : 0 < r) (h0 : 0 ≤ θ) (h1 : θ < 2 * π)
    (hx : (x : ℝ) = r * Real.cos θ) (hy : (y : ℝ) = r * Real.sin θ) :
    ((turn m x y).1 : ℝ) * (2 * π) ≤ 2 ^ m * θ ∧ 2 ^ m * θ < ((turn m x y).1 + 1) * (2 * π) ∧
    ((turn m x y).2 = true ↔ 2 ^ m * θ = (turn m x y).1 * (2 * π)) := by
  induction m generalizing x y r θ with
  | zero =>
    refine ⟨by simpa [turn] using h0, by simpa [turn] using h1, ?_⟩
    simp only [turn, decide_eq_true_eq, pow_zero, one_mul, Nat.cast_zero, zero_mul]
    constructor
    · rintro ⟨hy0, hx0⟩
      have hnot : ¬ π ≤ θ := fun h => by
        rcases (half_turn_iff hr h0 h1 hx hy).mpr h with h | h <;> omega
      have hs : Real.sin θ = 0 := by
        have : r * Real.sin θ = 0 := by rw [← hy, hy0]; simp
        exact (mul_eq_zero.mp this).resolve_left hr.ne'
      by_contra hne
      exact absurd hs (Real.sin_pos_of_pos_of_lt_pi (lt_of_le_of_ne h0 (Ne.symm hne)) (not_le.mp hnot)).ne'
    · intro hθ
      rw [hθ] at hx hy
      simp at hx hy
      exact ⟨hy, by exact_mod_cast (hx ▸ hr : (0 : ℝ) < x)⟩
  | succ m ih =>
    have hx' : ((x * x - y * y : Int) : ℝ) = r ^ 2 * Real.cos (2 * θ) := by
      push_cast
      rw [hx, hy, Real.cos_two_mul']
      ring
    have hy' : ((2 * x * y : Int) : ℝ) = r ^ 2 * Real.sin (2 * θ) := by
      push_cast
      rw [hx, hy, Real.sin_two_mul]
      ring
    simp only [turn]
    by_cases hh : y < 0 ∨ (y = 0 ∧ x < 0)
    · have hπ := (half_turn_iff hr h0 h1 hx hy).mp hh
      have hc : Real.cos (2 * θ) = Real.cos (2 * θ - 2 * π) := (Real.cos_sub_two_pi _).symm
      have hs : Real.sin (2 * θ) = Real.sin (2 * θ - 2 * π) := (Real.sin_sub_two_pi _).symm
      obtain ⟨a, b, c⟩ := ih (x * x - y * y) (2 * x * y) (r := r ^ 2) (θ := 2 * θ - 2 * π) (by positivity) (by linarith)
        (by linarith) (by rw [hx', hc]) (by rw [hy', hs])
      rw [if_pos hh]
      have e : (2 : ℝ) ^ (m + 1) * θ = 2 ^ m * (2 * θ - 2 * π) + 2 ^ m * (2 * π) := by ring
      rw [e, c]
      push_cast
      refine ⟨by linarith, by linarith, ?_⟩
      constructor <;> intro h <;> linarith
    · have hπ : θ < π := not_le.mp (mt (half_turn_iff hr h0 h1 hx hy).mpr hh)
      obtain ⟨a, b, c⟩ := ih (x * x - y * y) (2 * x * y) (r := r ^ 2) (θ := 2 * θ) (by positivity) (by linarith)
        (by linarith) hx' hy'
      rw [if_neg hh]
      have e : (2 : ℝ) ^ (m + 1) * θ = 2 ^ m * (2 * θ) := by ring
      rw [e, c]
      push_cast
      refine ⟨by linarith, by linarith, ?_⟩
      constructor <;> intro h <;> linarith

end Sys2Proof.Machine
end

