-- ==== Sys2Proof/Laws/Decode.lean ====
section
/-! SUPPORT. The decoder's fields as numbers, and what `decode` answers for each opcode. -/

namespace Sys2Proof

theorem toNat_extractLsb' {w : Nat} (x : BitVec w) (lo len : Nat) :
    (x.extractLsb' lo len).toNat = x.toNat / 2 ^ lo % 2 ^ len := by
  rw [BitVec.extractLsb'_toNat, Nat.shiftRight_eq_div_pow]

theorem extractLsb'_eq_zero_iff {w : Nat} (x : BitVec w) (lo len : Nat) :
    x.extractLsb' lo len = BitVec.ofNat len 0 ↔ x.toNat / 2 ^ lo % 2 ^ len = 0 := by
  rw [← BitVec.toNat_inj, toNat_extractLsb']
  simp

theorem toNat_fieldOp (c : Word) : (fieldOp c).toNat = c.toNat / 2 ^ 28 % 2 ^ 4 := toNat_extractLsb' c 28 4

theorem toNat_fieldV (c : Word) : (fieldV c).toNat = c.toNat / 2 ^ 0 % 2 ^ 16 := toNat_extractLsb' c 0 16

theorem toNat_fieldW (c : Word) : (fieldW c).toNat = c.toNat / 2 ^ 16 % 2 ^ 5 := toNat_extractLsb' c 16 5

theorem toNat_fieldT (c : Word) : (fieldT c).toNat = c.toNat / 2 ^ 16 % 2 ^ 2 := toNat_extractLsb' c 16 2

theorem toNat_fieldRN (c : Word) : (fieldRN c).toNat = c.toNat / 2 ^ 0 % 2 ^ 4 := toNat_extractLsb' c 0 4

theorem toNat_fieldRe (d : DWord) : (fieldRe d).toNat = d.toNat / 2 ^ 0 % 2 ^ 32 := toNat_extractLsb' d 0 32

theorem toNat_fieldIm (d : DWord) : (fieldIm d).toNat = d.toNat / 2 ^ 32 % 2 ^ 32 := toNat_extractLsb' d 32 32

theorem fieldG_eq (c : Word) : fieldG c = decide (c.toNat / 2 ^ 16 % 2 = 1) := by
  rw [fieldG, BitVec.getLsbD, Nat.testBit_eq_decide_div_mod_eq]

@[simp] theorem tableOfField_fieldOfTable (t : TableSel) : tableOfField (fieldOfTable t) = t := by cases t <;> rfl

@[simp] theorem fieldOfTable_tableOfField (t : BitVec 2) : fieldOfTable (tableOfField t) = t := by
  revert t
  decide

/-- A command word is its opcode above the 28 bits of its format (R71). -/
theorem word_toNat_split (c : Word) : c.toNat = (fieldOp c).toNat * 2 ^ 28 + c.toNat % 2 ^ 28 := by
  have := c.isLt
  rw [toNat_fieldOp]
  omega

theorem toNat_append_eq {a b : Nat} (x : BitVec a) (y : BitVec b) : (x ++ y).toNat = x.toNat * 2 ^ b + y.toNat := by
  rw [BitVec.toNat_append, ← Nat.shiftLeft_add_eq_or_of_lt y.isLt, Nat.shiftLeft_eq]

theorem formatZ_ok_iff {c : Word} {i j : Instr} : formatZ c i = .ok j ↔ c.toNat % 2 ^ 28 = 0 ∧ i = j := by
  unfold formatZ
  simp only [extractLsb'_eq_zero_iff, pow_zero, Nat.div_one]
  split <;> simp_all

theorem formatK_ok_iff {c : Word} {i j : Instr} : formatK c i = .ok j ↔ c.toNat / 2 ^ 17 % 2 ^ 11 = 0 ∧ i = j := by
  unfold formatK
  simp only [extractLsb'_eq_zero_iff]
  split <;> simp_all

theorem formatV_ok_iff {c : Word} {i j : Instr} :
    formatV c i = .ok j ↔ c.toNat / 2 ^ 21 % 2 ^ 7 = 0 ∧ (fieldW c).toNat ≤ 16 ∧ i = j := by
  unfold formatV
  simp only [extractLsb'_eq_zero_iff]
  split
  · split <;> simp_all
  · simp_all

theorem formatT_ok_iff {c : Word} {i j : Instr} : formatT c i = .ok j ↔ c.toNat / 2 ^ 18 % 2 ^ 10 = 0 ∧ i = j := by
  unfold formatT
  simp only [extractLsb'_eq_zero_iff]
  split <;> simp_all

theorem formatR_ok_iff {c : Word} {i j : Instr} : formatR c i = .ok j ↔ c.toNat / 2 ^ 4 % 2 ^ 24 = 0 ∧ i = j := by
  unfold formatR
  simp only [extractLsb'_eq_zero_iff]
  split <;> simp_all

/-- The opcode of an instruction (R77). -/
def Instr.opcode : Instr → Nat
  | .nop => 0
  | .cfg _ _ => 1
  | .push _ _ => 2
  | .mend => 3
  | .slice _ _ => 4
  | .dend => 5
  | .rdtab _ _ => 6
  | .rdreg _ => 7
  | .clrerr => 8
  | .i2b _ _ => 9

/-- The operand fields of an instruction as one number below 2^28 (R72 to R76). -/
def Instr.operands : Instr → Nat
  | .cfg nreq gray => gray.toNat * 2 ^ 16 + nreq.toNat
  | .push v w | .i2b v w => w.toNat * 2 ^ 16 + v.toNat
  | .rdtab tab idx => (fieldOfTable tab).toNat * 2 ^ 16 + idx.toNat
  | .rdreg rn => rn.toNat
  | .nop | .mend | .slice _ _ | .dend | .clrerr => 0

/-- The command word of an instruction as a number (R71 to R76, R81). -/
theorem Instr.word_toNat (i : Instr) : i.word.toNat = i.opcode * 2 ^ 28 + i.operands := by
  cases i <;> simp only [Instr.word, Instr.opcode, Instr.operands, toNat_append_eq] <;>
    simp [BitVec.toNat_ofBool] <;> omega

theorem Instr.operands_lt (i : Instr) : i.operands < 2 ^ 28 := by
  cases i with
  | cfg nreq gray => simp only [Instr.operands]; have := nreq.isLt; cases gray <;> simp <;> omega
  | push v w => simp only [Instr.operands]; have := v.isLt; have := w.isLt; omega
  | i2b v w => simp only [Instr.operands]; have := v.isLt; have := w.isLt; omega
  | rdtab tab idx => simp only [Instr.operands]; have := idx.isLt; have := (fieldOfTable tab).isLt; omega
  | rdreg rn => simp only [Instr.operands]; have := rn.isLt; omega
  | _ => simp [Instr.operands]

/-- The opcode field of an instruction's word is its opcode. -/
theorem Instr.fieldOp_word (i : Instr) : (fieldOp i.word).toNat = i.opcode := by
  have h := i.operands_lt
  have ho : i.opcode < 10 := by cases i <;> simp [Instr.opcode]
  rw [toNat_fieldOp, i.word_toNat]
  omega

/-- What the decoder can answer: an instruction with the word's opcode and operand fields, well formed, and with D's two
halves where it is a SLICE. -/
theorem decode_ok {b : Beat} {i : Instr} (h : decode b = .ok i) :
    i.opcode = (fieldOp b.cmd).toNat ∧ i.operands = b.cmd.toNat % 2 ^ 28 ∧ i.wellFormed = true ∧
    ∀ re im, i = .slice re im → re = fieldRe b.data ∧ im = fieldIm b.data := by
  have hlt := b.cmd.isLt
  unfold decode at h
  dsimp only at h
  split at h <;> rename_i hop
  · obtain ⟨hz, rfl⟩ := formatZ_ok_iff.mp h
    exact ⟨hop.symm, hz.symm, rfl, by simp⟩
  · obtain ⟨hz, rfl⟩ := formatK_ok_iff.mp h
    refine ⟨hop.symm, ?_, rfl, by simp⟩
    simp only [Instr.operands, toNat_fieldV, fieldG_eq]
    rcases Nat.mod_two_eq_zero_or_one (b.cmd.toNat / 2 ^ 16) with hg | hg <;> rw [hg]
    · simp only [Nat.zero_ne_one, decide_false, Bool.toNat_false]
      omega
    · simp only [decide_true, Bool.toNat_true]
      omega
  · obtain ⟨hz, hw, rfl⟩ := formatV_ok_iff.mp h
    refine ⟨hop.symm, ?_, by simpa [Instr.wellFormed] using hw, by simp⟩
    simp only [Instr.operands, toNat_fieldV, toNat_fieldW]
    omega
  · obtain ⟨hz, rfl⟩ := formatZ_ok_iff.mp h
    exact ⟨hop.symm, hz.symm, rfl, by simp⟩
  · obtain ⟨hz, rfl⟩ := formatZ_ok_iff.mp h
    refine ⟨hop.symm, hz.symm, rfl, ?_⟩
    rintro re im ⟨rfl, rfl⟩
    exact ⟨rfl, rfl⟩
  · obtain ⟨hz, rfl⟩ := formatZ_ok_iff.mp h
    exact ⟨hop.symm, hz.symm, rfl, by simp⟩
  · obtain ⟨hz, rfl⟩ := formatT_ok_iff.mp h
    refine ⟨hop.symm, ?_, rfl, by simp⟩
    simp only [Instr.operands, toNat_fieldV, fieldOfTable_tableOfField, toNat_fieldT]
    omega
  · obtain ⟨hz, rfl⟩ := formatR_ok_iff.mp h
    refine ⟨hop.symm, ?_, rfl, by simp⟩
    simp only [Instr.operands, toNat_fieldRN]
    omega
  · obtain ⟨hz, rfl⟩ := formatZ_ok_iff.mp h
    exact ⟨hop.symm, hz.symm, rfl, by simp⟩
  · obtain ⟨hz, hw, rfl⟩ := formatV_ok_iff.mp h
    refine ⟨hop.symm, ?_, by simpa [Instr.wellFormed] using hw, by simp⟩
    simp only [Instr.operands, toNat_fieldV, toNat_fieldW]
    omega
  · cases h

end Sys2Proof
end

