-- ==== Sys2Proof/Laws/Binary32.lean ====
section
/-! SUPPORT. The values of binary32 patterns (43_slicer.md R144), and what the bitwise search of the reference SYMVAL finds
(41_configuration.md R121). -/

namespace Sys2Proof.Machine

/-- The magnitude of a positive pattern, by its exponent and fraction. -/
theorem f32Mag_ofNat {p : Nat} (hp : p < 2 ^ 31) :
    f32Mag (BitVec.ofNat 32 p) = if p / 2 ^ 23 = 0 then p else (2 ^ 23 + p % 2 ^ 23) * 2 ^ (p / 2 ^ 23 - 1) := by
  have h32 : (BitVec.ofNat 32 p).toNat = p := by rw [BitVec.toNat_ofNat]; omega
  have he : (f32Exp (BitVec.ofNat 32 p)).toNat = p / 2 ^ 23 := by
    rw [f32Exp, toNat_extractLsb', h32]; omega
  have hf : (f32Frac (BitVec.ofNat 32 p)).toNat = p % 2 ^ 23 := by
    rw [f32Frac, toNat_extractLsb', h32]; omega
  have h0 : f32Exp (BitVec.ofNat 32 p) = 0#8 ↔ p / 2 ^ 23 = 0 := by
    rw [← he, ← BitVec.toNat_inj]; rfl
  rw [f32Mag, he, hf]
  by_cases hz : p / 2 ^ 23 = 0
  · rw [if_pos (h0.2 hz), if_pos hz]; omega
  · rw [if_neg (fun h => hz (h0.1 h)), if_neg hz]

/-- The next pattern is the next larger value. -/
theorem f32Mag_lt_succ {p : Nat} (hp : p + 1 < 2 ^ 31) :
    f32Mag (BitVec.ofNat 32 p) < f32Mag (BitVec.ofNat 32 (p + 1)) := by
  rw [f32Mag_ofNat (by omega), f32Mag_ofNat hp]
  by_cases hf : p % 2 ^ 23 + 1 < 2 ^ 23
  · have he : (p + 1) / 2 ^ 23 = p / 2 ^ 23 := by omega
    have hm : (p + 1) % 2 ^ 23 = p % 2 ^ 23 + 1 := by omega
    rw [he, hm]
    split
    · omega
    · exact Nat.mul_lt_mul_of_pos_right (by omega) (by positivity)
  · have he : (p + 1) / 2 ^ 23 = p / 2 ^ 23 + 1 := by omega
    have hm : (p + 1) % 2 ^ 23 = 0 := by omega
    rw [he, hm, if_neg (Nat.succ_ne_zero _), Nat.add_sub_cancel]
    by_cases h0 : p / 2 ^ 23 = 0
    · rw [if_pos h0, h0]; omega
    · rw [if_neg h0]
      obtain ⟨e, he'⟩ := Nat.exists_eq_succ_of_ne_zero h0
      rw [he', Nat.succ_sub_one, Nat.add_zero, show 2 ^ e.succ = 2 * 2 ^ e from Nat.pow_succ', ← Nat.mul_assoc]
      have hlt := Nat.mod_lt p (show 0 < 2 ^ 23 by decide)
      exact Nat.mul_lt_mul_of_pos_right (by omega) (by positivity)

/-- The value of a positive pattern rises with the pattern. -/
theorem f32Mag_strictMono {p q : Nat} (h : p < q) (hq : q < 2 ^ 31) :
    f32Mag (BitVec.ofNat 32 p) < f32Mag (BitVec.ofNat 32 q) := by
  induction q with
  | zero => omega
  | succ q ih =>
    have step := f32Mag_lt_succ hq
    rcases Nat.lt_succ_iff_lt_or_eq.1 h with hlt | rfl
    · exact (ih hlt (by omega)).trans step
    · exact step

/-- How the search compares one pattern with the cosine. -/
theorem cosCompare_eq_lt_iff {n u : Nat} (hu : u ≤ 2 ^ n) (a : Int) (b : Nat) :
    cosCompare n u a b = .lt ↔ Real.cos (u * Real.pi / 2 ^ n) < (a : ℝ) / 2 ^ b := by
  have h := cosCompare_compares n u a b hu
  constructor
  · intro hc; rw [hc] at h; exact h
  · intro hlt
    cases hc : cosCompare n u a b with
    | lt => rfl
    | eq => rw [hc] at h; exact absurd h hlt.ne
    | gt => rw [hc] at h; exact absurd (show (a : ℝ) / 2 ^ b < _ from h) hlt.asymm

/-- The bitwise search finds the largest pattern of its range whose value is at most the cosine. -/
theorem floorPattern_spec {n u : Nat} (hu : u ≤ 2 ^ n) (bits p : Nat) (hp : p + 2 ^ bits ≤ 2 ^ 31)
    (h : (f32Mag (BitVec.ofNat 32 p) : ℝ) / 2 ^ 149 ≤ Real.cos (u * Real.pi / 2 ^ n)) :
    p ≤ floorPattern n u bits p ∧ floorPattern n u bits p < p + 2 ^ bits ∧
    (f32Mag (BitVec.ofNat 32 (floorPattern n u bits p)) : ℝ) / 2 ^ 149 ≤ Real.cos (u * Real.pi / 2 ^ n) ∧
    ∀ q, floorPattern n u bits p < q → q < p + 2 ^ bits →
      Real.cos (u * Real.pi / 2 ^ n) < (f32Mag (BitVec.ofNat 32 q) : ℝ) / 2 ^ 149 := by
  induction bits generalizing p with
  | zero => exact ⟨Nat.le_refl _, by simp [floorPattern], h, fun q h1 h2 => by simp [floorPattern] at h1 h2; omega⟩
  | succ i ih =>
    have hpow : 2 ^ (i + 1) = 2 ^ i + 2 ^ i := by rw [Nat.pow_succ]; omega
    have hpos : 0 < 2 ^ i := by positivity
    rw [floorPattern]
    split
    · rename_i hlt
      obtain ⟨h1, h2, h3, h4⟩ := ih p (by omega) h
      refine ⟨h1, by omega, h3, fun q hq1 hq2 => ?_⟩
      rcases Nat.lt_or_ge q (p + 2 ^ i) with hq | hq
      · exact h4 q hq1 hq
      · have hmid := (cosCompare_eq_lt_iff hu _ _).1 hlt
        refine lt_of_lt_of_le hmid ?_
        have hle : f32Mag (BitVec.ofNat 32 (p + 2 ^ i)) ≤ f32Mag (BitVec.ofNat 32 q) := by
          rcases Nat.lt_or_eq_of_le hq with hq | rfl
          · exact (f32Mag_strictMono hq (by omega)).le
          · exact Nat.le_refl _
        rw [Int.cast_natCast]
        exact div_le_div_of_nonneg_right (by exact_mod_cast hle) (by positivity)
    · rename_i hge
      have hmid : (f32Mag (BitVec.ofNat 32 (p + 2 ^ i)) : ℝ) / 2 ^ 149 ≤ Real.cos (u * Real.pi / 2 ^ n) := by
        have := mt (cosCompare_eq_lt_iff hu _ _).2 hge
        rw [Int.cast_natCast] at this
        exact not_lt.1 this
      obtain ⟨h1, h2, h3, h4⟩ := ih (p + 2 ^ i) (by omega) hmid
      exact ⟨by omega, by omega, h3, fun q hq1 hq2 => h4 q hq1 (by omega)⟩

end Sys2Proof.Machine
end

