-- ==== Sys2Proof/Laws/Codec.lean ====
section
/-! SUPPORT. The codec and the group loop: what `bitsToInt`, `intToBits` and `splitGroups` do, said once. -/

namespace Sys2Proof.Machine

theorem foldl_bits_acc (b : Bits) (a : Nat) :
    b.foldl (fun acc bit => 2 * acc + bit.toNat) a = a * 2 ^ b.length + bitsToInt b := by
  induction b generalizing a with
  | nil => simp [bitsToInt]
  | cons x b ih =>
    have h0 := ih (2 * 0 + x.toNat)
    have h1 := ih (2 * a + x.toNat)
    simp only [bitsToInt, List.foldl_cons, List.length_cons] at *
    rw [h1, h0]
    ring

@[simp] theorem bitsToInt_nil : bitsToInt [] = 0 := rfl

theorem bitsToInt_cons (x : Bool) (b : Bits) : bitsToInt (x :: b) = x.toNat * 2 ^ b.length + bitsToInt b := by
  simpa [bitsToInt] using foldl_bits_acc b x.toNat

theorem bitsToInt_append (a b : Bits) : bitsToInt (a ++ b) = bitsToInt a * 2 ^ b.length + bitsToInt b := by
  unfold bitsToInt
  rw [List.foldl_append, foldl_bits_acc]
  rfl

theorem bitsToInt_lt (b : Bits) : bitsToInt b < 2 ^ b.length := by
  induction b with
  | nil => simp
  | cons x b ih =>
    rw [bitsToInt_cons, List.length_cons, pow_succ]
    cases x <;> simp <;> omega

@[simp] theorem length_intToBits (v w : Nat) : (intToBits v w).length = w := by
  induction w with
  | zero => rfl
  | succ w ih => simp [intToBits, ih]

theorem bitsToInt_intToBits_mod (v w : Nat) : bitsToInt (intToBits v w) = v % 2 ^ w := by
  induction w with
  | zero => simp [intToBits, Nat.mod_one]
  | succ w ih =>
    rw [intToBits, bitsToInt_cons, length_intToBits, ih, Nat.mod_pow_succ, Nat.testBit_eq_decide_div_mod_eq]
    rcases Nat.mod_two_eq_zero_or_one (v / 2 ^ w) with h | h
    · simp [h]
    · simp [h]
      ring

/-- Reading back a written vector gives the value (R101). -/
theorem bitsToInt_intToBits {v w : Nat} (h : v < 2 ^ w) : bitsToInt (intToBits v w) = v := by
  rw [bitsToInt_intToBits_mod, Nat.mod_eq_of_lt h]

/-- Writing back a read vector gives the vector. -/
theorem intToBits_bitsToInt (b : Bits) : intToBits (bitsToInt b) b.length = b := by
  have key : ∀ (b : Bits) (m : Nat), intToBits (m * 2 ^ b.length + bitsToInt b) b.length = b := by
    intro b
    induction b with
    | nil => intro m; rfl
    | cons x b ih =>
      intro m
      have hx : m * 2 ^ (b.length + 1) + (x.toNat * 2 ^ b.length + bitsToInt b)
          = (m * 2 + x.toNat) * 2 ^ b.length + bitsToInt b := by ring
      rw [bitsToInt_cons, List.length_cons, intToBits, hx, ih]
      congr 1
      rw [Nat.testBit_eq_decide_div_mod_eq, Nat.add_comm, Nat.add_mul_div_right _ _ (Nat.two_pow_pos _),
        Nat.div_eq_of_lt (bitsToInt_lt b)]
      cases x <;> simp [Nat.add_mod]
  simpa using key b 0

/-- What the group loop of R130 and R140 does: with n ≥ 1 and enough rounds it takes the ⌊len/n⌋ complete groups in order
and leaves the rest. -/
theorem splitGroups_eq {n : Nat} (hn : 1 ≤ n) (fuel : Nat) (s : Bits) (hf : s.length ≤ fuel) :
    splitGroups n fuel s =
      ((List.range (s.length / n)).map (fun j => (s.drop (j * n)).take n), s.drop (s.length / n * n)) := by
  induction fuel generalizing s with
  | zero =>
    have : s = [] := List.length_eq_zero_iff.mp (by omega)
    subst this
    simp [splitGroups]
  | succ fuel ih =>
    unfold splitGroups
    split
    · rename_i hle
      have hlen : (s.drop n).length = s.length - n := by simp
      rw [ih (s.drop n) (by omega)]
      have hdiv : s.length / n = (s.length - n) / n + 1 := Nat.div_eq_sub_div (by omega) hle
      rw [hlen, hdiv, List.range_succ_eq_map]
      simp [List.drop_drop, Nat.add_mul, Nat.add_comm, Function.comp_def]
    · rename_i hlt
      have : s.length / n = 0 := Nat.div_eq_of_lt (by omega)
      simp [this]

theorem splitGroups_groups_length {n : Nat} (hn : 1 ≤ n) (s : Bits) :
    (splitGroups n s.length s).1.length = s.length / n := by
  simp [splitGroups_eq hn s.length s le_rfl]

theorem splitGroups_rest_length {n : Nat} (hn : 1 ≤ n) (s : Bits) :
    (splitGroups n s.length s).2.length = s.length % n := by
  rw [splitGroups_eq hn s.length s le_rfl]
  simp only [List.length_drop]
  have := Nat.div_add_mod s.length n
  rw [Nat.mul_comm] at this
  omega

/-- The bits that remain of the group loop do not fill a group (R130, R140). -/
theorem splitGroups_rest_lt {n : Nat} (hn : 1 ≤ n) (s : Bits) : (splitGroups n s.length s).2.length < n := by
  rw [splitGroups_rest_length hn]
  exact Nat.mod_lt _ hn

theorem minw_pos (v : Nat) : 1 ≤ minw v := by
  unfold minw
  split <;> omega

theorem lt_two_pow_minw (v : Nat) : v < 2 ^ minw v := by
  unfold minw
  split
  · simp_all
  · exact Nat.lt_log2_self

end Sys2Proof.Machine
end

