-- ==== Sys2Proof/Laws/Ops.lean ====
section
/-! SUPPORT. One lemma for each shared operation that says all it can answer. -/

namespace Sys2Proof.Machine

/-- A failing command always goes on, in the state `raise` gives (R171, R174). -/
theorem fail_eq_next_iff {e : Err} {i : Instr} {s t : State} : fail e i s = .next t ↔ t = s.raise e i.word := by
  simp [fail, eq_comm]

/-- Every error code is one of 1 to 6 (R170). -/
theorem Err.code_range (e : Err) : 1 ≤ e.code.toNat ∧ e.code.toNat ≤ 6 := by cases e <;> decide

/-- The state after the index of a sample is chosen: unchanged, but for the draw a zero sample takes (R140, R143). -/
theorem chooseIndex_state (s : State) (re im : F32) :
    (s.chooseIndex re im).2 = s ∨ (s.chooseIndex re im).2 = s.drawn := by
  unfold State.chooseIndex
  split
  · exact .inr rfl
  · exact .inl rfl

/-- All that the success path of SLICE can answer (R140). -/
theorem sliceIndex_next {s t : State} {k : Nat} (h : s.sliceIndex k = .next t) :
    ∃ v, s.ord[k]? = some v ∧
      t = (s.packBits (intToBits v s.cfg.logn.toNat)).ok
        (sliceData (splitGroups 8 (s.dacc ++ intToBits v s.cfg.logn.toNat).length (s.dacc ++ intToBits v s.cfg.logn.toNat)).2.length
          (splitGroups 8 (s.dacc ++ intToBits v s.cfg.logn.toNat).length (s.dacc ++ intToBits v s.cfg.logn.toNat)).1.length v k) := by
  unfold State.sliceIndex at h
  split at h
  · cases h
  · rename_i v hv
    injection h with h
    exact ⟨v, hv, h.symm⟩

/-- All that the success path of PUSH can answer (R130). -/
theorem pushBits_next {s t : State} {b : Bits} (h : s.pushBits b = .next t) :
    s.cfg.logn ≠ 0#4 ∧ ∃ xs, s.symbolsOf (splitGroups s.cfg.logn.toNat (s.macc ++ b).length (s.macc ++ b)).1 = .ok xs ∧
      t = ((s.emitSout xs).setMacc (splitGroups s.cfg.logn.toNat (s.macc ++ b).length (s.macc ++ b)).2).ok
        (pushData (splitGroups s.cfg.logn.toNat (s.macc ++ b).length (s.macc ++ b)).2.length xs.length) := by
  unfold State.pushBits at h
  dsimp only at h
  split at h
  · cases h
  · rename_i hn
    split at h
    · cases h
    · rename_i xs hx
      injection h with h
      exact ⟨hn, xs, hx, h.symm⟩

/-- The symbol of a group whose slots hold values (R130). -/
theorem symbolOf_ok {s : State} {g : Bits} {k u : Nat}
    (hk : (if s.cfg.gray then s.inv[bitsToInt g]? else some (bitsToInt g)) = some k) (hu : s.ph[k]? = some u) :
    s.symbolOf g = .ok ⟨BitVec.ofNat 16 k, (symvalOf s.params s.cfg.order.toNat u).1,
      (symvalOf s.params s.cfg.order.toNat u).2⟩ := by
  simp only [State.symbolOf, hk, hu]

/-- One symbol a group, in order (R130). -/
theorem symbolsOf_length {s : State} {gs : List Bits} {xs : List Sample} (h : s.symbolsOf gs = .ok xs) :
    xs.length = gs.length := by
  induction gs generalizing xs with
  | nil => cases h; rfl
  | cons g gs ih =>
    simp only [State.symbolsOf] at h
    split at h
    · cases h
    · split at h
      · cases h
      · rename_i ys hy
        injection h with h
        rw [← h, List.length_cons, List.length_cons, ih hy]

/-- RDREG names no register for 5 to 15 only (R27, R161). -/
theorem register?_eq_none_iff {s : State} {rn : BitVec 4} : s.register? rn = none ↔ 5 ≤ rn.toNat := by
  unfold State.register?
  split <;> simp_all
  omega

/-- The width a format V command uses: all the cases of R103 and R130. -/
theorem effectiveWidth_cases (v : BitVec 16) (w : BitVec 5) :
    (w = 0#5 ∧ effectiveWidth v w = some (minw v.toNat)) ∨
    (w ≠ 0#5 ∧ 2 ^ w.toNat ≤ v.toNat ∧ effectiveWidth v w = none) ∨
    (w ≠ 0#5 ∧ v.toNat < 2 ^ w.toNat ∧ effectiveWidth v w = some w.toNat) := by
  unfold effectiveWidth
  split
  · exact .inl ⟨‹_›, rfl⟩
  · split
    · exact .inr (.inl ⟨‹_›, ‹_›, rfl⟩)
    · exact .inr (.inr ⟨‹_›, by omega, rfl⟩)

/-- What an order log is (R111). -/
theorem orderLog?_eq_some {m n : Nat} {q : BitVec 16} (h : orderLog? m q = some n) :
    1 ≤ n ∧ n ≤ m ∧ q.toInt = 2 ^ n := by
  have hm := List.mem_of_find?_eq_some h
  have hq := List.find?_some h
  simp only [List.mem_range'_1, decide_eq_true_eq] at hm hq
  exact ⟨hm.1, by omega, hq⟩

/-- A signed 16-bit order 2^n has n ≤ 14 (R73). -/
theorem order_log_le {q : BitVec 16} {n : Nat} (h : q.toInt = 2 ^ n) : n ≤ 14 := by
  by_contra hn
  have hp : (2 : ℤ) ^ 15 ≤ 2 ^ n := by exact_mod_cast Nat.pow_le_pow_right (by norm_num) (by omega)
  have hq := q.isLt
  rw [BitVec.toInt_eq_toNat_cond] at h
  split at h <;> omega

/-- The Gray rows after m steps: 2^(m+1) of them, each of m + 1 bits (R113). -/
theorem grayRows_shape (m : Nat) : (grayRows m).length = 2 ^ (m + 1) ∧ ∀ r ∈ grayRows m, r.length = m + 1 := by
  induction m with
  | zero => simp [grayRows]
  | succ m ih =>
    obtain ⟨hl, hr⟩ := ih
    simp only [grayRows, grayStep, List.length_append, List.length_map, List.length_reverse, hl, List.mem_append,
      List.mem_map, List.mem_reverse]
    refine ⟨by rw [pow_succ 2 (m + 1)]; omega, ?_⟩
    rintro r (⟨x, hx, rfl⟩ | ⟨x, hx, rfl⟩) <;> simp [hr x hx]

@[simp] theorem length_fillInverse (o : List Nat) (k : Nat) (inv : List Nat) :
    (fillInverse o k inv).length = inv.length := by
  induction o generalizing k inv with
  | nil => rfl
  | cons v o ih => simp [fillInverse, ih]

/-- The loop of R115 leaves a slot it does not name as it was. -/
theorem fillInverse_other (o : List Nat) (k : Nat) (inv : List Nat) (v : Nat) (h : v ∉ o) :
    (fillInverse o k inv)[v]? = inv[v]? := by
  induction o generalizing k inv with
  | nil => rfl
  | cons x o ih =>
    simp only [List.mem_cons, not_or] at h
    rw [fillInverse, ih _ _ h.2, List.getElem?_set_ne (Ne.symm h.1)]

/-- The loop of R115 over entries without repeats writes the index of each. -/
theorem fillInverse_at (o : List Nat) (k : Nat) (inv : List Nat) (hnd : o.Nodup) (hl : ∀ v ∈ o, v < inv.length)
    (j v : Nat) (h : o[j]? = some v) : (fillInverse o k inv)[v]? = some (k + j) := by
  induction o generalizing k inv j with
  | nil => simp at h
  | cons x o ih =>
    rw [List.nodup_cons] at hnd
    cases j with
    | zero =>
      simp only [List.getElem?_cons_zero, Option.some.injEq] at h
      subst h
      rw [fillInverse, fillInverse_other _ _ _ _ hnd.1]
      simp [hl x (by simp)]
    | succ j =>
      rw [fillInverse, ih (k + 1) (inv.set x k) hnd.2 (fun v hv => by simpa using hl v (by simp [hv])) j (by simpa using h)]
      congr 1
      omega

end Sys2Proof.Machine
end

