-- ==== Sys2Proof/Laws/Exec.lean ====
section
/-! SUPPORT. What running an instruction can answer, said once over all ten, and what the invariant says of a configured
block in numbers. -/

namespace Sys2Proof.Machine

/-- Whatever a command answers, it fails as R171 says, or it is a CFG that fails with CFGERR, or it appends one successful
response and leaves STATUS, but for CLRERR (R34, R170 to R172). -/
theorem exec_next {i : Instr} {s t : State} (h : exec i s = .next t) :
    (∃ e, t = s.raise e i.word) ∨
    (∃ nreq gray, i = .cfg nreq gray ∧ t = (((s.setMacc []).setDacc []).dropConfig).raise .cfgerr i.word) ∨
    (∃ d, t.responses = s.responses ++ [⟨okCode, d⟩] ∧
      (t.status = s.status ∨ (i = .clrerr ∧ t.status = StatusReg.clear))) := by
  have failed : ∀ {e : Err}, fail e i s = .next t → ∃ e, t = s.raise e i.word :=
    fun {e} he => ⟨e, fail_eq_next_iff.1 he⟩
  cases i with
  | nop => cases h; exact .inr (.inr ⟨_, rfl, .inl rfl⟩)
  | clrerr => cases h; exact .inr (.inr ⟨_, rfl, .inr ⟨rfl, rfl⟩⟩)
  | mend => cases h; exact .inr (.inr ⟨_, rfl, .inl rfl⟩)
  | dend => cases h; exact .inr (.inr ⟨_, rfl, .inl rfl⟩)
  | cfg nreq gray =>
    simp only [exec, execCfg] at h
    split at h
    · exact .inr (.inl ⟨nreq, gray, rfl, fail_eq_next_iff.1 h⟩)
    · cases h; exact .inr (.inr ⟨_, rfl, .inl rfl⟩)
  | rdreg rn =>
    simp only [exec, execRdreg] at h
    split at h
    · exact .inl (failed h)
    · cases h; exact .inr (.inr ⟨_, rfl, .inl rfl⟩)
  | i2b v w =>
    simp only [exec, execI2b] at h
    split at h
    · exact .inl (failed h)
    · split at h
      · exact .inl (failed h)
      · cases h; exact .inr (.inr ⟨_, rfl, .inl rfl⟩)
  | rdtab tab idx =>
    simp only [exec, execRdtab] at h
    split at h
    · exact .inl (failed h)
    · split at h
      · exact .inl (failed h)
      · split at h
        · cases h
        · cases h; exact .inr (.inr ⟨_, rfl, .inl rfl⟩)
  | push v w =>
    simp only [exec, execPush] at h
    split at h
    · exact .inl (failed h)
    · split at h
      · exact .inl (failed h)
      · split at h
        · exact .inl (failed h)
        · obtain ⟨-, xs, -, rfl⟩ := pushBits_next h
          exact .inr (.inr ⟨_, rfl, .inl rfl⟩)
  | slice re im =>
    simp only [exec, execSlice] at h
    split at h
    · exact .inl (failed h)
    · split at h
      · exact .inl (failed h)
      · obtain ⟨v, -, rfl⟩ := sliceIndex_next h
        rcases chooseIndex_state s re im with hc | hc <;> rw [hc] <;> exact .inr (.inr ⟨_, rfl, .inl rfl⟩)

/-- The fields of a configured block, and its tables by LOGN and GRAY (R22, R28 to R30, R37). -/
theorem State.Inv.configured_fields {s : State} (h : s.Inv) (hv : s.cfg.valid = true) :
    1 ≤ s.cfg.logn.toNat ∧ s.cfg.logn.toNat ≤ s.params.lognMax ∧ s.cfg.logn.toNat ≤ 14 ∧
    s.cfg.order.toNat = 2 ^ s.cfg.logn.toNat ∧ s.cfg.rot = decide (s.cfg.order.toNat ≠ 2) ∧
    s.ord = orderTable s.cfg.logn.toNat s.cfg.gray ∧ s.inv = inverseTable s.ord ∧
    s.ph = phaseTable s.cfg.order.toNat s.cfg.rot := by
  obtain ⟨n, h1, h2, hc, ho, hi, hp, -⟩ := h.configured hv
  have h14 : n ≤ 14 := Nat.le_trans h2 h.params.2.1
  have hn : s.cfg.logn.toNat = n := by rw [hc]; simp [configReg]; omega
  have hN : s.cfg.order.toNat = 2 ^ n := by
    rw [hc]
    simp only [configReg, BitVec.toNat_ofNat]
    exact Nat.mod_eq_of_lt (Nat.pow_lt_pow_right (by decide) (by omega))
  have hr : s.cfg.rot = decide (2 ^ n ≠ 2) := by rw [hc]; rfl
  exact ⟨by omega, by omega, by omega, by rw [hn, hN], by rw [hr, hN], by rw [ho, hn], hi, by rw [hp, hN, hr]⟩

end Sys2Proof.Machine
end

