-- ==== Sys2Proof/Laws/Formats.lean ====
section
/-! SUPPORT. The lengths of the host's files, and that a record reads back. -/

namespace Sys2Proof.Machine

@[simp] theorem length_recordBytes (d : DWord) : (recordBytes d).length = 8 := by simp [recordBytes]

@[simp] theorem symbolFile_nil : symbolFile [] = [] := rfl

@[simp] theorem symbolFile_cons (x : Sample) (l : List Sample) :
    symbolFile (x :: l) = recordBytes (sampleWord x.re x.im) ++ symbolFile l := by simp [symbolFile]

theorem length_symbolFile (l : List Sample) : (symbolFile l).length = 8 * l.length := by
  induction l with
  | nil => rfl
  | cons x l ih => rw [symbolFile_cons, List.length_append, length_recordBytes, ih, List.length_cons]; omega

@[simp] theorem length_byteBits (b : Byte) : (byteBits b).length = 8 := length_intToBits _ _

@[simp] theorem bitStream_nil : bitStream [] = [] := rfl

@[simp] theorem bitStream_cons (b : Byte) (l : List Byte) : bitStream (b :: l) = byteBits b ++ bitStream l := by
  simp [bitStream]

theorem length_bitStream (l : List Byte) : (bitStream l).length = 8 * l.length := by
  induction l with
  | nil => rfl
  | cons b l ih => rw [bitStream_cons, List.length_append, length_byteBits, ih, List.length_cons]; omega

/-- Byte i of a record is the number's digit i in base 256 (R54). -/
theorem toNat_recordBytes {d : DWord} {i : Nat} (hi : i < 8) :
    (recordBytes d)[i]? = some (BitVec.ofNat 8 (d.toNat / 2 ^ (8 * i))) := by
  rw [recordBytes, List.getElem?_map, List.getElem?_range hi, Option.map_some]
  congr 1
  apply BitVec.eq_of_toNat_eq
  simp [BitVec.extractLsb'_toNat, Nat.shiftRight_eq_div_pow]

/-- A record is read back as its number (R54). -/
theorem littleEndian_recordBytes (d : DWord) : littleEndian (recordBytes d) = d.toNat := by
  have h := d.isLt
  simp [recordBytes, List.range_succ, littleEndian, BitVec.extractLsb'_toNat, Nat.shiftRight_eq_div_pow]
  omega

/-- The bits of a byte's vector make up the byte again (R55). -/
theorem bitsToInt_byteBits (b : Byte) : bitsToInt (byteBits b) = b.toNat := bitsToInt_intToBits b.isLt

end Sys2Proof.Machine
end

