-- ==== Sys2Proof/Laws/Invariant.lean ====
section
/-! SUPPORT. What the invariant does not depend on: the host's inputs, what it has taken, the outputs, the draws. -/

namespace Sys2Proof.Machine

/-- The invariant speaks of the parameters, CFG, STATUS, MACC, DACC and the tables only. -/
theorem State.Inv.of_same_block {s t : State} (h : s.Inv) (hp : t.params = s.params) (hc : t.cfg = s.cfg)
    (hs : t.status = s.status) (hm : t.macc = s.macc) (hd : t.dacc = s.dacc) (ho : t.ord = s.ord) (hi : t.inv = s.inv)
    (hph : t.ph = s.ph) : t.Inv where
  params := hp ▸ h.params
  unconfigured := by rw [hc, ho, hi, hph, hm, hd]; exact h.unconfigured
  configured := by rw [hc, ho, hi, hph, hm, hp]; exact h.configured
  dacc := hd ▸ h.dacc
  errCode := hs ▸ h.errCode
  lastErr := hs ▸ h.lastErr

theorem State.Inv.with_inputs {s : State} (h : s.Inv) (l : List HostInput) : ({ s with inputs := l } : State).Inv :=
  h.of_same_block rfl rfl rfl rfl rfl rfl rfl rfl

theorem State.Inv.respond {s : State} (h : s.Inv) (st : BitVec 4) (d : DWord) : (s.respond st d).Inv :=
  h.of_same_block rfl rfl rfl rfl rfl rfl rfl rfl

theorem State.Inv.emitSout {s : State} (h : s.Inv) (l : List Sample) : (s.emitSout l).Inv :=
  h.of_same_block rfl rfl rfl rfl rfl rfl rfl rfl

theorem State.Inv.emitBout {s : State} (h : s.Inv) (l : List Byte) : (s.emitBout l).Inv :=
  h.of_same_block rfl rfl rfl rfl rfl rfl rfl rfl

theorem State.Inv.drawn {s : State} (h : s.Inv) : s.drawn.Inv := h.of_same_block rfl rfl rfl rfl rfl rfl rfl rfl

end Sys2Proof.Machine
end

