-- ==== Sys2Proof/Laws/Params.lean ====
section
/-! SUPPORT. The plain-data parameters lose nothing: every SYMVAL and every SLICEDEC of 00_scope.md R8 is the one that some
value of `Params` gives, and every real SYM_TOL and SLICE_TOL accepts what some rational one accepts (log entry 2). -/

namespace Sys2Proof.Machine

/-- The points (N, u) at which the block asks for a symbol value: N = 2^n with n ≤ 14, u in 0..2N−1 (R8, R22). -/
def symvalPoints : List (Nat × Nat) :=
  (List.range 15).flatMap (fun n => (List.range (2 * 2 ^ n)).map (fun u => (2 ^ n, u)))

theorem mem_symvalPoints {n u : Nat} (hn : n ≤ 14) (hu : u < 2 * 2 ^ n) : (2 ^ n, u) ∈ symvalPoints :=
  List.mem_flatMap.2 ⟨n, List.mem_range.2 (by omega), List.mem_map.2 ⟨u, List.mem_range.2 hu, rfl⟩⟩

/-- Looking a key up in a list made by a function of keys finds the entry of that key. -/
theorem find?_map_key {κ ε : Type} (entry : κ → ε) (isKey : κ → ε → Bool) (keys : List κ) {k : κ} (hk : k ∈ keys)
    (hself : isKey k (entry k) = true) (hother : ∀ k', isKey k (entry k') = true → k' = k) :
    (keys.map entry).find? (isKey k) = some (entry k) := by
  induction keys with
  | nil => cases hk
  | cons k' rest ih =>
    by_cases h : k' = k
    · subst h; simp [hself]
    · have : isKey k (entry k') = false := by
        cases hb : isKey k (entry k') with
        | false => rfl
        | true => exact absurd (hother k' hb) h
      simp only [List.map_cons, List.find?_cons, this]
      exact ih ((List.mem_cons.1 hk).resolve_left (fun e => h e.symm))

/-- Every SYMVAL is the one some parameters give, at every point the block asks for (R8). -/
theorem every_symval_is_modelled (f : Nat → Nat → F32 × F32) (p : Params) :
    ∃ q : Params, q.lognMax = p.lognMax ∧ q.decTail = p.decTail ∧ q.slicedec = p.slicedec ∧
      q.symTol = p.symTol ∧ q.sliceTol = p.sliceTol ∧
      ∀ n u : Nat, n ≤ 14 → u < 2 * 2 ^ n → symvalOf q (2 ^ n) u = f (2 ^ n) u := by
  refine ⟨{ p with symval := symvalPoints.map (fun k => ⟨k.1, k.2, (f k.1 k.2).1, (f k.1 k.2).2⟩) }, rfl, rfl, rfl, rfl, rfl, ?_⟩
  intro n u hn hu
  have h := find?_map_key (fun k : Nat × Nat => (⟨k.1, k.2, (f k.1 k.2).1, (f k.1 k.2).2⟩ : SymvalEntry))
    (fun k e => decide (e.order = k.1 ∧ e.u = k.2)) symvalPoints (mem_symvalPoints hn hu) (by simp)
    (by intro k' hk'; simp only [decide_eq_true_eq] at hk'; exact Prod.ext hk'.1 hk'.2)
  simp only [symvalOf, h]

/-- Every pattern of `w` bits. -/
def allPatterns (w : Nat) : List (BitVec w) := (List.range (2 ^ w)).map (BitVec.ofNat w)

theorem mem_allPatterns {w : Nat} (x : BitVec w) : x ∈ allPatterns w :=
  List.mem_map.2 ⟨x.toNat, List.mem_range.2 x.isLt, by simp⟩

/-- The samples (N, ROT, re, im) of `w`-bit patterns on which a decision can be asked. -/
def slicedecPoints (w : Nat) : List (Nat × Bool × BitVec w × BitVec w) :=
  (List.range 15).flatMap (fun n => [false, true].flatMap (fun rot =>
    (allPatterns w).flatMap (fun re => (allPatterns w).map (fun im => (2 ^ n, rot, re, im)))))

theorem mem_slicedecPoints {w n : Nat} (hn : n ≤ 14) (rot : Bool) (re im : BitVec w) :
    (2 ^ n, rot, re, im) ∈ slicedecPoints w :=
  List.mem_flatMap.2 ⟨n, List.mem_range.2 (by omega),
    List.mem_flatMap.2 ⟨rot, by cases rot <;> simp,
      List.mem_flatMap.2 ⟨re, mem_allPatterns re, List.mem_map.2 ⟨im, mem_allPatterns im, rfl⟩⟩⟩⟩

/-- A finite list holds every sample on which a decision can be asked, and orders 2^n only. -/
theorem exists_slicedecPoints (w : Nat) :
    ∃ keys : List (Nat × Bool × BitVec w × BitVec w),
      (∀ n rot re im, n ≤ 14 → (2 ^ n, rot, re, im) ∈ keys) ∧ ∀ k ∈ keys, ∃ n, k.1 = 2 ^ n := by
  refine ⟨slicedecPoints w, fun n rot re im hn => mem_slicedecPoints hn rot re im, ?_⟩
  intro k hk
  obtain ⟨n, -, hk⟩ := List.mem_flatMap.1 hk
  obtain ⟨rot, -, hk⟩ := List.mem_flatMap.1 hk
  obtain ⟨re, -, hk⟩ := List.mem_flatMap.1 hk
  obtain ⟨im, -, rfl⟩ := List.mem_map.1 hk
  exact ⟨n, rfl⟩

/-- Every SLICEDEC that answers in 0..N−1 is the one some legal parameters give, on every sample (R8). -/
theorem every_slicedec_is_modelled (f : Nat → Bool → F32 → F32 → Nat) (p : Params) (hp : p.Legal)
    (hf : ∀ n rot re im, f (2 ^ n) rot re im < 2 ^ n) :
    ∃ q : Params, q.Legal ∧ q.lognMax = p.lognMax ∧ q.decTail = p.decTail ∧ q.symval = p.symval ∧
      q.symTol = p.symTol ∧ q.sliceTol = p.sliceTol ∧
      ∀ n rot re im, n ≤ 14 → slicedecOf q (2 ^ n) rot re im = f (2 ^ n) rot re im := by
  obtain ⟨keys, hmem, hpow⟩ := exists_slicedecPoints 32
  let entry : Nat × Bool × F32 × F32 → SlicedecEntry :=
    fun k => ⟨k.1, k.2.1, k.2.2.1, k.2.2.2, f k.1 k.2.1 k.2.2.1 k.2.2.2⟩
  refine ⟨{ p with slicedec := keys.map entry }, ⟨hp.1, hp.2.1, ?_, hp.2.2.2⟩, rfl, rfl, rfl, rfl, rfl, ?_⟩
  · intro e he
    obtain ⟨k, hk, rfl⟩ := List.mem_map.1 he
    obtain ⟨n, hn⟩ := hpow k hk
    simp only [entry, hn]
    exact hf n _ _ _
  · intro n rot re im hn
    have h := find?_map_key entry
      (fun k e => decide (e.order = k.1 ∧ e.rot = k.2.1 ∧ e.re = k.2.2.1 ∧ e.im = k.2.2.2)) keys
      (hmem n rot re im hn) (by simp [entry])
      (by
        intro k' hk'
        simp only [decide_eq_true_eq, entry] at hk'
        exact Prod.ext hk'.1 (Prod.ext hk'.2.1 (Prod.ext hk'.2.2.1 hk'.2.2.2)))
    simp only [slicedecOf, h, entry]

/-! ### The tolerances -/

/-- A tolerance that is compared by ≤ with finitely many distances may be taken rational. -/
theorem exists_rat_above {E : Set ℝ} (hE : E.Finite) {τ : ℝ} (h0 : 0 ≤ τ) :
    ∃ q : ℚ, 0 ≤ q ∧ ∀ e ∈ E, e ≤ τ ↔ e ≤ q := by
  obtain ⟨m, hm, hE'⟩ : ∃ m, τ < m ∧ ∀ e ∈ E, τ < e → m ≤ e := by
    induction E, hE using Set.Finite.induction_on with
    | empty => exact ⟨τ + 1, by linarith, fun e he => he.elim⟩
    | @insert a E _ _ ih =>
      obtain ⟨m, hm, ih⟩ := ih
      refine ⟨if τ < a then min m a else m, ?_, ?_⟩
      · split
        · exact lt_min hm ‹_›
        · exact hm
      · rintro e (rfl | he) hlt
        · rw [if_pos hlt]; exact min_le_right _ _
        · split
          · exact (min_le_left _ _).trans (ih e he hlt)
          · exact ih e he hlt
  obtain ⟨q, h1, h2⟩ := exists_rat_btwn hm
  refine ⟨q, by exact_mod_cast h0.trans h1.le, fun e he => ⟨fun h => h.trans h1.le, fun h => ?_⟩⟩
  by_contra hc
  exact absurd (hE' e he (not_le.1 hc)) (not_le.2 (h.trans_lt h2))

/-- A tolerance that is compared by < with finitely many distances may be taken rational. -/
theorem exists_rat_below {E : Set ℝ} (hE : E.Finite) {τ : ℝ} (h0 : 0 ≤ τ) :
    ∃ q : ℚ, 0 ≤ q ∧ (q : ℝ) ≤ τ ∧ ∀ e ∈ E, e < τ ↔ e < q := by
  rcases h0.eq_or_lt with rfl | hpos
  · exact ⟨0, le_rfl, by simp, fun e _ => by simp⟩
  obtain ⟨m, hm, hE'⟩ : ∃ m, m < τ ∧ ∀ e ∈ E, e < τ → e ≤ m := by
    induction E, hE using Set.Finite.induction_on with
    | empty => exact ⟨0, hpos, fun e he => he.elim⟩
    | @insert a E _ _ ih =>
      obtain ⟨m, hm, ih⟩ := ih
      refine ⟨if a < τ then max m a else m, ?_, ?_⟩
      · split
        · exact max_lt hm ‹_›
        · exact hm
      · rintro e (rfl | he) hlt
        · rw [if_pos hlt]; exact le_max_right _ _
        · split
          · exact (ih e he hlt).trans (le_max_left _ _)
          · exact ih e he hlt
  obtain ⟨q, h1, h2⟩ := exists_rat_btwn (max_lt hm hpos)
  exact ⟨q, by exact_mod_cast (le_max_right m 0).trans h1.le, h2.le, fun e he =>
    ⟨fun h => (hE' e he h).trans_lt ((le_max_left m 0).trans_lt h1), fun h => h.trans h2⟩⟩

/-- The distances SYM_TOL is compared with (R121) are finitely many. -/
theorem symval_distances_finite {w : Nat} (val : BitVec w → ℝ) (target : Bool → ℕ → ℕ → ℝ) :
    {e | ∃ (x : BitVec w) (part : Bool) (n u : ℕ), n ≤ 14 ∧ u < 2 * 2 ^ n ∧ e = |val x - target part n u|}.Finite := by
  have : Finite (BitVec w) := Finite.of_injective BitVec.toFin fun _ _ h => BitVec.toFin_inj.1 h
  refine (Set.finite_range fun k : BitVec w × Bool × Fin 15 × Fin (2 * 2 ^ 14) =>
    |val k.1 - target k.2.1 k.2.2.1 k.2.2.2|).subset ?_
  rintro e ⟨x, part, n, u, hn, hu, rfl⟩
  have h : 2 ^ n ≤ 2 ^ 14 := Nat.pow_le_pow_right (by decide) hn
  exact ⟨(x, part, ⟨n, by omega⟩, ⟨u, by omega⟩), rfl⟩

/-- Every real SYM_TOL ≥ 0 accepts exactly the patterns that some rational one accepts, at every order and phase (R121). -/
theorem every_symTol_is_modelled (τ : ℝ) (h0 : 0 ≤ τ) :
    ∃ q : ℚ, 0 ≤ q ∧ ∀ (x : F32) (n u : ℕ), n ≤ 14 → u < 2 * 2 ^ n →
      (|((f32Rat x : ℚ) : ℝ) - Real.cos (u * Real.pi / 2 ^ n)| ≤ τ ↔ |((f32Rat x : ℚ) : ℝ) - Real.cos (u * Real.pi / 2 ^ n)| ≤ q) ∧
      (|((f32Rat x : ℚ) : ℝ) - Real.sin (u * Real.pi / 2 ^ n)| ≤ τ ↔ |((f32Rat x : ℚ) : ℝ) - Real.sin (u * Real.pi / 2 ^ n)| ≤ q) := by
  obtain ⟨q, hq, h⟩ := exists_rat_above (symval_distances_finite (fun x : F32 => ((f32Rat x : ℚ) : ℝ))
    (fun part n u => if part then Real.cos (u * Real.pi / 2 ^ n) else Real.sin (u * Real.pi / 2 ^ n))) h0
  exact ⟨q, hq, fun x n u hn hu => ⟨h _ ⟨x, true, n, u, hn, hu, by simp⟩, h _ ⟨x, false, n, u, hn, hu, by simp⟩⟩⟩

/-- A sample has one position t (R141). -/
theorem slicer_position_eq {n : ℕ} {rot : Bool} {re im : F32} {t : ℝ} (h : IsSlicerPosition n rot re im t) :
    t = (Complex.arg ⟨((f32Rat re : ℚ) : ℝ), ((f32Rat im : ℚ) : ℝ)⟩ - rot.toNat * Real.pi / 2 ^ n) / (2 * Real.pi / 2 ^ n) :=
  (eq_div_iff (by have := Real.pi_pos; positivity)).2 h

/-- The distance from the nearest half-integer is the one from ⌊t⌋ + ½, whichever nearest half-integer is taken. -/
theorem half_integer_distance {t : ℝ} {m : ℤ} (h : |t - (m + 1 / 2)| ≤ 1 / 2) :
    |t - (m + 1 / 2)| = |t - (⌊t⌋ + 1 / 2)| := by
  obtain ⟨h1, h2⟩ := abs_le.1 h
  rcases (show t ≤ m + 1 by linarith).eq_or_lt with rfl | hlt
  · have : ⌊((m : ℝ) + 1)⌋ = m + 1 := by rw [← Int.cast_one, ← Int.cast_add, Int.floor_intCast]
    rw [this]
    push_cast
    rw [show (m : ℝ) + 1 - (m + 1 / 2) = 1 / 2 by ring, show (m : ℝ) + 1 - (m + 1 + 1 / 2) = -(1 / 2) by ring, abs_neg]
  · rw [Int.floor_eq_iff.2 ⟨by linarith, hlt⟩]

/-- The distances SLICE_TOL is compared with (R142) are finitely many. -/
theorem slicer_distances_finite {w : Nat} (position : ℕ → Bool → BitVec w → BitVec w → ℝ) :
    {e | ∃ (n : ℕ) (rot : Bool) (re im : BitVec w), n ≤ 14 ∧
      e = |position n rot re im - (⌊position n rot re im⌋ + 1 / 2)|}.Finite := by
  have : Finite (BitVec w) := Finite.of_injective BitVec.toFin fun _ _ h => BitVec.toFin_inj.1 h
  refine (Set.finite_range fun k : Fin 15 × Bool × BitVec w × BitVec w =>
    |position k.1 k.2.1 k.2.2.1 k.2.2.2 - (⌊position k.1 k.2.1 k.2.2.1 k.2.2.2⌋ + 1 / 2)|).subset ?_
  rintro e ⟨n, rot, re, im, hn, rfl⟩
  exact ⟨(⟨n, by omega⟩, rot, re, im), rfl⟩

/-- Every real SLICE_TOL in [0, 1/2) has the same band as some rational one, on every sample (R142). -/
theorem every_sliceTol_is_modelled (τ : ℝ) (h0 : 0 ≤ τ) (h1 : τ < 1 / 2) :
    ∃ q : ℚ, 0 ≤ q ∧ q < 1 / 2 ∧ ∀ (n : ℕ) (rot : Bool) (re im : F32) (t : ℝ) (m : ℤ), n ≤ 14 →
      IsSlicerPosition n rot re im t → |t - (m + 1 / 2)| ≤ 1 / 2 → (|t - (m + 1 / 2)| < τ ↔ |t - (m + 1 / 2)| < q) := by
  obtain ⟨q, hq0, hq1, h⟩ := exists_rat_below (slicer_distances_finite (fun n rot (re im : F32) =>
    (Complex.arg ⟨((f32Rat re : ℚ) : ℝ), ((f32Rat im : ℚ) : ℝ)⟩ - rot.toNat * Real.pi / 2 ^ n) / (2 * Real.pi / 2 ^ n))) h0
  refine ⟨q, hq0, ?_, fun n rot re im t m hn ht hm => ?_⟩
  · have : ((q : ℚ) : ℝ) < ((1 / 2 : ℚ) : ℝ) := by push_cast; exact hq1.trans_lt h1
    exact_mod_cast this
  · rw [half_integer_distance hm, slicer_position_eq ht]
    exact h _ ⟨n, rot, re, im, hn, rfl⟩

end Sys2Proof.Machine
end

