-- ==== Sys2Proof/Laws/PerInstr.lean ====
section
/-! SUPPORT. Statements about every instruction as syntax, one lemma per constructor: its word is in the row of the opcode map
that carries its mnemonic (30_encoding.md R77). -/

namespace Sys2Proof.Laws.MatchesRow

/-- The mask of the instruction's row (R77). -/
def mask : Instr → Word
  | .nop | .mend | .slice _ _ | .dend | .clrerr => 0xFFFFFFFF#32
  | .cfg _ _ => 0xFFFE0000#32
  | .push _ _ | .i2b _ _ => 0xFFE00000#32
  | .rdtab _ _ => 0xFFFC0000#32
  | .rdreg _ => 0xFFFFFFF0#32

/-- The match value of the instruction's row (R77). -/
def rowMatch : Instr → Word
  | .nop => 0x00000000#32
  | .cfg _ _ => 0x10000000#32
  | .push _ _ => 0x20000000#32
  | .mend => 0x30000000#32
  | .slice _ _ => 0x40000000#32
  | .dend => 0x50000000#32
  | .rdtab _ _ => 0x60000000#32
  | .rdreg _ => 0x70000000#32
  | .clrerr => 0x80000000#32
  | .i2b _ _ => 0x90000000#32

/-- `(C & mask) = match` for the word C of the instruction (R77). -/
def Statement (i : Instr) : Prop := i.word &&& mask i = rowMatch i

/-- A mask of two parts, and a word of two parts. -/
theorem masked_append {a b : Nat} {fixed m x : BitVec a} {operands z : BitVec b} (hx : fixed &&& m = x)
    (hz : operands &&& 0#b = z) : (fixed ++ operands) &&& (m ++ 0#b) = x ++ z := by
  rw [BitVec.and_append, hx, hz]

theorem nop : Statement .nop := by unfold Statement; decide

theorem cfg (nreq : BitVec 16) (gray : Bool) : Statement (.cfg nreq gray) :=
  masked_append (m := 0xFFFE#16) (x := 0x1000#16) (by cases gray <;> decide) (BitVec.and_zero (x := nreq))

theorem push (v : BitVec 16) (w : BitVec 5) : Statement (.push v w) :=
  masked_append (m := 0xFFE0#16) (x := 0x2000#16)
    (masked_append (fixed := 0x2#4 ++ 0#7) (m := 0x7FF#11) (x := 0x100#11) (by decide) (BitVec.and_zero (x := w)))
    (BitVec.and_zero (x := v))

theorem mend : Statement .mend := by unfold Statement; decide

theorem slice (re im : F32) : Statement (.slice re im) := by
  show Instr.word (.slice 0 0) &&& mask (.slice 0 0) = rowMatch (.slice 0 0)
  decide

theorem dend : Statement .dend := by unfold Statement; decide

theorem rdtab (tab : TableSel) (idx : BitVec 16) : Statement (.rdtab tab idx) :=
  masked_append (m := 0xFFFC#16) (x := 0x6000#16) (by cases tab <;> decide) (BitVec.and_zero (x := idx))

theorem rdreg (rn : BitVec 4) : Statement (.rdreg rn) :=
  masked_append (fixed := 0x7#4 ++ 0#24) (m := 0xFFFFFFF#28) (x := 0x7000000#28) (by decide) (BitVec.and_zero (x := rn))

theorem clrerr : Statement .clrerr := by unfold Statement; decide

theorem i2b (v : BitVec 16) (w : BitVec 5) : Statement (.i2b v w) :=
  masked_append (m := 0xFFE0#16) (x := 0x9000#16)
    (masked_append (fixed := 0x9#4 ++ 0#7) (m := 0x7FF#11) (x := 0x480#11) (by decide) (BitVec.and_zero (x := w)))
    (BitVec.and_zero (x := v))

end Sys2Proof.Laws.MatchesRow
end

