-- ==== Sys2Proof/Tests/Slice0.lean ====
section
/-! SUPPORT. The model's own tests. Expected values come from spec/95_test_vectors.md and the worked examples of the rules,
never from the model. After them, for every obligation with hypotheses, a concrete state and operands that meet them. -/

open Sys2Proof Sys2Proof.Machine Sys2Proof.Statements

namespace Sys2Proof.Tests

-- One kernel check at a time: the memory of the compile stays within the sandbox's limit.
set_option Elab.async false

/-! ### Well-formedness and decoding -/

theorem test_wellFormed_refuses_width_17 :
    (Instr.push 0#16 17#5).wellFormed = false ∧ (Instr.i2b 5#16 31#5).wellFormed = false := by decide

theorem test_wellFormed_accepts_width_16 :
    (Instr.push 0xFFFF#16 16#5).wellFormed = true ∧ (Instr.i2b 0#16 0#5).wellFormed = true := by decide

/-- 30_encoding.md R78 (a), (b) for each format, and (c). -/
theorem test_decode_refuses_by_name :
    decode ⟨0xA0000000#32, 0#64⟩ = .error .reservedOpcode ∧ decode ⟨0xFFFFFFFF#32, 0#64⟩ = .error .reservedOpcode ∧
    decode ⟨0x30000001#32, 0#64⟩ = .error .reservedBits ∧ decode ⟨0x10020004#32, 0#64⟩ = .error .reservedBits ∧
    decode ⟨0x90200005#32, 0#64⟩ = .error .reservedBits ∧ decode ⟨0x60040000#32, 0#64⟩ = .error .reservedBits ∧
    decode ⟨0x70000010#32, 0#64⟩ = .error .reservedBits ∧ decode ⟨0x20110000#32, 0#64⟩ = .error .illegalWidth := by decide

/-! One word a constructor, written out field by field from the formats of R72 to R76. -/

theorem test_decode_nop : decode ⟨0b0000_0000000000000000000000000000#32, 7#64⟩ = .ok .nop := by decide
theorem test_decode_cfg :
    decode ⟨0b0001_00000000000_1_1111111111111111#32, 0#64⟩ = .ok (.cfg 0xFFFF#16 true) := by decide
theorem test_decode_push :
    decode ⟨0b0010_0000000_01000_0000000001000001#32, 0#64⟩ = .ok (.push 0x41#16 8#5) := by decide
theorem test_decode_mend : decode ⟨0b0011_0000000000000000000000000000#32, 0#64⟩ = .ok .mend := by decide
theorem test_decode_slice :
    decode ⟨0b0100_0000000000000000000000000000#32, 0x3E4CCCCD3F666666#64⟩ = .ok (.slice 0x3F666666#32 0x3E4CCCCD#32) := by
  decide
theorem test_decode_dend : decode ⟨0b0101_0000000000000000000000000000#32, 0#64⟩ = .ok .dend := by decide
theorem test_decode_rdtab :
    decode ⟨0b0110_0000000000_11_0000000000000101#32, 0#64⟩ = .ok (.rdtab .sym 5#16) ∧
    decode ⟨0b0110_0000000000_10_0000000000000101#32, 0#64⟩ = .ok (.rdtab .ph 5#16) := by decide
theorem test_decode_rdreg :
    decode ⟨0b0111_000000000000000000000000_0011#32, 0#64⟩ = .ok (.rdreg 3#4) := by decide
theorem test_decode_clrerr : decode ⟨0b1000_0000000000000000000000000000#32, 0#64⟩ = .ok .clrerr := by decide
theorem test_decode_i2b :
    decode ⟨0b1001_0000000_10000_1111111111111111#32, 0#64⟩ = .ok (.i2b 0xFFFF#16 16#5) := by decide

/-- The host's table words: bit 0 is C's least significant bit. -/
theorem test_table_word :
    decodeTableWord 32 0x20080041 = some (.push 0x41#16 8#5) ∧ decodeTableWord 32 0xA0000000 = none ∧
    decodeTableWord 96 0x3E4CCCCD3F66666640000000 = some (.slice 0x3F666666#32 0x3E4CCCCD#32) := by decide

/-! ### One step each: the answer, and one field -/

/-- The state after a beat, where the machine goes on. -/
def after (c : Word) (d : DWord) (s : State) : Option State :=
  match runBeat ⟨c, d⟩ s with
  | .next t => some t
  | .fault _ => none
  | .refused _ => none

/-- The last response as (RSTATUS, RDATA). -/
def answer (c : Word) (d : DWord) (s : State) : Option (Nat × Nat) :=
  (after c d s).bind (fun t => t.responses.getLast?.map (fun r => (r.rstatus.toNat, r.rdata.toNat)))

/-- The configured block of order 2^n, with bits waiting in MACC and DACC. -/
def block (n : Nat) (gray : Bool) (macc dacc : Bits) : State :=
  ((State.reset.configure n gray).setMacc macc).setDacc dacc

/-- The same with other values of LOGN_MAX and DEC_TAIL. -/
def withParams (lognMax : Nat) (tail : DecTail) (s : State) : State :=
  { s with params := { s.params with lognMax := lognMax, decTail := tail } }

theorem test_nop : answer 0x00000000#32 0#64 State.reset = some (0, 0) := by decide

/-- 95 section 2.2. -/
theorem test_cfg_gray_8 :
    answer 0x10010008#32 0#64 State.reset = some (0, 0x00080037) ∧
    (after 0x10010008#32 0#64 State.reset).map (fun t => (t.ord, t.inv, t.ph)) =
      some ([0, 1, 3, 2, 6, 7, 5, 4], [0, 1, 3, 2, 7, 6, 4, 5], [1, 3, 5, 7, 9, 11, 13, 15]) := by decide +kernel

/-- 95 section 2.2: 512 is beyond LOGN_MAX = 8 and within LOGN_MAX = 9; CFGERR drops what was configured. -/
theorem test_cfg_order_limit :
    answer 0x10000200#32 0#64 (block 2 true [true] [true]) = some (1, 0x10000200) ∧
    (after 0x10000200#32 0#64 (block 2 true [true] [true])).map (fun t => (t.cfg.word, t.ord, t.macc, t.dacc)) =
      some (0#32, [], [], []) ∧
    answer 0x10000200#32 0#64 (withParams 9 .drop State.reset) = some (0, 0x02000095) := by decide +kernel

/-- 95 section 2.3: the groups 1011, 1110, 1110, 1111 through INV. -/
theorem test_push_gray_16 :
    answer 0x2010BEEF#32 0#64 (block 4 true [] []) = some (0, 0x004) ∧
    (after 0x2010BEEF#32 0#64 (block 4 true [] [])).map (fun t => t.sout.map (fun x => x.k.toNat)) =
      some [13, 11, 11, 10] := by decide +kernel

/-- 95 program P4 step 3: a group of bits of two PUSH commands, and the sample it gives. -/
theorem test_push_continues_macc :
    answer 0x20030005#32 0#64 (block 3 true [false, true] []) = some (0, 0x201) ∧
    (after 0x20030005#32 0#64 (block 3 true [false, true] [])).map (fun t => (t.sout, t.macc)) =
      some ([⟨2#16, 0xBEC3EF15#32, 0x3F6C835E#32⟩], [false, true]) := by decide +kernel

/-- 95 section 2.3. -/
theorem test_mend_reports_dropped_bits :
    answer 0x30000000#32 0#64 (block 3 false [true, false] []) = some (0, 0x00020002) ∧
    (after 0x30000000#32 0#64 (block 3 false [true, false] [])).map (fun t => t.macc) = some [] := by decide +kernel

/-- The worked example of 43_slicer.md R140, and 95 program P4 step 8, where a byte is completed. -/
theorem test_slice :
    answer 0x40000000#32 0xBF3504F3BF3504F3#64 (block 2 true [] []) = some (0, 0x2000030002) ∧
    answer 0x40000000#32 0x3F6C835EBEC3EF15#64 (block 3 true [] [false, true, false, false, false, false]) =
      some (0, 0x1100030002) ∧
    (after 0x40000000#32 0x3F6C835EBEC3EF15#64 (block 3 true [] [false, true, false, false, false, false])).map
      (fun t => (t.bout, t.dacc)) = some ([0x41#8], [true]) := by decide +kernel

/-- 95 section 2.4: an infinity and a NaN, and NOTCFG before BADSAMPLE. -/
theorem test_slice_fails :
    answer 0x40000000#32 0x3F800000FF800000#64 (block 2 true [] []) = some (5, 0x40000000) ∧
    answer 0x40000000#32 0x7FC000003F800000#64 (block 2 true [] []) = some (5, 0x40000000) ∧
    answer 0x40000000#32 0x7FC000003F800000#64 State.reset = some (3, 0x40000000) := by decide +kernel

/-- 95 section 2.4, DEND. -/
theorem test_dend :
    answer 0x50000000#32 0#64 (block 3 false [] [true, false, true, true, false, false, true]) = some (0, 0x00590007) ∧
    answer 0x50000000#32 0#64 (withParams 8 .zpad (block 3 false [] [true, false, true, true, false, false, true])) =
      some (0, 0x00590017) ∧
    (after 0x50000000#32 0#64 (withParams 8 .zpad (block 3 false [] [true, false, true, true, false, false, true]))).map
      (fun t => (t.bout, t.dacc)) = some ([0xB2#8], []) := by decide +kernel

/-- 95 section 2.5. -/
theorem test_rdtab :
    answer 0x60000007#32 0#64 (block 3 true [] []) = some (0, 4) ∧
    answer 0x60010004#32 0#64 (block 3 true [] []) = some (0, 7) ∧
    answer 0x60020007#32 0#64 (block 3 true [] []) = some (0, 15) ∧
    answer 0x60030000#32 0#64 (block 3 true [] []) = some (0, 0x3EC3EF153F6C835E) ∧
    answer 0x60000008#32 0#64 (block 3 true [] []) = some (4, 0x60000008) := by decide +kernel

/-- 95 section 2.5 and program P4 step 4. -/
theorem test_rdreg :
    answer 0x70000004#32 0#64 (withParams 14 .zpad State.reset) = some (0, 0x1E) ∧
    answer 0x70000001#32 0#64 (block 3 true [false, true] []) = some (0, 0x200) ∧
    answer 0x70000005#32 0#64 State.reset = some (4, 0x70000005) := by decide +kernel

/-- 95 section 2.5: the error state of a failed command is cleared. -/
theorem test_clrerr :
    (after 0x80000000#32 0#64 (State.reset.raise .illegal 0xA0000000#32)).map (fun t => t.status.word 0 0) =
      some 0#32 ∧
    (State.reset.raise .illegal 0xA0000000#32).status.word 0 0 = 0x61#32 := by decide

/-- 95 section 2.1. -/
theorem test_i2b :
    answer 0x900000FF#32 0#64 State.reset = some (0, 0x000800FF) ∧
    answer 0x90000000#32 0#64 State.reset = some (0, 0x00010000) ∧
    answer 0x90010002#32 0#64 State.reset = some (2, 0x90010002) ∧
    answer 0x90110000#32 0#64 State.reset = some (6, 0x90110000) := by decide +kernel

/-- 95 section 2.2, default SYMVAL: an axis, the even and odd quadrants, and the signs. -/
theorem test_reference_symval :
    (cosRef 1 2, sinRef 1 2) = (0xBF800000#32, 0x00000000#32) ∧ (cosRef 2 7, sinRef 2 7) = (0x3F3504F3#32, 0xBF3504F3#32) ∧
    (cosRef 3 3, sinRef 3 3) = (0x3EC3EF15#32, 0x3F6C835E#32) ∧ (cosRef 4 19, sinRef 4 19) = (0xBF54DB31#32, 0xBF0E39DA#32) := by
  decide +kernel

/-- 95 section 2.4: ties and near ties of sliceRef. -/
theorem test_slice_reference_ties :
    sliceRef 2 false 0x00000000#32 0xBF800000#32 = 0 ∧ sliceRef 4 true 0xBF800000#32 0x80000000#32 = 2 ∧
    sliceRef 8 true 0x00000000#32 0x3F800000#32 = 2 ∧ sliceRef 8 true 0xBF800000#32 0xBF800000#32 = 4 ∧
    sliceRef 2 false 0xBE99999A#32 0xC0000000#32 = 1 ∧ sliceRef 4 true 0x0DA24260#32 0x8E736390#32 = 3 ∧
    sliceRef 8 true 0x40400000#32 0xC0800000#32 = 6 ∧ sliceRef 16 true 0xBF0E39DA#32 0xBF54DB31#32 = 10 := by decide +kernel

/-- 95 program P1: the first record of the symbol file, and a file of whole and of broken records. -/
theorem test_symbol_file :
    symbolFile [⟨1#16, 0xBF3504F3#32, 0x3F3504F3#32⟩] = [0xF3#8, 0x04#8, 0x35#8, 0xBF#8, 0xF3#8, 0x04#8, 0x35#8, 0x3F#8] ∧
    readSymbolFile [0xF3#8, 0x04#8, 0x35#8, 0xBF#8, 0xF3#8, 0x04#8, 0x35#8, 0x3F#8] = some [0x3F3504F3BF3504F3#64] ∧
    readSymbolFile [0xF3#8] = none := by decide

/-- 95 L1-9 and programs P1 and P2: the bits of the byte 0x41, and the beats that encode it and decode a file. -/
theorem test_byte_file_and_paths :
    bitStream [0x41#8] = [false, true, false, false, false, false, false, true] ∧
    encodeFile [0x41#8] = [.beat ⟨0x20080041#32, 0#64⟩, .beat ⟨0x30000000#32, 0#64⟩] ∧
    decodeFile [0xF3#8, 0x04#8, 0x35#8, 0xBF#8, 0xF3#8, 0x04#8, 0x35#8, 0x3F#8] =
      some [.beat ⟨0x40000000#32, 0x3F3504F3BF3504F3#64⟩, .beat ⟨0x50000000#32, 0#64⟩] := by decide

/-- The host's input reaches the port, and the beat it places first runs first. -/
theorem test_withFetchWord_runs :
    (match step (State.reset.withFetchWord 32 0x90000005) with
      | .next t => t.responses
      | .fault _ => []
      | .refused _ => []) = [⟨0#4, 0x30005#64⟩] := by decide

/-! ### The hypotheses of the obligations are met

For each obligation with hypotheses, a state and operands that meet them, at the ends of the ranges where there are any. -/

/-- BPSK, natural ordering, nothing waiting: the smallest configured block. -/
def bpsk : State := block 1 false [] []

/-- 8-PSK, Gray, with two bits in MACC and seven in DACC: both at their longest. -/
def psk8 : State := block 3 true [true, false] [true, false, true, true, false, false, true]

/-- A state with the host's next inputs. -/
def withInputs (s : State) (l : List HostInput) : State := { s with inputs := l }

theorem test_default_parameters_legal : Params.default.Legal :=
  ⟨by decide, by decide, by decide, by norm_num [Params.default], by norm_num [Params.default], by norm_num [Params.default]⟩

theorem test_invariant_of_bpsk (l : List HostInput) : (withInputs bpsk l).Inv :=
  State.Inv.with_inputs (s := bpsk)
    { params := test_default_parameters_legal
      unconfigured := fun h => absurd h (by decide)
      configured := fun _ => ⟨1, by decide, by decide, by decide +kernel, by decide +kernel, by decide +kernel,
        by decide +kernel, by decide⟩
      dacc := by decide
      errCode := by decide
      lastErr := by decide } l

theorem test_invariant_of_psk8 (l : List HostInput) : (withInputs psk8 l).Inv :=
  State.Inv.with_inputs (s := psk8)
    { params := test_default_parameters_legal
      unconfigured := fun h => absurd h (by decide)
      configured := fun _ => ⟨3, by decide, by decide, by decide +kernel, by decide +kernel, by decide +kernel,
        by decide +kernel, by decide⟩
      dacc := by decide
      errCode := by decide
      lastErr := by decide } l

/-- An unconfigured block that has failed: the invariant's other case. -/
def failedBlock : State := State.reset.raise .illegal 0xA0000000#32

theorem test_invariant_of_failed_block (l : List HostInput) : (withInputs failedBlock l).Inv :=
  State.Inv.with_inputs (s := failedBlock)
    { params := test_default_parameters_legal
      unconfigured := fun _ => by decide
      configured := fun h => absurd h (by decide)
      dacc := by decide
      errCode := by decide
      lastErr := by decide } l

/-! Encoding and steps. -/

theorem test_hypotheses_DecodeInvertsEncode : (Instr.push 0xFFFF#16 16#5).wellFormed = true ∧ Instr.nop.wellFormed = true := by
  decide

theorem test_hypotheses_EncodeInvertsDecode :
    decode ⟨0x40000000#32, 5#64⟩ = .ok (.slice 5#32 0#32) ∧ slice 0x40000000#32 31 28 = 4 := by decide

theorem test_hypotheses_IllegalWordsFailAlone :
    LegalWord 0x2010FFFF#32 ∧ LegalWord 0x7000000F#32 ∧ ¬ LegalWord 0x20110000#32 ∧ ¬ LegalWord 0xA0000000#32 ∧
    ¬ LegalWord 0x70000010#32 := by decide

theorem test_hypotheses_DataWordReadOnlyBySlice :
    slice 0x00000000#32 31 28 ≠ 4 ∧ slice 0xF0000000#32 31 28 ≠ 4 := by decide

theorem test_hypotheses_StepRunsDeliveredBeat :
    (withInputs bpsk [.beat ⟨0x20000000#32, 0#64⟩]).inputs = .beat ⟨0x20000000#32, 0#64⟩ :: [] ∧
    decode ⟨0x20000000#32, 0#64⟩ = .ok (.push 0#16 0#5) ∧ decode ⟨0x20110000#32, 0#64⟩ = .error .illegalWidth := by decide

/-- A block with a response, a sample and a byte for the host to take. -/
def fullOutputs (x : HostInput) : State :=
  { withInputs bpsk [x] with responses := [⟨0#4, 0#64⟩], sout := [⟨0#16, 0#32, 0#32⟩], bout := [0x41#8] }

theorem test_hypotheses_WaitsAndHostTakes :
    bpsk.inputs = [] ∧
    ((fullOutputs .takeResponse).inputs = .takeResponse :: [] ∧ (fullOutputs .takeResponse).responses = ⟨0#4, 0#64⟩ :: []) ∧
    ((fullOutputs .takeSample).inputs = .takeSample :: [] ∧ (fullOutputs .takeSample).sout = ⟨0#16, 0#32, 0#32⟩ :: []) ∧
    ((fullOutputs .takeByte).inputs = .takeByte :: [] ∧ (fullOutputs .takeByte).bout = 0x41#8 :: []) := by decide

/-! Codec. -/

theorem test_hypotheses_IntToBitsElements : (255 : Nat) < 2 ^ 8 ∧ (0 : Nat) < 2 ^ 0 ∧ 7 < 8 := by decide

theorem test_hypotheses_MinimalWidthIsUnique : (65535 : Nat) ≠ 0 ∧ minw 65535 = 16 ∧ (1 : Nat) ≠ 0 ∧ minw 1 = 1 := by decide

/-- The words of format V at the ends of the ranges: illegal by a reserved bit and by W = 17, W = 0, V = 2^W − 1, V = 2^W. -/
theorem test_hypotheses_format_V (op : Nat) (h : op = 2 ∨ op = 9) :
    FitsWidth 0xFFFF#16 16#5 ∧ FitsWidth 0xFFFF#16 0#5 ∧ FitsWidth 1#16 1#5 ∧
    ∃ illegal wide omitted fits tooBig : Word,
      (slice illegal 31 28 = op ∧ slice illegal 27 21 ≠ 0) ∧
      (slice wide 31 28 = op ∧ slice wide 27 21 = 0 ∧ 16 < slice wide 20 16) ∧
      (slice omitted 31 28 = op ∧ slice omitted 27 21 = 0 ∧ slice omitted 20 16 = 0) ∧
      (slice fits 31 28 = op ∧ slice fits 27 21 = 0 ∧ slice fits 20 16 = 16 ∧ slice fits 15 0 < 2 ^ 16) ∧
      (slice tooBig 31 28 = op ∧ slice tooBig 27 21 = 0 ∧ slice tooBig 20 16 = 1 ∧ 2 ^ 1 ≤ slice tooBig 15 0) := by
  refine ⟨by unfold FitsWidth; decide, by unfold FitsWidth; decide, by unfold FitsWidth; decide, ?_⟩
  rcases h with rfl | rfl
  · exact ⟨0x20200005#32, 0x20110000#32, 0x2000FFFF#32, 0x2010FFFF#32, 0x20010002#32, by decide, by decide, by decide,
      by decide, by decide⟩
  · exact ⟨0x90200005#32, 0x90110000#32, 0x9000FFFF#32, 0x9010FFFF#32, 0x90010002#32, by decide, by decide, by decide,
      by decide, by decide⟩

theorem test_hypotheses_I2bRule : FitsWidth 0xFFFF#16 16#5 ∧ FitsWidth 0#16 0#5 :=
  ⟨(test_hypotheses_format_V 9 (.inr rfl)).1, by unfold FitsWidth; decide⟩

/-! Configuration. -/

/-- The smallest order: n = 1, k = 0 and k = 1. -/
theorem test_hypotheses_orders :
    (1 ≤ 1 ∧ 0 < 2 ^ 1 ∧ 1 < 2 ^ 1) ∧ (1 ≤ 14 ∧ 14 ≤ 14 ∧ 32767 < 2 * 2 ^ 14) ∧ (1 ≤ 1 ∧ 1 ≤ 14 ∧ 0 < 2 * 2 ^ 1) := by decide

theorem test_hypotheses_ReferenceSymvalIsNearest :
    1 ≤ 14 ∧ 14 ≤ 14 ∧ 32767 < 2 * 2 ^ 14 ∧
    ∃ pc : F32 × ℝ, pc = (cosRef 14 32767, Real.cos ((32767 : ℕ) * Real.pi / 2 ^ 14)) :=
  ⟨by decide, by decide, by decide, _, rfl⟩

theorem test_hypotheses_CfgRule :
    (1 ≤ 8 ∧ 8 ≤ State.reset.params.lognMax ∧ (256#16).toInt = 2 ^ 8) ∧
    (slice 0x10020004#32 31 28 = 1 ∧ slice 0x10020004#32 27 17 ≠ 0) ∧
    (slice 0x10010002#32 31 28 = 1 ∧ slice 0x10010002#32 27 17 = 0 ∧ signed16 (slice 0x10010002#32 15 0) = 2 ^ 1) ∧
    (slice 0x10008000#32 31 28 = 1 ∧ slice 0x10008000#32 27 17 = 0 ∧
      ∀ n, 1 ≤ n → n ≤ State.reset.params.lognMax → signed16 (slice 0x10008000#32 15 0) ≠ 2 ^ n) := by
  refine ⟨by decide, by decide, by decide, by decide, by decide, fun n _ _ h => ?_⟩
  have : (0 : Int) < 2 ^ n := by positivity
  rw [← h] at this
  exact absurd this (by decide)

/-! Modulator. -/

theorem test_hypotheses_PushRule : psk8.Inv ∧ psk8.cfg.valid = true ∧ FitsWidth 0xFFFF#16 16#5 :=
  ⟨test_invariant_of_psk8 [], by decide, by unfold FitsWidth; decide⟩

theorem test_hypotheses_PushRule_words :
    State.reset.cfg.valid = false ∧ psk8.cfg.valid = true ∧ slice 0x20010002#32 20 16 ≤ 16 ∧
    slice 0x20010002#32 20 16 ≠ 0 ∧ 2 ^ slice 0x20010002#32 20 16 ≤ slice 0x20010002#32 15 0 := by decide

/-- The words of the formats Z, T and R, legal and illegal, at the ends of their ranges. -/
theorem test_hypotheses_words :
    (slice 0x00000001#32 31 28 = 0 ∧ slice 0x00000001#32 27 0 ≠ 0) ∧ (slice 0x00000000#32 31 28 = 0 ∧ slice 0x00000000#32 27 0 = 0) ∧
    (slice 0x38000000#32 31 28 = 3 ∧ slice 0x38000000#32 27 0 ≠ 0) ∧ (slice 0x30000000#32 31 28 = 3 ∧ slice 0x30000000#32 27 0 = 0) ∧
    (slice 0x48000000#32 31 28 = 4 ∧ slice 0x48000000#32 27 0 ≠ 0) ∧ (slice 0x40000000#32 31 28 = 4 ∧ slice 0x40000000#32 27 0 = 0) ∧
    (slice 0x58000000#32 31 28 = 5 ∧ slice 0x58000000#32 27 0 ≠ 0) ∧ (slice 0x50000000#32 31 28 = 5 ∧ slice 0x50000000#32 27 0 = 0) ∧
    (slice 0x60040000#32 31 28 = 6 ∧ slice 0x60040000#32 27 18 ≠ 0) ∧ (slice 0x60030001#32 31 28 = 6 ∧ slice 0x60030001#32 27 18 = 0) ∧
    (slice 0x70000010#32 31 28 = 7 ∧ slice 0x70000010#32 27 4 ≠ 0) ∧ (slice 0x7000000F#32 31 28 = 7 ∧ slice 0x7000000F#32 27 4 = 0) ∧
    (slice 0x80000001#32 31 28 = 8 ∧ slice 0x80000001#32 27 0 ≠ 0) ∧ (slice 0x80000000#32 31 28 = 8 ∧ slice 0x80000000#32 27 0 = 0) := by
  decide

theorem test_hypotheses_PushesEndedByMendAreGen :
    let s := withInputs bpsk [.beat (encode (.push 0x41#16 8#5)), .beat (encode .mend)]
    s.Inv ∧ s.cfg.valid = true ∧ s.macc = [] ∧
    (∀ p ∈ [((0x41#16 : BitVec 16), (8#5 : BitVec 5))], FitsWidth p.1 p.2) ∧
    s.inputs = [((0x41#16 : BitVec 16), (8#5 : BitVec 5))].map (fun p => HostInput.beat (encode (.push p.1 p.2))) ++
      HostInput.beat (encode .mend) :: [] :=
  ⟨test_invariant_of_bpsk _, by decide, by decide,
    List.forall_mem_cons.2 ⟨by unfold FitsWidth; decide, fun _ h => by cases h⟩, rfl⟩

/-! Slicer. -/

/-- 1.0, 2.0, −1.0, the least positive subnormal, −0. -/
theorem test_hypotheses_finite :
    f32Finite 0x3F800000#32 = true ∧ f32Finite 0x40000000#32 = true ∧ f32Finite 0xBF800000#32 = true ∧
    f32Finite 0x00000001#32 = true ∧ f32Finite 0x80000000#32 = true ∧
    ¬ (f32IsZero 0x3F800000#32 = true ∧ f32IsZero 0#32 = true) ∧ f32IsZero 0x80000000#32 = true ∧ f32IsZero 0#32 = true ∧
    (1 ≤ slice 0x3F800000#32 30 23 ∧ slice 0x7F7FFFFF#32 30 23 < 0xFF) ∧ slice 0x00000001#32 30 23 = 0 ∧
    ¬ f32Finite 0x7FC00000#32 = true ∧ ¬ f32Finite 0xFF800000#32 = true := by
  refine ⟨?_, ?_, ?_, ?_, ?_, ?_, ?_, ?_, ⟨?_, ?_⟩, ?_, ?_, ?_⟩ <;> decide

theorem test_f32_one : f32Rat 0x3F800000#32 = 1 := by
  have h : f32Scaled 0x3F800000#32 = 2 ^ 149 := by decide +kernel
  rw [f32Rat, h]; norm_num

theorem test_f32_two : f32Rat 0x40000000#32 = 2 := by
  have h : f32Scaled 0x40000000#32 = 2 ^ 150 := by decide +kernel
  rw [f32Rat, h]; norm_num

theorem test_f32_minus_one : f32Rat 0xBF800000#32 = -1 := by
  have h : f32Scaled 0xBF800000#32 = -2 ^ 149 := by decide +kernel
  rw [f32Rat, h]; norm_num

theorem test_f32_zero : f32Rat 0x00000000#32 = 0 := by
  have h : f32Scaled 0x00000000#32 = 0 := by decide +kernel
  rw [f32Rat, h]; norm_num

/-- The sample (1, 0) at N = 2 has t = 0, and the sample (0, 1) has t = 1/2, a tie: 95 section 2.4. -/
theorem test_hypotheses_SliceRefIsRoundedPhase :
    (IsSlicerPosition 1 false 0x3F800000#32 0x00000000#32 0 ∧ IsRoundHalfEven 0 0) ∧
    (IsSlicerPosition 1 false 0x00000000#32 0x3F800000#32 (1 / 2) ∧ IsRoundHalfEven (1 / 2) 0) := by
  refine ⟨⟨?_, ?_⟩, ?_, ?_⟩
  · have h : (⟨1, 0⟩ : ℂ) = 1 := rfl
    simp [IsSlicerPosition, test_f32_one, test_f32_zero, h]
  · norm_num [IsRoundHalfEven]
  · have h : (⟨0, 1⟩ : ℂ) = Complex.I := rfl
    simp [IsSlicerPosition, test_f32_one, test_f32_zero, h]
    ring
  · norm_num [IsRoundHalfEven, abs_of_pos]

theorem test_hypotheses_SliceRefIgnoresMagnitude :
    (0 : ℚ) < 2 ∧ f32Rat 0x40000000#32 = 2 * f32Rat 0x3F800000#32 ∧ f32Rat 0x00000000#32 = 2 * f32Rat 0x00000000#32 := by
  rw [test_f32_one, test_f32_two, test_f32_zero]; norm_num

/-- The two BPSK points are exact, so the default SYMVAL conforms there. -/
theorem test_symval_conforms_at_bpsk_points :
    SymvalConformsAt Params.default 1 0 ∧ SymvalConformsAt Params.default 1 2 := by
  have h0 : symvalOf Params.default (2 ^ 1) 0 = (0x3F800000#32, 0x00000000#32) := by decide +kernel
  have h2 : symvalOf Params.default (2 ^ 1) 2 = (0xBF800000#32, 0x00000000#32) := by decide +kernel
  have htol : (0 : ℝ) ≤ (Params.default.symTol : ℚ) := by norm_num [Params.default]
  have hpi : ((2 : ℕ) : ℝ) * Real.pi / 2 ^ 1 = Real.pi := by norm_num
  refine ⟨⟨by rw [h0]; decide, by rw [h0]; decide, ?_, ?_⟩, by rw [h2]; decide, by rw [h2]; decide, ?_, ?_⟩
  · rw [h0, test_f32_one]; simpa using htol
  · rw [h0, test_f32_zero]; simpa using htol
  · rw [h2, test_f32_minus_one, hpi]; simpa using htol
  · rw [h2, test_f32_zero, hpi]; simpa using htol

/-- The default SLICEDEC conforms, its band being empty: SLICE_TOL = 0. -/
theorem test_slicedec_conforms_without_band (n : Nat) (rot : Bool) (re im : F32) :
    SlicedecConformsAt Params.default n rot re im := fun _ _ _ _ =>
  ⟨fun _ => rfl, fun h => absurd h (not_lt.2 (by simp [Params.default]))⟩

/-- The tolerances of the default parameters are below those R147 asks for. -/
theorem test_default_tolerances :
    Params.default.symTol ≤ 1 / 2 ^ 20 ∧ Params.default.sliceTol ≤ 1 / 4 ∧ 1 / 2 ^ 24 ≤ Params.default.symTol := by
  norm_num [Params.default]

theorem test_hypotheses_ReferenceSlicedecConforms :
    Params.default.slicedec = [] ∧ 1 ≤ 1 ∧ f32Finite 0x3F800000#32 = true ∧ f32Finite 0x80000000#32 = true ∧
    ¬ (f32IsZero 0x3F800000#32 = true ∧ f32IsZero 0x80000000#32 = true) := by decide

theorem test_hypotheses_ReferenceSymvalConforms :
    Params.default.symval = [] ∧ 1 / 2 ^ 24 ≤ Params.default.symTol ∧ 1 ≤ 14 ∧ 14 ≤ 14 ∧ 32767 < 2 * 2 ^ 14 :=
  ⟨rfl, test_default_tolerances.2.2, by decide, by decide, by decide⟩

theorem test_hypotheses_SymbolMagnitude : SymvalConformsAt Params.default 1 0 := test_symval_conforms_at_bpsk_points.1

theorem test_hypotheses_SliceRule :
    psk8.Inv ∧ psk8.cfg.valid = true ∧ f32Finite 0x3F800000#32 = true ∧ f32Finite 0x80000000#32 = true ∧
    ¬ (f32IsZero 0x3F800000#32 = true ∧ f32IsZero 0x80000000#32 = true) ∧ f32IsZero 0x80000000#32 = true :=
  ⟨test_invariant_of_psk8 [], by decide, by decide, by decide, by decide, by decide⟩

/-- A NaN in the imaginary part and an infinity in the real part (R144), of the words SLICE reads. -/
theorem test_hypotheses_SliceRule_words :
    State.reset.cfg.valid = false ∧ psk8.cfg.valid = true ∧
    ¬ (f32Finite (BitVec.ofNat 32 (0x7FC000003F800000#64).toNat) = true ∧
      f32Finite (BitVec.ofNat 32 ((0x7FC000003F800000#64).toNat / 2 ^ 32)) = true) ∧
    ¬ (f32Finite (BitVec.ofNat 32 (0x000000007F800000#64).toNat) = true ∧
      f32Finite (BitVec.ofNat 32 ((0x000000007F800000#64).toNat / 2 ^ 32)) = true) := by
  refine ⟨?_, ?_, ?_, ?_⟩ <;> decide

theorem test_hypotheses_DendRule :
    psk8.params.decTail = .drop ∧ (withParams 8 .zpad bpsk).dacc = [] ∧ (withParams 8 .zpad psk8).params.decTail = .zpad ∧
    (withParams 8 .zpad psk8).dacc ≠ [] := by decide

theorem test_hypotheses_SlicesEndedByDendAreSlicer :
    let ds : List (F32 × F32) := [(0x3F800000#32, 0x00000000#32), (0x00000000#32, 0x80000000#32)]
    let s := withInputs bpsk (ds.map (fun d => HostInput.beat (encode (.slice d.1 d.2))) ++ [HostInput.beat (encode .dend)])
    s.Inv ∧ s.cfg.valid = true ∧ s.dacc = [] ∧ (∀ d ∈ ds, f32Finite d.1 = true ∧ f32Finite d.2 = true) ∧
    s.inputs = ds.map (fun d => HostInput.beat (encode (.slice d.1 d.2))) ++ HostInput.beat (encode .dend) :: [] :=
  ⟨test_invariant_of_bpsk _, by decide, by decide,
    List.forall_mem_cons.2 ⟨by decide, List.forall_mem_cons.2 ⟨by decide, fun _ h => by cases h⟩⟩, rfl⟩

/-- Index 1, phase 2, of BPSK: the last index. -/
theorem test_hypotheses_NoiselessSymbolSlicesBack :
    bpsk.Inv ∧ bpsk.cfg.valid = true ∧ 1 < bpsk.cfg.order.toNat ∧ bpsk.ph[1]? = some 2 ∧ bpsk.params.symTol ≤ 1 / 2 ^ 20 ∧
    bpsk.params.sliceTol ≤ 1 / 4 ∧ SymvalConformsAt bpsk.params bpsk.cfg.logn.toNat 2 ∧
    SlicedecConformsAt bpsk.params bpsk.cfg.logn.toNat bpsk.cfg.rot
      (symvalOf bpsk.params bpsk.cfg.order.toNat 2).1 (symvalOf bpsk.params bpsk.cfg.order.toNat 2).2 :=
  ⟨test_invariant_of_bpsk [], by decide, by decide, by decide, test_default_tolerances.1, test_default_tolerances.2.1,
    test_symval_conforms_at_bpsk_points.2, test_slicedec_conforms_without_band _ _ _ _⟩

theorem test_conformance_of_bpsk (u : Nat) (hu : u ∈ bpsk.ph) :
    SymvalConformsAt bpsk.params bpsk.cfg.logn.toNat u ∧
    SlicedecConformsAt bpsk.params bpsk.cfg.logn.toNat bpsk.cfg.rot
      (symvalOf bpsk.params bpsk.cfg.order.toNat u).1 (symvalOf bpsk.params bpsk.cfg.order.toNat u).2 := by
  refine ⟨?_, test_slicedec_conforms_without_band _ _ _ _⟩
  have h : bpsk.ph = [0, 2] := by decide
  rw [h] at hu
  rcases List.mem_cons.1 hu with rfl | hu
  · exact test_symval_conforms_at_bpsk_points.1
  · rcases List.mem_cons.1 hu with rfl | hu
    · exact test_symval_conforms_at_bpsk_points.2
    · cases hu

theorem test_hypotheses_NoiselessRoundTripReturnsBits :
    bpsk.Inv ∧ bpsk.cfg.valid = true ∧
    SymbolsOf bpsk [true] [⟨1#16, (symvalOf bpsk.params bpsk.cfg.order.toNat 2).1, (symvalOf bpsk.params bpsk.cfg.order.toNat 2).2⟩] ∧
    bpsk.params.symTol ≤ 1 / 2 ^ 20 ∧ bpsk.params.sliceTol ≤ 1 / 4 ∧
    ∀ u ∈ bpsk.ph, SymvalConformsAt bpsk.params bpsk.cfg.logn.toNat u ∧
      SlicedecConformsAt bpsk.params bpsk.cfg.logn.toNat bpsk.cfg.rot
        (symvalOf bpsk.params bpsk.cfg.order.toNat u).1 (symvalOf bpsk.params bpsk.cfg.order.toNat u).2 := by
  refine ⟨test_invariant_of_bpsk [], by decide, ⟨by decide, fun j hj => ?_⟩, test_default_tolerances.1, test_default_tolerances.2.1,
    test_conformance_of_bpsk⟩
  obtain rfl : j = 0 := Nat.lt_one_iff.1 hj
  exact ⟨1, 2, by decide, by decide, by decide, by decide, by decide, rfl⟩

theorem test_hypotheses_EncodedBytesDecodeBack :
    let bs : List Byte := [0x41#8]
    let s := withInputs bpsk
      (bs.map (fun b => HostInput.beat (encode (.push (b.setWidth 16) 8#5))) ++ [HostInput.beat (encode .mend)])
    s.Inv ∧ s.cfg.valid = true ∧ s.macc = [] ∧ s.dacc = [] ∧ s.params.symTol ≤ 1 / 2 ^ 20 ∧ s.params.sliceTol ≤ 1 / 4 ∧
    (∀ u ∈ s.ph, SymvalConformsAt s.params s.cfg.logn.toNat u ∧
      SlicedecConformsAt s.params s.cfg.logn.toNat s.cfg.rot
        (symvalOf s.params s.cfg.order.toNat u).1 (symvalOf s.params s.cfg.order.toNat u).2) ∧
    s.inputs = bs.map (fun b => HostInput.beat (encode (.push (b.setWidth 16) 8#5))) ++ [HostInput.beat (encode .mend)] ∧
    s.cfg.logn.toNat ∣ 8 * bs.length :=
  ⟨test_invariant_of_bpsk _, by decide, by decide, by decide, test_default_tolerances.1, test_default_tolerances.2.1, test_conformance_of_bpsk,
    rfl, by decide⟩

/-! Readback, control, errors. -/

/-- The last index of BPSK, the first one past it, and the two tables at the ends of the selector. -/
theorem test_hypotheses_RdtabRule :
    bpsk.Inv ∧ bpsk.cfg.valid = true ∧ (1#16).toNat < bpsk.cfg.order.toNat ∧
    bpsk.cfg.order.toNat ≤ slice 0x60000002#32 15 0 ∧ State.reset.cfg.valid = false ∧
    (fieldOfTable .ord).toNat = slice 0x60000002#32 17 16 ∧ (fieldOfTable .sym).toNat = slice 0x60030002#32 17 16 :=
  ⟨test_invariant_of_bpsk [], by decide, by decide, by decide, by decide, by decide, by decide⟩

theorem test_hypotheses_RdregRule :
    5 ≤ slice 0x70000005#32 3 0 ∧ 5 ≤ slice 0x7000000F#32 3 0 ∧ ¬ 5 ≤ slice 0x70000004#32 3 0 := by decide

/-- A command that fails (RANGE) and one that succeeds, and a CFG that fails with CFGERR. -/
theorem test_hypotheses_errors :
    (runBeat ⟨0x70000005#32, 0#64⟩ State.reset = .next (failed State.reset 4 0x70000005#32) ∧
      (failed State.reset 4 0x70000005#32).responses = State.reset.responses ++ [⟨4#4, 0x70000005#64⟩] ∧ (4#4 : BitVec 4) ≠ 0#4) ∧
    runBeat ⟨0x80000000#32, 0#64⟩ State.reset = .next (answered State.reset 0) ∧
    runBeat ⟨0x10000001#32, 0#64⟩ State.reset = .next (failed (deconfigured State.reset) 1 0x10000001#32) := by
  refine ⟨⟨rfl, rfl, by decide⟩, rfl, rfl⟩

theorem test_hypotheses_FirstFailingCheckIsReported : psk8.Inv ∧ failedBlock.Inv :=
  ⟨test_invariant_of_psk8 [], test_invariant_of_failed_block []⟩

theorem test_hypotheses_ErrorStaysUntilCleared :
    let s := withInputs failedBlock [.beat ⟨0x80000000#32, 0#64⟩]
    let t := answered { withInputs failedBlock [] with status := ⟨false, 0#4⟩ } 0
    step s = .next t ∧ s.status.err = true ∧ t.status.err = false := ⟨rfl, rfl, rfl⟩

/-! Whole machine. -/

theorem test_hypotheses_ResetValues : State.reset = State.reset ∧ psk8.applyReset = psk8.applyReset := ⟨rfl, rfl⟩

theorem test_hypotheses_ResetInput :
    (withInputs psk8 [.reset]).inputs = .reset :: [] ∧
    (withInputs psk8 [.resetDuring ⟨0#32, 0#64⟩]).inputs = .resetDuring ⟨0#32, 0#64⟩ :: [] ∧
    (withInputs psk8 [.resetDuring ⟨0#32, 0#64⟩]).Inv := ⟨rfl, rfl, test_invariant_of_psk8 _⟩

theorem test_hypotheses_StepKeepsInvariant :
    (withInputs failedBlock [.beat ⟨0x70000005#32, 0#64⟩]).Inv ∧
    step (withInputs failedBlock [.beat ⟨0x70000005#32, 0#64⟩]) = .next (failed (withInputs failedBlock []) 4 0x70000005#32) :=
  ⟨test_invariant_of_failed_block _, rfl⟩

theorem test_hypotheses_SymbolFileLayout :
    [(⟨1#16, 2#32, 3#32⟩ : Sample)][0]? = some ⟨1#16, 2#32, 3#32⟩ ∧ 7 < 8 ∧ 8 ∣ (List.replicate 16 (0#8 : Byte)).length := by
  decide

theorem test_hypotheses_ByteStreamBitOrder : (byteBits 0x41#8).length = 8 ∧ [0x41#8][0]? = some (0x41#8 : Byte) ∧ 7 < 8 := by
  decide

/-- An instance whose SYMVAL is (0, 0) throughout conforms within SYM_TOL = 1. -/
theorem test_hypotheses_ParametersConformForLife : ∃ s t : State, s.Conforming ∧ step s = .next t := by
  obtain ⟨q, hlog, -, hdec, htol, hslice, hsym⟩ :=
    every_symval_is_modelled (fun _ _ => (0#32, 0#32)) { Params.default with symTol := 1 }
  have hlegal : q.Legal := by
    rw [Params.Legal, hlog, hdec, htol, hslice]
    exact ⟨by decide, by decide, by simp [Params.default], by norm_num, by norm_num [Params.default], by norm_num [Params.default]⟩
  refine ⟨{ State.reset with params := q }, _, ⟨⟨hlegal, fun _ => ⟨rfl, rfl, rfl, rfl, rfl, rfl⟩, fun h => Bool.noConfusion h,
    (by decide : 0 < 8), (by decide : false = true ↔ 0#4 ≠ 0#4), (by decide : 0 ≤ 6)⟩, ⟨hlegal, fun n u _ hn hu => ?_, fun n re im _ _ _ _ _ t m _ _ => ⟨fun _ => ?_, fun h => ?_⟩⟩⟩, rfl⟩
  · have hn14 : n ≤ 14 := (hn.trans hlog.le).trans (by decide)
    unfold SymvalConformsAt
    rw [hsym n u hn14 hu, test_f32_zero, htol]
    refine ⟨by decide, by decide, ?_, ?_⟩
    · simpa using Real.abs_cos_le_one _
    · simpa using Real.abs_sin_le_one _
  · unfold slicedecOf; rw [hdec]; rfl
  · rw [hslice] at h
    exact absurd h (not_lt.2 (by simp [Params.default]))

theorem test_hypotheses_ConfiguredTablesAreAsSpecified : psk8.Inv ∧ psk8.cfg.valid = true ∧ 7 < psk8.cfg.order.toNat :=
  ⟨test_invariant_of_psk8 [], by decide, by decide⟩

theorem test_hypotheses_OnlyCfgAndResetWriteTheConfiguration :
    let s := withInputs psk8 [.beat ⟨0x10000001#32, 0#64⟩]
    let t := failed (deconfigured (withInputs psk8 [])) 1 0x10000001#32
    step s = .next t ∧ t.cfg ≠ s.cfg ∧ t.ord ≠ s.ord ∧ t.inv ≠ s.inv ∧ t.ph ≠ s.ph :=
  ⟨rfl, by decide, by decide, by decide, by decide⟩

theorem test_hypotheses_ReadersChangeNothing :
    exec (.rdtab .ph 1#16) bpsk = .next (answered bpsk 2) ∧
    (answered bpsk 2).responses = bpsk.responses ++ [⟨0#4, 2#64⟩] := ⟨rfl, rfl⟩

theorem test_hypotheses_frames :
    exec .mend psk8 = .next (answered { psk8 with macc := [] } 0x00020002) ∧
    exec .dend psk8 = .next (answered { psk8 with dacc := [] } 0x00590007) ∧
    exec (.push 0#16 0#5) State.reset = .next (failed State.reset 3 0x20000000#32) ∧
    exec (.slice 0#32 0#32) State.reset = .next (failed State.reset 3 0x40000000#32) ∧
    exec (.cfg 1#16 false) psk8 = .next (failed (deconfigured psk8) 1 0x10000001#32) ∧
    exec .clrerr failedBlock = .next (answered { failedBlock with status := ⟨false, 0#4⟩ } 0) :=
  ⟨rfl, rfl, rfl, rfl, rfl, rfl⟩

theorem test_hypotheses_ModulatorAndSlicerInterleave : psk8.Inv ∧ failedBlock.Inv :=
  ⟨test_invariant_of_psk8 [], test_invariant_of_failed_block []⟩

theorem test_hypotheses_WhatWorksBeforeCfg :
    State.reset.cfg.valid = false ∧ (16#5).toNat ≤ 16 ∧ (4#4).toNat < 5 ∧ FitsWidth 0xFFFF#16 16#5 :=
  ⟨by decide, by decide, by decide, by unfold FitsWidth; decide⟩

end Sys2Proof.Tests
end

section
/-! What every step keeps: one inversion of `exec`, one induction principle for `step`, and the invariant under each
named update. -/

namespace Sys2Proof.Machine

/-! ### The effect of one command -/

/-- All that a command can make of the state, one constructor per kind of effect (R171, and the command's own rule). -/
inductive ExecEffect (s : State) : Instr → State → Prop
  | failed (i : Instr) (e : Err) : ExecEffect s i (s.raise e i.word)
  | answered (i : Instr) (d : DWord) : ExecEffect s i (s.ok d)
  | cleared (d : DWord) : ExecEffect s .clrerr (s.clearErrors.ok d)
  | unconfigured (nreq : BitVec 16) (gray : Bool) :
      ExecEffect s (.cfg nreq gray) ((((s.setMacc []).setDacc []).dropConfig).raise .cfgerr (Instr.cfg nreq gray).word)
  | configured (nreq : BitVec 16) (gray : Bool) (n : Nat) (d : DWord) (hn : 1 ≤ n) (hmax : n ≤ s.params.lognMax) :
      ExecEffect s (.cfg nreq gray) ((((s.setMacc []).setDacc []).configure n gray).ok d)
  | pushed (v : BitVec 16) (w : BitVec 5) (xs : List Sample) (rest : Bits) (d : DWord) (hv : s.cfg.valid = true)
      (hrest : rest.length < s.cfg.logn.toNat) : ExecEffect s (.push v w) (((s.emitSout xs).setMacc rest).ok d)
  | ended (d : DWord) : ExecEffect s .mend ((s.setMacc []).ok d)
  | sliced (re im : F32) (s' : State) (bits : Bits) (d : DWord) (hv : s.cfg.valid = true) (hs : s' = s ∨ s' = s.drawn) :
      ExecEffect s (.slice re im) ((s'.packBits bits).ok d)
  | flushed (tail : List Byte) (d : DWord) : ExecEffect s .dend (((s.emitBout tail).setDacc []).ok d)

/-- The loop of PUSH leaves fewer bits than LOGN (R130). -/
theorem pushBits_effect {s t : State} {b : Bits} (v : BitVec 16) (w : BitVec 5) (hv : s.cfg.valid = true)
    (h : s.pushBits b = .next t) : ExecEffect s (.push v w) t := by
  obtain ⟨hlogn, xs, -, rfl⟩ := pushBits_next h
  have hpos : 1 ≤ s.cfg.logn.toNat := by
    rw [Nat.one_le_iff_ne_zero]
    exact fun h0 => hlogn (BitVec.eq_of_toNat_eq h0)
  exact .pushed v w xs _ _ hv (splitGroups_rest_lt hpos _)

/-- Whatever a command answers is one of the effects. -/
theorem exec_effect {i : Instr} {s t : State} (h : exec i s = .next t) : ExecEffect s i t := by
  have failed : ∀ {e : Err}, fail e i s = .next t → ExecEffect s i t :=
    fun {e} he => fail_eq_next_iff.1 he ▸ .failed i e
  cases i with
  | nop => cases h; exact .answered _ _
  | clrerr => cases h; exact .cleared _
  | mend => cases h; exact .ended _
  | dend => cases h; exact .flushed _ _
  | cfg nreq gray =>
    simp only [exec, execCfg] at h
    split at h
    · exact fail_eq_next_iff.1 h ▸ .unconfigured nreq gray
    next n hn =>
      obtain ⟨h1, hmax, -⟩ := orderLog?_eq_some hn
      cases h
      exact .configured nreq gray n _ h1 hmax
  | rdreg rn =>
    simp only [exec, execRdreg] at h
    split at h
    · exact failed h
    · cases h; exact .answered _ _
  | i2b v w =>
    simp only [exec, execI2b] at h
    split at h
    · exact failed h
    · split at h
      · exact failed h
      · cases h; exact .answered _ _
  | rdtab tab idx =>
    simp only [exec, execRdtab] at h
    split at h
    · exact failed h
    · split at h
      · exact failed h
      · split at h
        · cases h
        · cases h; exact .answered _ _
  | push v w =>
    simp only [exec, execPush] at h
    split at h
    · exact failed h
    · split at h
      · exact failed h
      next hv =>
        split at h
        · exact failed h
        · exact pushBits_effect v w (by simpa using hv) h
  | slice re im =>
    simp only [exec, execSlice] at h
    split at h
    · exact failed h
    next hv =>
      split at h
      · exact failed h
      · obtain ⟨v, -, rfl⟩ := sliceIndex_next h
        exact .sliced re im _ _ _ (by simpa using hv) (chooseIndex_state s re im)

/-! ### The effect of one step -/

/-- Two states of one block: they agree in all that the invariant speaks of, and differ at most in the host's inputs, the
outputs, what was taken and the draws. -/
structure SameBlock (s t : State) : Prop where
  params : t.params = s.params
  cfg    : t.cfg = s.cfg
  status : t.status = s.status
  macc   : t.macc = s.macc
  dacc   : t.dacc = s.dacc
  ord    : t.ord = s.ord
  inv    : t.inv = s.inv
  ph     : t.ph = s.ph

theorem SameBlock.withInputs (s : State) (l : List HostInput) : SameBlock s { s with inputs := l } :=
  ⟨rfl, rfl, rfl, rfl, rfl, rfl, rfl, rfl⟩

theorem SameBlock.drawn (s : State) : SameBlock s s.drawn := ⟨rfl, rfl, rfl, rfl, rfl, rfl, rfl, rfl⟩

theorem SameBlock.takeResponse (s : State) : SameBlock s s.takeResponse := by
  unfold State.takeResponse
  split <;> exact ⟨rfl, rfl, rfl, rfl, rfl, rfl, rfl, rfl⟩

theorem SameBlock.takeSample (s : State) : SameBlock s s.takeSample := by
  unfold State.takeSample
  split <;> exact ⟨rfl, rfl, rfl, rfl, rfl, rfl, rfl, rfl⟩

theorem SameBlock.takeByte (s : State) : SameBlock s s.takeByte := by
  unfold State.takeByte
  split <;> exact ⟨rfl, rfl, rfl, rfl, rfl, rfl, rfl, rfl⟩

theorem State.Inv.of_sameBlock {s t : State} (h : s.Inv) (hst : SameBlock s t) : t.Inv :=
  h.of_same_block hst.params hst.cfg hst.status hst.macc hst.dacc hst.ord hst.inv hst.ph

/-- What a property of states has to survive to be kept by every step. -/
structure KeptByOperations (P : State → Prop) : Prop where
  exec  : ∀ {i s t}, P s → exec i s = .next t → P t
  raise : ∀ {s} (e c), P s → P (s.raise e c)
  reset : ∀ {s}, P s → P s.applyReset
  block : ∀ {s t}, P s → SameBlock s t → P t

section
variable {P : State → Prop} (hP : KeptByOperations P)
include hP

theorem KeptByOperations.runBeat {b : Beat} {s t : State} (hs : P s) (h : runBeat b s = .next t) : P t := by
  unfold Machine.runBeat at h
  split at h
  · exact hP.exec hs h
  · cases h; exact hP.raise _ _ hs

theorem KeptByOperations.runBeatDuringReset {b : Beat} {s t : State} (hs : P s)
    (h : runBeatDuringReset b s = .next t) : P t := by
  have hdrawn : P s.drawn := hP.block hs (.drawn s)
  unfold Machine.runBeatDuringReset at h
  split at h
  · cases hbeat : Machine.runBeat b s.drawn with
    | next u =>
      rw [hbeat] at h
      cases h
      exact hP.reset (hP.runBeat hdrawn hbeat)
    | fault f => rw [hbeat] at h; cases h
    | refused r => rw [hbeat] at h; cases h
  · cases h; exact hP.reset hdrawn

theorem KeptByOperations.deliver {x : HostInput} {s t : State} (hs : P s) (h : deliver x s = .next t) : P t := by
  cases x with
  | beat b => exact hP.runBeat hs h
  | reset => cases h; exact hP.reset hs
  | resetDuring b => exact hP.runBeatDuringReset hs h
  | takeResponse => cases h; exact hP.block hs (.takeResponse s)
  | takeSample => cases h; exact hP.block hs (.takeSample s)
  | takeByte => cases h; exact hP.block hs (.takeByte s)

/-- A property that every operation keeps is kept by every step. -/
theorem KeptByOperations.step {s t : State} (hs : P s) (h : step s = .next t) : P t := by
  unfold Machine.step State.nextInput? at h
  cases hin : s.inputs with
  | nil => rw [hin] at h; cases h; exact hs
  | cons x rest => rw [hin] at h; exact hP.deliver (hP.block hs (.withInputs s rest)) h

end

/-! ### The parameters -/

theorem exec_params {i : Instr} {s t : State} (h : exec i s = .next t) : t.params = s.params := by
  cases exec_effect h with
  | sliced re im s' bits d hv hs => rcases hs with rfl | rfl <;> rfl
  | _ => rfl

theorem kept_params (p : Params) : KeptByOperations (fun s => s.params = p) where
  exec hs h := (exec_params h).trans hs
  raise _ _ hs := hs
  reset hs := hs
  block hs hst := hst.params.trans hs

/-- No step writes the parameters (R8). -/
theorem step_params {s t : State} (h : step s = .next t) : t.params = s.params := (kept_params s.params).step rfl h

/-! ### The invariant -/

theorem Err.code_ne_zero (e : Err) : e.code ≠ 0#4 := by cases e <;> decide

theorem StatusReg.clear_errCode : StatusReg.clear.err = true ↔ StatusReg.clear.lastErr ≠ 0#4 := by decide

theorem State.Inv.raise {s : State} (h : s.Inv) (e : Err) (c : Word) : (s.raise e c).Inv :=
  { h with
    errCode := iff_of_true rfl e.code_ne_zero
    lastErr := e.code_range.2 }

theorem State.Inv.ok {s : State} (h : s.Inv) (d : DWord) : (s.ok d).Inv := h.respond okCode d

theorem State.Inv.clearErrors {s : State} (h : s.Inv) : s.clearErrors.Inv :=
  { h with
    errCode := StatusReg.clear_errCode
    lastErr := Nat.zero_le 6 }

/-- MACC may be set to what R37 allows. -/
theorem State.Inv.setMacc {s : State} (h : s.Inv) {b : Bits} (hun : s.cfg.valid = false → b = [])
    (hlt : s.cfg.valid = true → b.length < s.cfg.logn.toNat) : (s.setMacc b).Inv where
  params := h.params
  unconfigured hv := by
    obtain ⟨hc, ho, hi, hp, -, hd⟩ := h.unconfigured hv
    exact ⟨hc, ho, hi, hp, hun hv, hd⟩
  configured hv := by
    obtain ⟨n, h1, hmax, hc, ho, hi, hp, -⟩ := h.configured hv
    have hlogn : s.cfg.logn.toNat ≤ n := by
      rw [hc, configReg, BitVec.toNat_ofNat]
      exact Nat.mod_le n _
    exact ⟨n, h1, hmax, hc, ho, hi, hp, (hlt hv).trans_le hlogn⟩
  dacc := h.dacc
  errCode := h.errCode
  lastErr := h.lastErr

theorem State.Inv.emptyMacc {s : State} (h : s.Inv) : (s.setMacc []).Inv :=
  h.setMacc (fun _ => rfl) (fun hv => (h.configured_fields hv).1)

/-- DACC may be set to what R37 allows. -/
theorem State.Inv.setDacc {s : State} (h : s.Inv) {b : Bits} (hun : s.cfg.valid = false → b = [])
    (hlt : b.length < 8) : (s.setDacc b).Inv :=
  { h with
    unconfigured := fun hv => by
      obtain ⟨hc, ho, hi, hp, hm, -⟩ := h.unconfigured hv
      exact ⟨hc, ho, hi, hp, hm, hun hv⟩
    dacc := hlt }

theorem State.Inv.emptyDacc {s : State} (h : s.Inv) : (s.setDacc []).Inv := h.setDacc (fun _ => rfl) (by decide)

theorem State.Inv.packBits {s : State} (h : s.Inv) (hv : s.cfg.valid = true) (b : Bits) : (s.packBits b).Inv :=
  (h.emitBout _).setDacc (fun hf => absurd (hv.symm.trans hf) (by decide)) (splitGroups_rest_lt (by decide) _)

/-- The configuration may be dropped where MACC and DACC are empty (R22, R37). -/
theorem State.Inv.dropConfig {s : State} (h : s.Inv) (hm : s.macc = []) (hd : s.dacc = []) : s.dropConfig.Inv :=
  { h with
    unconfigured := fun _ => ⟨rfl, rfl, rfl, rfl, hm, hd⟩
    configured := fun hv => Bool.noConfusion hv }

/-- The configuration of a legal order may come in force where MACC is empty (R110). -/
theorem State.Inv.configure {s : State} (h : s.Inv) {n : Nat} (hn : 1 ≤ n) (hmax : n ≤ s.params.lognMax)
    (hm : s.macc = []) (gray : Bool) : (s.configure n gray).Inv :=
  { h with
    unconfigured := fun hv => Bool.noConfusion hv
    configured := fun _ => ⟨n, hn, hmax, rfl, rfl, rfl, rfl, by rw [State.configure_macc, hm]; exact hn⟩ }

/-- A block right after reset meets the invariant, whatever its legal parameters. -/
theorem State.Inv.applyReset {s : State} (hp : s.params.Legal) : s.applyReset.Inv where
  params := hp
  unconfigured _ := ⟨rfl, rfl, rfl, rfl, rfl, rfl⟩
  configured hv := Bool.noConfusion hv
  dacc := Nat.zero_lt_succ 7
  errCode := StatusReg.clear_errCode
  lastErr := Nat.zero_le 6

theorem exec_keeps_inv {i : Instr} {s t : State} (hs : s.Inv) (h : exec i s = .next t) : t.Inv := by
  cases exec_effect h with
  | failed _ e => exact hs.raise e _
  | answered _ d => exact hs.ok d
  | cleared d => exact hs.clearErrors.ok d
  | unconfigured nreq gray => exact (hs.emptyMacc.emptyDacc.dropConfig rfl rfl).raise _ _
  | configured nreq gray n d hn hmax => exact (hs.emptyMacc.emptyDacc.configure hn hmax rfl gray).ok d
  | pushed v w xs rest d hv hrest =>
    exact ((hs.emitSout xs).setMacc (fun hf => absurd (hv.symm.trans hf) (by decide)) (fun _ => hrest)).ok d
  | ended d => exact hs.emptyMacc.ok d
  | sliced re im s' bits d hv hs' =>
    rcases hs' with rfl | rfl
    · exact (hs.packBits hv bits).ok d
    · exact (hs.drawn.packBits hv bits).ok d
  | flushed tail d => exact (hs.emitBout tail).emptyDacc.ok d

theorem kept_inv : KeptByOperations State.Inv where
  exec := exec_keeps_inv
  raise e c hs := hs.raise e c
  reset hs := .applyReset hs.params
  block hs hst := hs.of_sameBlock hst

/-- Every step keeps the invariant. -/
theorem step_keeps_inv {s t : State} (hs : s.Inv) (h : step s = .next t) : t.Inv := kept_inv.step hs h

/-- Every step keeps a conforming state conforming (R8). -/
theorem State.Conforming.step {s t : State} (hs : s.Conforming) (h : step s = .next t) : t.Conforming :=
  ⟨step_keeps_inv hs.inv h, (step_params h).symm ▸ hs.conforms⟩

end Sys2Proof.Machine
end

section
/-! The reference SYMVAL conforms (41_configuration.md R121): the pattern it finds is the nearest one, and below 1 two
neighbouring patterns are at most 2^−24 apart. -/

namespace Sys2Proof.Machine

/-! ### The values of patterns -/

/-- The real number a positive binary32 pattern denotes. -/
noncomputable def patternValue (p : Nat) : ℝ := (f32Mag (BitVec.ofNat 32 p) : ℝ) / 2 ^ 149

/-- The pattern of 1. -/
def onePattern : Nat := 0x3F800000

theorem patternValue_zero : patternValue 0 = 0 := by
  have h : f32Mag (BitVec.ofNat 32 0) = 0 := by decide
  simp [patternValue, h]

theorem patternValue_one : patternValue onePattern = 1 := by
  have h : f32Mag (BitVec.ofNat 32 onePattern) = 2 ^ 149 := by decide
  rw [patternValue, h, Nat.cast_pow, Nat.cast_ofNat, div_self (by positivity)]

theorem patternValue_lt {p q : Nat} (h : p < q) (hq : q < 2 ^ 31) : patternValue p < patternValue q :=
  div_lt_div_of_pos_right (by exact_mod_cast f32Mag_strictMono h hq) (by positivity)

theorem patternValue_le {p q : Nat} (h : p ≤ q) (hq : q < 2 ^ 31) : patternValue p ≤ patternValue q := by
  rcases h.eq_or_lt with rfl | hlt
  · exact le_rfl
  · exact (patternValue_lt hlt hq).le

/-- A pattern of a value up to 1 is at most that of 1. -/
theorem le_onePattern {p : Nat} (hp : p < 2 ^ 31) (h : patternValue p ≤ 1) : p ≤ onePattern := by
  by_contra hlt
  exact absurd (patternValue_one ▸ patternValue_lt (not_le.1 hlt) hp) (not_lt.2 h)

/-- Below 1 the next pattern is at most 2^125 units of 2^−149 further on. -/
theorem f32Mag_succ_le {p : Nat} (hp : p < onePattern) :
    f32Mag (BitVec.ofNat 32 (p + 1)) ≤ f32Mag (BitVec.ofNat 32 p) + 2 ^ 125 := by
  have hp' : p < 0x3F800000 := hp
  have hulp : 2 ^ (p / 2 ^ 23 - 1) ≤ 2 ^ 125 := Nat.pow_le_pow_right (by decide) (by omega)
  rw [f32Mag_ofNat (by omega), f32Mag_ofNat (by omega)]
  by_cases hcarry : p % 2 ^ 23 + 1 < 2 ^ 23
  · have he : (p + 1) / 2 ^ 23 = p / 2 ^ 23 := by omega
    have hf : (p + 1) % 2 ^ 23 = p % 2 ^ 23 + 1 := by omega
    rw [he, hf]
    split
    · omega
    · rw [← Nat.add_assoc, Nat.succ_mul]
      omega
  · have he : (p + 1) / 2 ^ 23 = p / 2 ^ 23 + 1 := by omega
    have hf : (p + 1) % 2 ^ 23 = 0 := by omega
    have hf' : p % 2 ^ 23 = 2 ^ 23 - 1 := by omega
    rw [he, hf, hf', if_neg (Nat.succ_ne_zero _), Nat.add_sub_cancel]
    split
    next h0 => rw [h0]; omega
    next h0 =>
      have hpow : 2 ^ (p / 2 ^ 23) = 2 * 2 ^ (p / 2 ^ 23 - 1) := by
        rw [← pow_succ', Nat.sub_add_cancel (Nat.one_le_iff_ne_zero.2 h0)]
      rw [hpow]
      omega

theorem patternValue_succ_le {p : Nat} (hp : p < onePattern) : patternValue (p + 1) ≤ patternValue p + 1 / 2 ^ 24 := by
  have h : (f32Mag (BitVec.ofNat 32 (p + 1)) : ℝ) ≤ f32Mag (BitVec.ofNat 32 p) + 2 ^ 125 := by
    exact_mod_cast f32Mag_succ_le hp
  calc patternValue (p + 1) ≤ (f32Mag (BitVec.ofNat 32 p) + 2 ^ 125) / 2 ^ 149 :=
        div_le_div_of_nonneg_right h (by positivity)
    _ = patternValue p + 1 / 2 ^ 24 := by rw [patternValue]; ring

/-- What the fields of the pattern `p` with the sign `b` are. -/
theorem f32_fields {p : Nat} (hp : p < 2 ^ 31) (b : Bool) :
    let x := BitVec.ofNat 32 (b.toNat * 2 ^ 31 + p)
    (f32Exp x).toNat = p / 2 ^ 23 ∧ (f32Frac x).toNat = p % 2 ^ 23 ∧ x.getLsbD 31 = b := by
  intro x
  have hb := b.toNat_le
  have hx : x.toNat = b.toNat * 2 ^ 31 + p := by
    rw [BitVec.toNat_ofNat]
    omega
  refine ⟨?_, ?_, ?_⟩
  · rw [f32Exp, toNat_extractLsb', hx]
    omega
  · rw [f32Frac, toNat_extractLsb', hx]
    omega
  · have hsign : (b.toNat * 2 ^ 31 + p) / 2 ^ 31 % 2 = b.toNat := by omega
    rw [BitVec.getLsbD, hx, Nat.testBit_eq_decide_div_mod_eq, hsign]
    cases b <;> rfl

/-- The value of a pattern with a sign (R144). -/
theorem f32Rat_signed {p : Nat} (hp : p < 2 ^ 31) (b : Bool) :
    ((f32Rat (BitVec.ofNat 32 (b.toNat * 2 ^ 31 + p)) : ℚ) : ℝ) = if b then -patternValue p else patternValue p := by
  obtain ⟨he, hf, hs⟩ := f32_fields hp b
  obtain ⟨he', hf', -⟩ := f32_fields hp false
  have hmag : f32Mag (BitVec.ofNat 32 (b.toNat * 2 ^ 31 + p)) = f32Mag (BitVec.ofNat 32 p) := by
    rw [Bool.toNat_false, Nat.zero_mul, Nat.zero_add] at he' hf'
    rw [f32Mag, f32Mag, BitVec.eq_of_toNat_eq (he.trans he'.symm), BitVec.eq_of_toNat_eq (hf.trans hf'.symm)]
  rw [f32Rat, f32Scaled, hs, hmag, patternValue]
  cases b
  · simp
  · simp [neg_div]

/-- A pattern up to that of 1 is finite, with either sign (R144). -/
theorem f32Finite_signed {p : Nat} (hp : p ≤ onePattern) (b : Bool) :
    f32Finite (BitVec.ofNat 32 (b.toNat * 2 ^ 31 + p)) = true := by
  have hp' : p ≤ 0x3F800000 := hp
  obtain ⟨he, -, -⟩ := f32_fields (p := p) (by omega) b
  have hexp : f32Exp (BitVec.ofNat 32 (b.toNat * 2 ^ 31 + p)) ≠ 0xFF#8 := by
    intro h
    rw [h] at he
    change 255 = p / 2 ^ 23 at he
    omega
  simp only [f32Finite, f32IsNaN, f32IsInf, hexp, decide_false, Bool.false_and, Bool.not_false, Bool.and_self]

/-! ### The nearest pattern -/

section
variable {n u : Nat} (hu : 2 * u ≤ 2 ^ n)
include hu

/-- The cosine of an angle in the first quadrant. -/
theorem cos_firstQuadrant_nonneg : 0 ≤ Real.cos (u * Real.pi / 2 ^ n) := by
  have hcast : 2 * (u : ℝ) ≤ 2 ^ n := by exact_mod_cast hu
  refine Real.cos_nonneg_of_neg_pi_div_two_le_of_le ?_ ?_
  · have : 0 ≤ u * Real.pi / 2 ^ n := by positivity
    linarith [Real.pi_pos]
  · rw [div_le_div_iff₀ (by positivity) (by positivity)]
    nlinarith [Real.pi_pos]

/-- The search brackets the cosine between a pattern of at most 1 and the next one. -/
theorem floorPattern_bracket :
    floorPattern n u 30 0 ≤ onePattern ∧
    patternValue (floorPattern n u 30 0) ≤ Real.cos (u * Real.pi / 2 ^ n) ∧
    Real.cos (u * Real.pi / 2 ^ n) < patternValue (floorPattern n u 30 0 + 1) := by
  obtain ⟨-, hlt, hle, hnext⟩ := floorPattern_spec (n := n) (u := u) (by omega) 30 0 (by decide)
    (patternValue_zero.trans_le (cos_firstQuadrant_nonneg hu))
  have hone : floorPattern n u 30 0 ≤ 0x3F800000 := le_onePattern (by omega) (le_trans hle (Real.cos_le_one _))
  exact ⟨hone, hle, hnext _ (Nat.lt_succ_self _) (by omega)⟩

/-- The midpoint comparison takes the nearer end of the bracket. -/
theorem nearestPattern_cases :
    let p := floorPattern n u 30 0
    (nearestPattern n u = p ∧ Real.cos (u * Real.pi / 2 ^ n) ≤ (patternValue p + patternValue (p + 1)) / 2) ∨
    (nearestPattern n u = p + 1 ∧ (patternValue p + patternValue (p + 1)) / 2 ≤ Real.cos (u * Real.pi / 2 ^ n)) := by
  intro p
  have hcmp := cosCompare_compares n u
    ((f32Mag (BitVec.ofNat 32 p) + f32Mag (BitVec.ofNat 32 (p + 1)) : Nat) : Int) 150 (by omega)
  have hmid : (((f32Mag (BitVec.ofNat 32 p) + f32Mag (BitVec.ofNat 32 (p + 1)) : Nat) : Int) : ℝ) / 2 ^ 150
      = (patternValue p + patternValue (p + 1)) / 2 := by
    rw [patternValue, patternValue]
    push_cast
    ring
  rw [hmid] at hcmp
  unfold nearestPattern
  dsimp only
  split
  next h => rw [h] at hcmp; exact .inl ⟨rfl, le_of_lt hcmp⟩
  next h => rw [h] at hcmp; exact .inr ⟨rfl, le_of_lt hcmp⟩
  next h =>
    rw [h] at hcmp
    split
    · exact .inl ⟨rfl, le_of_eq hcmp⟩
    · exact .inr ⟨rfl, ge_of_eq hcmp⟩

/-- No pattern is nearer to the cosine than the nearest one (R121). -/
theorem nearestPattern_nearest {q : Nat} (hq : q < 2 ^ 31) :
    |patternValue (nearestPattern n u) - Real.cos (u * Real.pi / 2 ^ n)| ≤
      |patternValue q - Real.cos (u * Real.pi / 2 ^ n)| := by
  obtain ⟨hone, hle, hlt⟩ := floorPattern_bracket hu
  have hone' : floorPattern n u 30 0 ≤ 0x3F800000 := hone
  have hside : patternValue q ≤ patternValue (floorPattern n u 30 0) ∨
      patternValue (floorPattern n u 30 0 + 1) ≤ patternValue q := by
    rcases Nat.lt_or_ge (floorPattern n u 30 0) q with h | h
    · exact .inr (patternValue_le h hq)
    · exact .inl (patternValue_le h (by omega))
  rcases nearestPattern_cases hu with ⟨hp, hmid⟩ | ⟨hp, hmid⟩ <;> rw [hp]
  · rw [abs_of_nonpos (by linarith)]
    rcases hside with h | h
    · rw [abs_of_nonpos (by linarith)]; linarith
    · rw [abs_of_nonneg (by linarith)]; linarith
  · rw [abs_of_nonneg (by linarith)]
    rcases hside with h | h
    · rw [abs_of_nonpos (by linarith)]; linarith
    · rw [abs_of_nonneg (by linarith)]; linarith

theorem nearestPattern_le_one : nearestPattern n u ≤ onePattern := by
  obtain ⟨hone, -, -⟩ := floorPattern_bracket hu
  have hone' : floorPattern n u 30 0 ≤ 0x3F800000 := hone
  have hlt : nearestPattern n u < 2 ^ 31 := by
    rcases nearestPattern_cases hu with ⟨hp, -⟩ | ⟨hp, -⟩ <;> omega
  refine le_onePattern hlt ?_
  have hcos := Real.cos_le_one (u * Real.pi / 2 ^ n)
  have hnear := nearestPattern_nearest hu (q := onePattern) (by decide)
  rw [patternValue_one, abs_of_nonneg (sub_nonneg.2 hcos)] at hnear
  linarith [le_abs_self (patternValue (nearestPattern n u) - Real.cos (u * Real.pi / 2 ^ n))]

/-- The nearest pattern is within 2^−24 of the cosine, since the pattern below the cosine is. -/
theorem nearestPattern_within :
    |patternValue (nearestPattern n u) - Real.cos (u * Real.pi / 2 ^ n)| ≤ 1 / 2 ^ 24 := by
  obtain ⟨hone, hle, hlt⟩ := floorPattern_bracket hu
  have hone' : floorPattern n u 30 0 ≤ 0x3F800000 := hone
  refine (nearestPattern_nearest hu (q := floorPattern n u 30 0) (by omega)).trans ?_
  rw [abs_of_nonpos (sub_nonpos.2 hle)]
  rcases hone.eq_or_lt with he | hbelow
  · have : (0 : ℝ) ≤ 1 / 2 ^ 24 := by positivity
    rw [he, patternValue_one]
    linarith [Real.cos_le_one (u * Real.pi / 2 ^ n)]
  · linarith [patternValue_succ_le hbelow]

end

/-! ### The reference SYMVAL -/

/-- Whole turns, 2N units each, leave the cosine as it is. -/
theorem cos_mod_turn (n u : Nat) :
    Real.cos ((u % (2 * 2 ^ n) : ℕ) * Real.pi / 2 ^ n) = Real.cos (u * Real.pi / 2 ^ n) := by
  have hu : (u : ℝ) = (u % (2 * 2 ^ n) : ℕ) + 2 * 2 ^ n * (u / (2 * 2 ^ n) : ℕ) := by
    exact_mod_cast (Nat.mod_add_div u (2 * 2 ^ n)).symm
  rw [← Real.cos_add_nat_mul_two_pi _ (u / (2 * 2 ^ n))]
  congr 1
  rw [hu]
  field_simp

theorem cos_mirror_turn {n v : Nat} (hv : v ≤ 2 * 2 ^ n) :
    Real.cos ((2 * 2 ^ n - v : ℕ) * Real.pi / 2 ^ n) = Real.cos (v * Real.pi / 2 ^ n) := by
  rw [← Real.cos_two_pi_sub]
  congr 1
  push_cast [Nat.cast_sub hv]
  field_simp
  ring

theorem cos_mirror_half {n h : Nat} (hh : h ≤ 2 ^ n) :
    Real.cos ((2 ^ n - h : ℕ) * Real.pi / 2 ^ n) = -Real.cos (h * Real.pi / 2 ^ n) := by
  rw [← Real.cos_pi_sub]
  congr 1
  push_cast [Nat.cast_sub hh]
  field_simp

/-- What `cosRef` answers: the nearest pattern of an angle of the first quadrant, with the sign of the cosine. -/
theorem cosRef_cases (n u : Nat) :
    ∃ (h : Nat) (b : Bool), 2 * h ≤ 2 ^ n ∧ cosRef n u = BitVec.ofNat 32 (b.toNat * 2 ^ 31 + nearestPattern n h) ∧
      Real.cos (u * Real.pi / 2 ^ n) =
        if b then -Real.cos (h * Real.pi / 2 ^ n) else Real.cos (h * Real.pi / 2 ^ n) := by
  obtain ⟨h, hle, hdef, hcos⟩ : ∃ h ≤ 2 ^ n,
      h = (if 2 ^ n < u % (2 * 2 ^ n) then 2 * 2 ^ n - u % (2 * 2 ^ n) else u % (2 * 2 ^ n)) ∧
      Real.cos (h * Real.pi / 2 ^ n) = Real.cos (u * Real.pi / 2 ^ n) := by
    have hlt := Nat.mod_lt u (show 0 < 2 * 2 ^ n by positivity)
    refine ⟨_, ?_, rfl, ?_⟩ <;> split
    · omega
    · omega
    · rw [cos_mirror_turn hlt.le, cos_mod_turn]
    · exact cos_mod_turn n u
  unfold cosRef
  dsimp only
  rw [← hdef, ← hcos]
  split
  · exact ⟨2 ^ n - h, true, by omega, by simp, by simp [cos_mirror_half hle]⟩
  · exact ⟨h, false, by omega, by simp, rfl⟩

/-- The reference cosine is finite and within 2^−24 of the exact one (R121). -/
theorem cosRef_conforms (n u : Nat) : f32Finite (cosRef n u) = true ∧
    |((f32Rat (cosRef n u) : ℚ) : ℝ) - Real.cos (u * Real.pi / 2 ^ n)| ≤ 1 / 2 ^ 24 := by
  obtain ⟨h, b, hh, href, hcos⟩ := cosRef_cases n u
  have hone := nearestPattern_le_one hh
  refine ⟨href ▸ f32Finite_signed hone b, ?_⟩
  rw [href, hcos, f32Rat_signed (hone.trans_lt (by decide)) b]
  cases b with
  | false => exact nearestPattern_within hh
  | true =>
    rw [if_pos rfl, if_pos rfl, neg_sub_neg, abs_sub_comm]
    exact nearestPattern_within hh

/-- Three quarter turns on, the cosine is the sine. -/
theorem cos_three_quarters_on {n : Nat} (hn : 1 ≤ n) (u : Nat) :
    Real.cos ((u + 3 * 2 ^ n / 2 : ℕ) * Real.pi / 2 ^ n) = Real.sin (u * Real.pi / 2 ^ n) := by
  obtain ⟨m, rfl⟩ : ∃ m, n = m + 1 := ⟨n - 1, by omega⟩
  have hhalf : 3 * 2 ^ (m + 1) / 2 = 3 * 2 ^ m := by rw [pow_succ]; omega
  have hangle : ((u + 3 * 2 ^ m : ℕ) : ℝ) * Real.pi / 2 ^ (m + 1)
      = u * Real.pi / 2 ^ (m + 1) - Real.pi / 2 + 2 * Real.pi := by
    push_cast
    rw [pow_succ]
    field_simp
    ring
  rw [hhalf, hangle, Real.cos_add_two_pi, Real.cos_sub_pi_div_two]

theorem sinRef_conforms {n : Nat} (hn : 1 ≤ n) (u : Nat) : f32Finite (sinRef n u) = true ∧
    |((f32Rat (sinRef n u) : ℚ) : ℝ) - Real.sin (u * Real.pi / 2 ^ n)| ≤ 1 / 2 ^ 24 := by
  rw [← cos_three_quarters_on hn]
  exact cosRef_conforms n _

/-- Parameters that give no symbol value of their own have the reference ones. -/
theorem symvalOf_reference {p : Params} (hp : p.symval = []) (n u : Nat) :
    symvalOf p (2 ^ n) u = (cosRef n u, sinRef n u) := by
  simp [symvalOf, hp, Nat.log2_two_pow]

/-- The reference SYMVAL conforms within every SYM_TOL from 2^−24 on (R121). -/
theorem reference_symvalConformsAt {p : Params} {n : Nat} (hp : p.symval = []) (htol : 1 / 2 ^ 24 ≤ p.symTol) (hn : 1 ≤ n)
    (u : Nat) : SymvalConformsAt p n u := by
  have htol' : (1 : ℝ) / 2 ^ 24 ≤ p.symTol := by
    have := (Rat.cast_le (K := ℝ)).2 htol
    push_cast at this
    exact this
  obtain ⟨hfc, hc⟩ := cosRef_conforms n u
  obtain ⟨hfs, hs⟩ := sinRef_conforms hn u
  unfold SymvalConformsAt
  rw [symvalOf_reference hp]
  exact ⟨hfc, hfs, hc.trans htol', hs.trans htol'⟩

end Sys2Proof.Machine
end

section
/-! The settled statements of 00_scope.md. -/

namespace Sys2Proof.Machine

/-- With SLICE_TOL = 0 the reference SLICEDEC conforms: the band of R142 is empty. -/
theorem reference_slicedecConformsAt {p : Params} (hp : p.slicedec = []) (htol : p.sliceTol = 0) (n : Nat) (rot : Bool)
    (re im : F32) : SlicedecConformsAt p n rot re im := by
  have href : slicedecOf p (2 ^ n) rot re im = sliceRef (2 ^ n) rot re im := by simp [slicedecOf, hp]
  intro t m _ _
  refine ⟨fun _ => href, fun hband => ?_⟩
  rw [htol, Rat.cast_zero] at hband
  exact absurd hband (abs_nonneg _).not_gt

theorem Params.default_legal : Params.default.Legal := by
  refine ⟨by decide, by decide, fun e he => absurd he List.not_mem_nil, ?_, ?_, ?_⟩ <;> norm_num [Params.default]

theorem Params.default_conforms : ParamsConform Params.default where
  legal := Params.default_legal
  symval _ u hn _ _ := reference_symvalConformsAt rfl le_rfl hn u
  slicedec n re im _ _ _ _ _ := reference_slicedecConformsAt rfl rfl n _ re im

theorem State.reset_conforming : State.reset.Conforming where
  inv := .applyReset (s := State.reset) Params.default_legal
  conforms := Params.default_conforms

end Sys2Proof.Machine

namespace Sys2Proof.Proofs

open Sys2Proof.Machine

/-- Settles O60: `step_params` is the frame of the parameters, `State.Conforming.step` adds the invariant that every step
keeps, and the reset state's default parameters conform. -/
theorem parametersConformForLife : Obligations.ParametersConformForLife :=
  ⟨fun _ _ => step_params, fun _ _ => State.Conforming.step, State.reset_conforming⟩

end Sys2Proof.Proofs
end

section
/-! What answers a command beat: the word an instruction is decoded from, one response a beat, and the frame of CFG and
the tables. -/

namespace Sys2Proof

/-- A decoded instruction's own word is the word it was decoded from (R78, R81). -/
theorem word_of_decode {b : Beat} {i : Instr} (h : decode b = .ok i) : i.word = b.cmd := by
  obtain ⟨hop, hoperands, -, -⟩ := decode_ok h
  apply BitVec.eq_of_toNat_eq
  rw [i.word_toNat, hop, hoperands, ← word_toNat_split]

end Sys2Proof

namespace Sys2Proof.Machine

/-! ### One response a beat -/

/-- Whatever a beat answers, it appends the response of one error, whose code STATUS takes, or one successful response,
and then leaves STATUS, but for CLRERR (R34, R162, R170, R171). -/
theorem runBeat_response {b : Beat} {s t : State} (h : runBeat b s = .next t) :
    (∃ e, t.responses = s.responses ++ [⟨Err.code e, b.cmd.setWidth 64⟩] ∧ t.status = s.status.afterError e) ∨
    (∃ d, t.responses = s.responses ++ [⟨okCode, d⟩] ∧
      (t.status = s.status ∨ (decode b = .ok .clrerr ∧ t.status = StatusReg.clear))) := by
  unfold runBeat at h
  split at h
  next i hi =>
    rw [hi, ← word_of_decode hi]
    rcases exec_next h with ⟨e, rfl⟩ | ⟨nreq, gray, rfl, rfl⟩ | ⟨d, hresp, hstatus⟩
    · exact .inl ⟨e, rfl, rfl⟩
    · exact .inl ⟨.cfgerr, rfl, rfl⟩
    · exact .inr ⟨d, hresp, hstatus.imp_right (fun ⟨hi, hs⟩ => ⟨congrArg _ hi, hs⟩)⟩
  next => cases h; exact .inl ⟨.illegal, rfl, rfl⟩

/-! ### The frame of the configuration -/

/-- Two states of one configuration: CFG and the stored tables agree (R22, R28 to R30). -/
structure SameConfig (s t : State) : Prop where
  cfg : t.cfg = s.cfg
  ord : t.ord = s.ord
  inv : t.inv = s.inv
  ph  : t.ph = s.ph

theorem SameBlock.sameConfig {s t : State} (h : SameBlock s t) : SameConfig s t := ⟨h.cfg, h.ord, h.inv, h.ph⟩

/-- No command but CFG writes the configuration. -/
theorem exec_sameConfig {i : Instr} {s t : State} (h : exec i s = .next t) (hi : i.opcode ≠ 1) : SameConfig s t := by
  cases exec_effect h with
  | unconfigured => exact absurd rfl hi
  | configured => exact absurd rfl hi
  | sliced _ _ s' _ _ _ hs' => rcases hs' with rfl | rfl <;> exact ⟨rfl, rfl, rfl, rfl⟩
  | _ => exact ⟨rfl, rfl, rfl, rfl⟩

/-- No beat but one of opcode 1 writes the configuration. -/
theorem runBeat_sameConfig {b : Beat} {s t : State} (h : runBeat b s = .next t) (hop : (fieldOp b.cmd).toNat ≠ 1) :
    SameConfig s t := by
  unfold runBeat at h
  split at h
  next i hi => exact exec_sameConfig h ((decode_ok hi).1 ▸ hop)
  next => cases h; exact ⟨rfl, rfl, rfl, rfl⟩

/-- C[31:28] as the statements write it is the opcode field (R9, R71). -/
theorem slice_eq_fieldOp (c : Word) : Statements.slice c 31 28 = (fieldOp c).toNat := (toNat_fieldOp c).symm

/-- The inputs of the host that may write the configuration: a beat of opcode 1 and the two forms of RESET. -/
inductive MayConfigure : HostInput → Prop
  | beat (b : Beat) (hop : Statements.slice b.cmd 31 28 = 1) : MayConfigure (.beat b)
  | reset : MayConfigure .reset
  | resetDuring (b : Beat) : MayConfigure (.resetDuring b)

/-- No other input writes the configuration. -/
theorem deliver_sameConfig {x : HostInput} {s t : State} (h : deliver x s = .next t) (hx : ¬ MayConfigure x) :
    SameConfig s t := by
  cases x with
  | beat b => exact runBeat_sameConfig h (slice_eq_fieldOp b.cmd ▸ fun hop => hx (.beat b hop))
  | reset => exact absurd .reset hx
  | resetDuring b => exact absurd (.resetDuring b) hx
  | takeResponse => cases h; exact (SameBlock.takeResponse s).sameConfig
  | takeSample => cases h; exact (SameBlock.takeSample s).sameConfig
  | takeByte => cases h; exact (SameBlock.takeByte s).sameConfig

/-- A step keeps the configuration, or the input it takes is one that may write it. -/
theorem step_sameConfig {s t : State} (h : step s = .next t) :
    SameConfig s t ∨ ∃ x rest, s.inputs = x :: rest ∧ MayConfigure x := by
  unfold step State.nextInput? at h
  cases hin : s.inputs with
  | nil => rw [hin] at h; cases h; exact .inl ⟨rfl, rfl, rfl, rfl⟩
  | cons x rest =>
    rw [hin] at h
    by_cases hx : MayConfigure x
    · exact .inr ⟨x, rest, rfl, hx⟩
    · obtain ⟨hc, ho, hi, hp⟩ := deliver_sameConfig h hx
      exact .inl ⟨hc, ho, hi, hp⟩

end Sys2Proof.Machine
end

section
/-! The tables of a configuration (41_configuration.md R112 to R120): ORD is a permutation, INV its inverse on both sides,
PH the phases. -/

namespace Sys2Proof.Machine

/-! ### ORD -/

/-- Natural-binary ordering is the identity (R112, R116). -/
theorem naturalOrder_eq_range (n : Nat) : naturalOrder n = List.range (2 ^ n) := by
  have hentry : ∀ k ∈ List.range (2 ^ n), bitsToInt (intToBits k n) = id k :=
    fun k hk => bitsToInt_intToBits (List.mem_range.1 hk)
  rw [naturalOrder, List.map_congr_left hentry, List.map_id]

/-- The Gray rows after m steps read, in some order, 0 to 2^(m+1) − 1: a step keeps the values it prefixes with 0 and
moves those it mirrors and prefixes with 1 up by 2^(m+1) (R113). -/
theorem grayRows_perm (m : Nat) : ((grayRows m).map bitsToInt).Perm (List.range (2 ^ (m + 1))) := by
  induction m with
  | zero => decide
  | succ m ih =>
    have hlow : ((grayRows m).map (false :: ·)).map bitsToInt = (grayRows m).map bitsToInt := by
      simp [bitsToInt_cons, Function.comp_def]
    have hhigh : ((grayRows m).reverse.map (true :: ·)).map bitsToInt
        = ((grayRows m).reverse.map bitsToInt).map (2 ^ (m + 1) + ·) := by
      rw [List.map_map, List.map_map]
      refine List.map_congr_left fun r hr => ?_
      have hlen := (grayRows_shape m).2 r (List.mem_reverse.1 hr)
      simp [bitsToInt_cons, hlen]
    rw [grayRows, grayStep, List.map_append, hlow, hhigh, pow_succ 2 (m + 1), Nat.mul_two, List.range_add]
    exact ih.append ((((grayRows m).reverse_perm.map bitsToInt).trans ih).map _)

/-- ORD is a permutation of 0..N−1 in both modes (R117). -/
theorem orderTable_perm {n : Nat} (hn : 1 ≤ n) (gray : Bool) : (orderTable n gray).Perm (List.range (2 ^ n)) := by
  cases gray with
  | false => exact .of_eq (naturalOrder_eq_range n)
  | true =>
    have hgray := grayRows_perm (n - 1)
    rwa [Nat.sub_add_cancel hn] at hgray

/-! ### INV -/

@[simp] theorem length_inverseTable (o : List Nat) : (inverseTable o).length = o.length := by
  rw [inverseTable, length_fillInverse, List.length_replicate]

section
variable {N : Nat} {o : List Nat} (ho : o.Perm (List.range N))
include ho

theorem length_of_perm_range : o.length = N := ho.length_eq.trans List.length_range

/-- INV[ORD[k]] = k (R115, R117). -/
theorem inverseTable_at {k v : Nat} (h : o[k]? = some v) : (inverseTable o)[v]? = some k := by
  have hbound : ∀ x ∈ o, x < (List.replicate o.length 0).length := by
    intro x hx
    rw [List.length_replicate, length_of_perm_range ho]
    exact List.mem_range.1 (ho.mem_iff.1 hx)
  have hfill := fillInverse_at o 0 _ (ho.nodup_iff.2 List.nodup_range) hbound k v h
  rwa [Nat.zero_add] at hfill

/-- Every slot of a permutation holds a value, and INV takes it back to the slot. -/
theorem exists_value_at_slot {k : Nat} (hk : k < N) : ∃ v, o[k]? = some v ∧ (inverseTable o)[v]? = some k := by
  have hslot := List.getElem?_eq_getElem (l := o) (i := k) (by rwa [length_of_perm_range ho])
  exact ⟨_, hslot, inverseTable_at ho hslot⟩

/-- Every value has a slot in a permutation, and INV holds it: ORD[INV[v]] = v. -/
theorem exists_slot_of_value {v : Nat} (hv : v < N) : ∃ k, (inverseTable o)[v]? = some k ∧ o[k]? = some v := by
  obtain ⟨k, hk⟩ := List.mem_iff_getElem?.1 (ho.mem_iff.2 (List.mem_range.2 hv))
  exact ⟨k, inverseTable_at ho hk, hk⟩

end

/-! ### PH -/

@[simp] theorem length_phaseTable (order : Nat) (rot : Bool) : (phaseTable order rot).length = order := by
  simp [phaseTable]

/-- PH[k] = 2·k + ROT (R120). -/
theorem phaseTable_at {order k : Nat} (hk : k < order) (rot : Bool) :
    (phaseTable order rot)[k]? = some (2 * k + rot.toNat) := by
  rw [phaseTable, List.getElem?_map, List.getElem?_range hk, Option.map_some]

/-! ### A configured block -/

/-- MACC of a configured block holds fewer than LOGN bits (R37). -/
theorem State.Inv.macc_lt_logn {s : State} (h : s.Inv) (hv : s.cfg.valid = true) : s.macc.length < s.cfg.logn.toNat := by
  obtain ⟨n, -, hmax, hc, -, -, -, hlt⟩ := h.configured hv
  have hn : n < 2 ^ 4 := by
    have := h.params.2.1
    omega
  rwa [hc, configReg, BitVec.toNat_ofNat, Nat.mod_eq_of_lt hn]

/-- ORD of a configured block is a permutation of 0..N−1 (R28). -/
theorem State.Inv.ord_perm {s : State} (h : s.Inv) (hv : s.cfg.valid = true) :
    s.ord.Perm (List.range s.cfg.order.toNat) := by
  obtain ⟨h1, -, -, hN, -, ho, -, -⟩ := h.configured_fields hv
  rw [ho, hN]
  exact orderTable_perm h1 s.cfg.gray

end Sys2Proof.Machine
end

section
/-! The settled statements of 10_state.md. -/

namespace Sys2Proof.Machine

/-- The STATUS word with no error and both accumulators empty is 0 (R23). -/
theorem StatusReg.clear_word : StatusReg.clear.word 0 0 = 0#32 := by decide

/-- Power-on leaves the block as RESET does: RESET of the reset state changes nothing (R38). -/
theorem State.applyReset_reset : State.reset.applyReset = State.reset := rfl

end Sys2Proof.Machine

namespace Sys2Proof.Proofs

open Sys2Proof.Machine

/-- Settles O48: `kept_inv` shows that the invariant survives each operation, so every step keeps it. -/
theorem stepKeepsInvariant : Obligations.StepKeepsInvariant := fun _ _ => step_keeps_inv

/-- Settles O41, by the two kinds of answer of `runBeat_response`. -/
theorem everyCommandRespondsOnce : Obligations.EveryCommandRespondsOnce := by
  intro s t b h
  rcases runBeat_response h with ⟨e, hresp, hstatus⟩ | ⟨d, hresp, hstatus⟩
  · exact ⟨_, hresp, e.code_range.2, fun _ => ⟨(BitVec.ofNat_toNat 64 b.cmd).symm, hstatus⟩,
      fun hok => absurd hok e.code_ne_zero⟩
  · exact ⟨_, hresp, Nat.zero_le 6, fun hfail => absurd rfl hfail, fun _ => hstatus⟩

/-- Settles O50: the invariant gives the tables as CFG builds them, and the lemmas on those tables say what they hold. -/
theorem configuredTablesAreAsSpecified : Obligations.ConfiguredTablesAreAsSpecified := by
  intro s h hv
  obtain ⟨h1, hmax, -, hN, hrot, -, hinv, hph⟩ := h.configured_fields hv
  have hperm := h.ord_perm hv
  refine ⟨h1, hmax, hN, hrot, h.macc_lt_logn hv, hperm, ?_, ?_, fun k hk => ⟨?_, ?_, ?_⟩⟩
  · rw [hinv, length_inverseTable, length_of_perm_range hperm]
  · rw [hph, length_phaseTable]
  · rw [hinv]; exact exists_value_at_slot hperm hk
  · rw [hinv]; exact exists_slot_of_value hperm hk
  · rw [hph]; exact phaseTable_at hk _

/-- Settles O51: a step that changes a field of the configuration does not keep the configuration, so by
`step_sameConfig` its input is one that may write it. -/
theorem onlyCfgAndResetWriteTheConfiguration : Obligations.OnlyCfgAndResetWriteTheConfiguration := by
  intro s t h hchanged
  rcases step_sameConfig h with ⟨hc, ho, hi, hp⟩ | ⟨x, rest, hin, hx⟩
  · exact absurd hchanged (by simp [hc, ho, hi, hp])
  · refine ⟨rest, ?_⟩
    cases hx with
    | beat b hop => exact .inl ⟨b, hin, hop⟩
    | reset => exact .inr (.inl hin)
    | resetDuring b => exact .inr (.inr ⟨b, hin⟩)

/-- Settles O45: both states are the RESET of some state, and RESET writes every field but PARAM. -/
theorem resetValues : Obligations.ResetValues := by
  intro s t ht
  obtain ⟨u, rfl⟩ : ∃ u : State, t = u.applyReset := by
    rcases ht with rfl | rfl
    · exact ⟨State.reset, State.applyReset_reset.symm⟩
    · exact ⟨s, rfl⟩
  exact ⟨rfl, rfl, StatusReg.clear_word, rfl, rfl, rfl, rfl, rfl, rfl, rfl, rfl, congrArg State.params⟩

/-- Settles O47: the state after power-on is one after RESET, with the default parameters, which are legal. -/
theorem resetMeetsInvariant : Obligations.ResetMeetsInvariant :=
  .applyReset (s := State.reset) Params.default_legal

end Sys2Proof.Proofs
end

section
/-! The host's file formats (20_memory.md R54, R55): lists cut into chunks of one length, symbol files and byte streams. -/

namespace Sys2Proof.Machine

/-! ### Chunks of one length -/

section
variable {α β γ : Type} {f : α → List β} {n : Nat} (hf : ∀ x, (f x).length = n)
include hf

/-- Dropping j chunks of a stream is dropping the j things they were made from. -/
theorem drop_flatMap_chunks (l : List α) (j : Nat) : (l.flatMap f).drop (n * j) = (l.drop j).flatMap f := by
  induction l generalizing j with
  | nil => simp
  | cons x l ih =>
    cases j with
    | zero => simp
    | succ j =>
      rw [List.flatMap_cons, Nat.mul_succ, Nat.add_comm, ← hf x, List.drop_length_add_append, hf x, ih,
        List.drop_succ_cons]

/-- From chunk j on, a stream is that chunk and what follows it. -/
theorem drop_flatMap_chunk_cons {l : List α} {j : Nat} {x : α} (h : l[j]? = some x) :
    (l.flatMap f).drop (n * j) = f x ++ (l.drop (j + 1)).flatMap f := by
  obtain ⟨hj, hx⟩ := List.getElem?_eq_some_iff.1 h
  rw [drop_flatMap_chunks hf, List.drop_eq_getElem_cons hj, hx, List.flatMap_cons]

/-- Element i of chunk j is element n·j + i of the stream. -/
theorem getElem?_flatMap_chunk {l : List α} {j i : Nat} {x : α} (h : l[j]? = some x) (hi : i < n) :
    (l.flatMap f)[n * j + i]? = (f x)[i]? := by
  rw [← List.getElem?_drop, drop_flatMap_chunk_cons hf h, List.getElem?_append_left (by rwa [hf])]

/-- Reading a stream chunk by chunk reads each thing's own chunk. -/
theorem map_chunks_flatMap (g : List β → γ) (l : List α) :
    (List.range l.length).map (fun j => g (((l.flatMap f).drop (n * j)).take n)) = l.map (fun x => g (f x)) := by
  refine List.ext_getElem (by simp) fun j _ hj => ?_
  rw [List.length_map] at hj
  have hx : l[j]? = some l[j] := List.getElem?_eq_getElem hj
  rw [List.getElem_map, List.getElem_map, List.getElem_range, drop_flatMap_chunk_cons hf hx, List.take_left' (hf _)]

end

/-! ### The records of a symbol file -/

/-- Digit i in base 256 of a little-endian number is its byte i (R54). -/
theorem littleEndian_digit {bs : List Byte} {i : Nat} {b : Byte} (h : bs[i]? = some b) :
    BitVec.ofNat 8 (littleEndian bs / 2 ^ (8 * i)) = b := by
  induction bs generalizing i with
  | nil => simp at h
  | cons c bs ih =>
    cases i with
    | zero =>
      obtain rfl : c = b := by simpa using h
      apply BitVec.eq_of_toNat_eq
      simp [littleEndian, Nat.add_mul_mod_self_left, Nat.mod_eq_of_lt c.isLt]
    | succ i =>
      have hrest : littleEndian (c :: bs) / 2 ^ 8 = littleEndian bs := by
        rw [littleEndian, Nat.add_mul_div_left _ _ (by decide), Nat.div_eq_of_lt c.isLt, Nat.zero_add]
      rw [Nat.mul_succ, Nat.add_comm, pow_add, ← Nat.div_div_eq_div_mul, hrest]
      exact ih (by simpa using h)

/-- A little-endian number of L bytes is below 2^(8·L). -/
theorem littleEndian_lt (bs : List Byte) : littleEndian bs < 2 ^ (8 * bs.length) := by
  induction bs with
  | nil => simp [littleEndian]
  | cons b bs ih =>
    have := b.isLt
    rw [littleEndian, List.length_cons, Nat.mul_succ, Nat.add_comm (8 * _), pow_add]
    omega

/-- 8 bytes are the record of the number they read as (R54). -/
theorem recordBytes_littleEndian {bs : List Byte} (h : bs.length = 8) :
    recordBytes (BitVec.ofNat 64 (littleEndian bs)) = bs := by
  have hlt : littleEndian bs < 2 ^ 64 := by simpa [h] using littleEndian_lt bs
  refine List.ext_getElem? fun i => ?_
  by_cases hi : i < 8
  · have hb : bs[i]? = some bs[i] := List.getElem?_eq_getElem _
    rw [toNat_recordBytes hi, BitVec.toNat_ofNat, Nat.mod_eq_of_lt hlt, hb, littleEndian_digit hb]
  · rw [List.getElem?_eq_none (by simpa using hi), List.getElem?_eq_none (by omega)]

/-- The sample word of the two halves of a word is the word (R53). -/
theorem sampleWord_fields (d : DWord) : sampleWord (fieldRe d) (fieldIm d) = d := by
  have := d.isLt
  apply BitVec.eq_of_toNat_eq
  rw [sampleWord, toNat_append_eq, toNat_fieldRe, toNat_fieldIm]
  omega

/-- Every 8 bytes are the record of a sample. -/
theorem exists_sample_of_record {bs : List Byte} (h : bs.length = 8) :
    ∃ x : Sample, recordBytes (sampleWord x.re x.im) = bs := by
  refine ⟨⟨0#16, fieldRe (BitVec.ofNat 64 (littleEndian bs)), fieldIm (BitVec.ofNat 64 (littleEndian bs))⟩, ?_⟩
  rw [sampleWord_fields, recordBytes_littleEndian h]

/-! ### Symbol files -/

/-- A symbol file reads as the sample words it was written from (R54). -/
theorem readSymbolFile_symbolFile (l : List Sample) :
    readSymbolFile (symbolFile l) = some (l.map (fun x => sampleWord x.re x.im)) := by
  have hread : ∀ x : Sample, BitVec.ofNat 64 (littleEndian (recordBytes (sampleWord x.re x.im))) = sampleWord x.re x.im :=
    fun x => by rw [littleEndian_recordBytes, BitVec.ofNat_toNat, BitVec.setWidth_eq]
  have hchunks := map_chunks_flatMap (f := fun x : Sample => recordBytes (sampleWord x.re x.im))
    (fun _ => length_recordBytes _) (fun bs => BitVec.ofNat 64 (littleEndian bs)) l
  rw [readSymbolFile, length_symbolFile, Nat.mul_mod_right, if_pos rfl, Nat.mul_div_cancel_left _ (by decide)]
  exact congrArg some (hchunks.trans (List.map_congr_left fun x _ => hread x))

/-- Byte 8j + i of a symbol file is byte i of the word of sample j (R54). -/
theorem getElem?_symbolFile {l : List Sample} {j i : Nat} {x : Sample} (h : l[j]? = some x) (hi : i < 8) :
    (symbolFile l)[8 * j + i]? = some (BitVec.ofNat 8 ((sampleWord x.re x.im).toNat / 2 ^ (8 * i))) :=
  (getElem?_flatMap_chunk (fun _ => length_recordBytes _) h hi).trans (toNat_recordBytes hi)

/-- Every file of whole records is the symbol file of some samples. -/
theorem exists_symbolFile_eq {n : Nat} {file : List Byte} (h : file.length = 8 * n) : ∃ l, symbolFile l = file := by
  induction n generalizing file with
  | zero => exact ⟨[], (List.length_eq_zero_iff.1 h).symm⟩
  | succ n ih =>
    obtain ⟨l, hl⟩ := ih (file := file.drop 8) (by rw [List.length_drop]; omega)
    obtain ⟨x, hx⟩ := exists_sample_of_record (bs := file.take 8) (by rw [List.length_take]; omega)
    exact ⟨x :: l, by rw [symbolFile_cons, hx, hl, List.take_append_drop]⟩

/-! ### Byte streams -/

/-- Element j of `int_to_bits(v, w)` is bit w−1−j of v (R101). -/
theorem getElem?_intToBits (v : Nat) {w j : Nat} (hj : j < w) : (intToBits v w)[j]? = some (v.testBit (w - 1 - j)) := by
  induction w generalizing j with
  | zero => omega
  | succ w ih =>
    cases j with
    | zero => rfl
    | succ j =>
      rw [intToBits, List.getElem?_cons_succ, ih (by omega)]
      congr 2
      omega

/-- Bit 7 of a byte comes first (R55). -/
theorem getElem?_byteBits (b : Byte) {i : Nat} (hi : i < 8) : (byteBits b)[i]? = some (b.getLsbD (7 - i)) :=
  getElem?_intToBits b.toNat hi

@[simp] theorem byteOf_byteBits (b : Byte) : byteOf (byteBits b) = b := by
  rw [byteOf, bitsToInt_byteBits, BitVec.ofNat_toNat, BitVec.setWidth_eq]

/-- The byte of 8 bits has their value (R55). -/
theorem toNat_byteOf {v : Bits} (h : v.length = 8) : (byteOf v).toNat = bitsToInt v := by
  rw [byteOf, BitVec.toNat_ofNat, Nat.mod_eq_of_lt (h ▸ bitsToInt_lt v)]

theorem byteBits_byteOf {v : Bits} (h : v.length = 8) : byteBits (byteOf v) = v := by
  rw [byteBits, toNat_byteOf h, ← h, intToBits_bitsToInt]

/-- `bytesOf` packs 8 bits at a time (R55). -/
theorem bytesOf_eq (b : Bits) :
    Statements.bytesOf b = (List.range (b.length / 8)).map (fun j => byteOf ((b.drop (8 * j)).take 8)) := by
  simp only [Nat.mul_comm 8]
  rfl

/-- Packing the stream of a byte file gives its bytes back (R55). -/
theorem bytesOf_bitStream (bs : List Byte) : Statements.bytesOf (bitStream bs) = bs := by
  rw [bytesOf_eq, length_bitStream, Nat.mul_div_cancel_left _ (by decide)]
  exact (map_chunks_flatMap length_byteBits byteOf bs).trans (by simp)

/-- Bit 8j + i of a byte file's stream is bit 7 − i of byte j (R55). -/
theorem getElem?_bitStream {bs : List Byte} {j i : Nat} {b : Byte} (h : bs[j]? = some b) (hi : i < 8) :
    (bitStream bs)[8 * j + i]? = some (b.getLsbD (7 - i)) :=
  (getElem?_flatMap_chunk length_byteBits h hi).trans (getElem?_byteBits b hi)

end Sys2Proof.Machine
end

section
/-! The commands that only read the block (20_memory.md R59), and the step of a delivered beat (R58, R60). -/

namespace Sys2Proof.Machine

/-! ### The readers -/

/-- The commands that read state and change none (R59). -/
inductive IsReader : Instr → Prop
  | nop : IsReader .nop
  | i2b (v : BitVec 16) (w : BitVec 5) : IsReader (.i2b v w)
  | rdtab (tab : TableSel) (idx : BitVec 16) : IsReader (.rdtab tab idx)
  | rdreg (rn : BitVec 4) : IsReader (.rdreg rn)

/-- A reader fails, or answers and does nothing else. -/
theorem exec_reader {i : Instr} {s t : State} (hi : IsReader i) (h : exec i s = .next t) :
    (∃ e, t = s.raise e i.word) ∨ ∃ d, t = s.ok d := by
  cases exec_effect h with
  | failed _ e => exact .inl ⟨e, rfl⟩
  | answered _ d => exact .inr ⟨d, rfl⟩
  | _ => cases hi

@[simp] theorem State.ok_inj {s : State} {d d' : DWord} : s.ok d = s.ok d' ↔ d = d' := by
  refine ⟨fun h => ?_, congrArg _⟩
  simpa using congrArg State.responses h

@[simp] theorem State.raise_ne_ok (s : State) (e : Err) (c : Word) (d : DWord) : s.raise e c ≠ s.ok d := by
  intro h
  have hcode : e.code = okCode := by simpa using congrArg (fun t => t.responses.map Response.rstatus) h
  exact e.code_ne_zero hcode

@[simp] theorem fail_ne_ok (e : Err) (i : Instr) (s : State) (d : DWord) : fail e i s ≠ .next (s.ok d) :=
  fun h => s.raise_ne_ok e i.word d (fail_eq_next_iff.1 h).symm

@[simp] theorem State.ok_register? (s : State) (d : DWord) (rn : BitVec 4) : (s.ok d).register? rn = s.register? rn := rfl

@[simp] theorem State.ok_tableEntry? (s : State) (d : DWord) (tab : TableSel) (i : Nat) :
    (s.ok d).tableEntry? tab i = s.tableEntry? tab i := by cases tab <;> rfl

/-- No reader sees the responses: where it succeeds it gives the same answer again after any answer. -/
theorem exec_reader_again {i : Instr} {s : State} {d : DWord} (hi : IsReader i) (h : exec i s = .next (s.ok d))
    (d' : DWord) : exec i (s.ok d') = .next ((s.ok d').ok d) := by
  cases hi with
  | nop => simpa [exec, execNop] using h
  | i2b v w =>
    simp only [exec, execI2b] at h ⊢
    by_cases hw : 16 < w.toNat
    · simp [hw] at h
    · cases hlen : effectiveWidth v w with
      | none => simp [hw, hlen] at h
      | some len => simpa [hw, hlen] using h
  | rdtab tab idx =>
    simp only [exec, execRdtab, State.ok_cfg, State.ok_tableEntry?] at h ⊢
    by_cases hv : s.cfg.valid = false
    · simp [hv] at h
    · by_cases hidx : s.cfg.order.toNat ≤ idx.toNat
      · simp [hv, hidx] at h
      · cases hentry : s.tableEntry? tab idx.toNat with
        | none => simp [hv, hidx, hentry] at h
        | some entry => simpa [hv, hidx, hentry] using h
  | rdreg rn =>
    simp only [exec, execRdreg, State.ok_register?] at h ⊢
    cases hreg : s.register? rn with
    | none => simp [hreg] at h
    | some reg => simpa [hreg] using h

/-! ### The step of a beat -/

/-- With an input at the port, a step delivers it. -/
theorem step_of_inputs_cons {s : State} {x : HostInput} {rest : List HostInput} (h : s.inputs = x :: rest) :
    step s = deliver x { s with inputs := rest } := by
  simp only [step, State.nextInput?, h]

theorem runBeat_of_decode_ok {b : Beat} {i : Instr} (h : decode b = .ok i) (s : State) : runBeat b s = exec i s := by
  simp only [runBeat, h]

theorem runBeat_of_decode_error {b : Beat} {e : DecodeError} (h : decode b = .error e) (s : State) :
    runBeat b s = .next (s.raise .illegal b.cmd) := by
  simp only [runBeat, h]

/-- The ILLEGAL failure in the statements' numbers (R171). -/
theorem raise_illegal_eq_failed (s : State) (c : Word) : s.raise .illegal c = Statements.failed s 6 c := by
  rw [Statements.failed, BitVec.ofNat_toNat]
  rfl

end Sys2Proof.Machine
end

section
/-! The settled statements of 20_memory.md. -/

namespace Sys2Proof.Proofs

open Sys2Proof.Machine

/-- Settles O58: reading and writing go record by record, and every 8 bytes are the record of the word they read as. -/
theorem symbolFileLayout : Obligations.SymbolFileLayout := by
  refine ⟨fun l => ⟨length_symbolFile l, fun j i x hx hi => ?_, readSymbolFile_symbolFile l⟩, fun file ⟨n, hn⟩ => ?_⟩
  · rw [getElem?_symbolFile hx hi, sampleWord, toNat_append_eq]
  · obtain ⟨l, rfl⟩ := exists_symbolFile_eq hn
    refine ⟨l, ?_, readSymbolFile_symbolFile l, rfl⟩
    rw [length_symbolFile, Nat.mul_div_cancel_left _ (by decide)]

/-- Settles O59, by the round trips of one byte and of a stream. -/
theorem byteStreamBitOrder : Obligations.ByteStreamBitOrder :=
  ⟨fun b => ⟨rfl, length_byteBits b, byteOf_byteBits b, fun _ hi => getElem?_byteBits b hi⟩,
    fun _ hv => ⟨toNat_byteOf hv, byteBits_byteOf hv⟩,
    fun bs => ⟨length_bitStream bs, bytesOf_bitStream bs, fun _ _ _ hb hi => getElem?_bitStream hb hi⟩⟩

/-- Settles O52: a reader's success only appends its answer, so it finds the same state again. -/
theorem readersChangeNothing : Obligations.ReadersChangeNothing := by
  intro i s t hi h
  have hreader : IsReader i := by
    rcases hi with rfl | ⟨v, w, rfl⟩ | ⟨tab, idx, rfl⟩ | ⟨rn, rfl⟩
    · exact .nop
    · exact .i2b v w
    · exact .rdtab tab idx
    · exact .rdreg rn
  rcases exec_reader hreader h with ⟨e, rfl⟩ | ⟨d, rfl⟩
  · refine ⟨rfl, fun r hr hok => absurd hok ?_⟩
    obtain rfl : _ = r := by simpa using hr
    exact e.code_ne_zero
  · refine ⟨rfl, fun r hr _ => ⟨rfl, ?_⟩⟩
    obtain rfl : _ = r := by simpa using hr
    rw [exec_reader_again hreader h d]
    simp [State.ok, State.respond]

/-- Settles O7: a step delivers the beat, and a beat runs what it decodes to. -/
theorem stepRunsDeliveredBeat : Obligations.StepRunsDeliveredBeat := by
  intro s b rest hin
  have hstep : step s = runBeat b { s with inputs := rest } := step_of_inputs_cons hin
  refine ⟨fun i hi => ?_, fun e he => ?_⟩
  · rw [hstep, runBeat_of_decode_ok hi]
  · rw [hstep, runBeat_of_decode_error he, raise_illegal_eq_failed]

end Sys2Proof.Proofs
end

section
/-! The command words (30_encoding.md R70 to R80): an instruction's word reads back as the instruction, and the legal words
are the words that decode. -/

namespace Sys2Proof

open Statements

/-! ### Decoding an instruction's word -/

/-- The two halves of a sample word are the sample's parts (R53). -/
@[simp] theorem fieldRe_append (re im : F32) : fieldRe (im ++ re) = re := by
  have := re.isLt
  apply BitVec.eq_of_toNat_eq
  rw [toNat_fieldRe, toNat_append_eq]
  omega

@[simp] theorem fieldIm_append (re im : F32) : fieldIm (im ++ re) = im := by
  have := re.isLt
  have := im.isLt
  apply BitVec.eq_of_toNat_eq
  rw [toNat_fieldIm, toNat_append_eq]
  omega

/-- The converse of `decode_ok`: a beat with a well-formed instruction's word, and with the sample of a SLICE, decodes to
that instruction (R71 to R77). -/
theorem decode_of_word {b : Beat} {i : Instr} (hwf : i.wellFormed = true) (hcmd : b.cmd = i.word)
    (hdata : ∀ re im, i = .slice re im → fieldRe b.data = re ∧ fieldIm b.data = im) : decode b = .ok i := by
  have hop : (fieldOp b.cmd).toNat = i.opcode := hcmd ▸ i.fieldOp_word
  have hnat : b.cmd.toNat = i.opcode * 2 ^ 28 + i.operands := hcmd ▸ i.word_toNat
  cases i with simp only [decode, hop, Instr.opcode, Instr.operands] at hnat ⊢
  | nop | mend | dend | clrerr => exact formatZ_ok_iff.2 ⟨by omega, rfl⟩
  | slice re im =>
    obtain ⟨hre, him⟩ := hdata re im rfl
    exact formatZ_ok_iff.2 ⟨by omega, by rw [hre, him]⟩
  | cfg nreq gray =>
    have := nreq.isLt
    have := gray.toNat_le
    have hv : fieldV b.cmd = nreq := BitVec.eq_of_toNat_eq (by rw [toNat_fieldV]; omega)
    have hbit : b.cmd.toNat / 2 ^ 16 % 2 = gray.toNat := by omega
    have hg : fieldG b.cmd = gray := by rw [fieldG_eq, hbit]; cases gray <;> rfl
    exact formatK_ok_iff.2 ⟨by omega, by rw [hv, hg]⟩
  | push v w | i2b v w =>
    have := v.isLt
    have := w.isLt
    have hv : fieldV b.cmd = v := BitVec.eq_of_toNat_eq (by rw [toNat_fieldV]; omega)
    have hw : fieldW b.cmd = w := BitVec.eq_of_toNat_eq (by rw [toNat_fieldW]; omega)
    exact formatV_ok_iff.2 ⟨by omega, by simpa [hw, Instr.wellFormed] using hwf, by rw [hv, hw]⟩
  | rdtab tab idx =>
    have := idx.isLt
    have := (fieldOfTable tab).isLt
    have hv : fieldV b.cmd = idx := BitVec.eq_of_toNat_eq (by rw [toNat_fieldV]; omega)
    have ht : fieldT b.cmd = fieldOfTable tab := BitVec.eq_of_toNat_eq (by rw [toNat_fieldT]; omega)
    exact formatT_ok_iff.2 ⟨by omega, by rw [hv, ht, tableOfField_fieldOfTable]⟩
  | rdreg rn =>
    have := rn.isLt
    have hrn : fieldRN b.cmd = rn := BitVec.eq_of_toNat_eq (by rw [toNat_fieldRN]; omega)
    exact formatR_ok_iff.2 ⟨by omega, by rw [hrn]⟩

/-- No bit of an encoding is dropped (R71 to R77). -/
theorem decode_encode {i : Instr} (hwf : i.wellFormed = true) : decode (encode i) = .ok i := by
  refine decode_of_word hwf rfl fun re im hi => ?_
  subst hi
  exact ⟨fieldRe_append re im, fieldIm_append re im⟩

/-- The operand fields of a decoded instruction are the low 28 bits of the command word (R72 to R76). -/
theorem operands_of_decode {b : Beat} {i : Instr} (h : decode b = .ok i) : i.operands = b.cmd.toNat % 2 ^ 28 := by
  obtain ⟨-, hoperands, -, -⟩ := decode_ok h
  exact hoperands

/-- The statements' signed reading of a 16-bit number is the field's own (R73). -/
theorem signed16_toNat (v : BitVec 16) : signed16 v.toNat = v.toInt := by
  rw [signed16, BitVec.toInt_eq_toNat_cond]
  split <;> split <;> omega

/-- The data word is read for opcode 4 only (R70). -/
theorem decode_data_irrelevant {c : Word} (hop : (fieldOp c).toNat ≠ 4) (d d' : DWord) :
    decode ⟨c, d⟩ = decode ⟨c, d'⟩ := by
  unfold decode
  dsimp only
  split
  case h_5 h4 => exact absurd h4 hop
  all_goals rfl

/-! ### The legal words -/

/-- C[20:16] as the statements write it is the field W (R9, R74). -/
theorem slice_eq_fieldW (c : Word) : Statements.slice c 20 16 = (fieldW c).toNat := (toNat_fieldW c).symm

/-- Masking the bits below `lo` off a command word leaves the bits from `lo` up. -/
theorem and_highMask (c : Word) (lo : Nat) : c.toNat &&& (2 ^ (32 - lo) - 1) * 2 ^ lo = c.toNat / 2 ^ lo * 2 ^ lo := by
  refine Nat.eq_of_testBit_eq fun i => ?_
  simp only [Nat.testBit_and, Nat.testBit_mul_two_pow, Nat.testBit_two_pow_sub_one, Nat.testBit_div_two_pow]
  by_cases hlo : lo ≤ i
  · by_cases hi : i < 32
    · simp [hlo, Nat.sub_add_cancel hlo, show i - lo < 32 - lo by omega]
    · have hc : c.toNat.testBit i = false :=
        Nat.testBit_lt_two_pow (c.isLt.trans_le (Nat.pow_le_pow_right (by decide) (not_lt.1 hi)))
      simp [Nat.sub_add_cancel hlo, hc]
  · simp [hlo]

/-- Every instruction's word is in its row of the opcode map (R77). -/
theorem Instr.matchesRow (i : Instr) : Laws.MatchesRow.Statement i :=
  match i with
  | .nop => Laws.MatchesRow.nop
  | .cfg nreq gray => Laws.MatchesRow.cfg nreq gray
  | .push v w => Laws.MatchesRow.push v w
  | .mend => Laws.MatchesRow.mend
  | .slice re im => Laws.MatchesRow.slice re im
  | .dend => Laws.MatchesRow.dend
  | .rdtab tab idx => Laws.MatchesRow.rdtab tab idx
  | .rdreg rn => Laws.MatchesRow.rdreg rn
  | .clrerr => Laws.MatchesRow.clrerr
  | .i2b v w => Laws.MatchesRow.i2b v w

/-- The rows of the statements are those of the instructions; PUSH and I2B, opcodes 2 and 9, have the extra condition. -/
theorem Instr.row_mem (i : Instr) :
    ((Laws.MatchesRow.rowMatch i).toNat, (Laws.MatchesRow.mask i).toNat, decide (i.opcode = 2 ∨ i.opcode = 9)) ∈
      opcodeRows := by
  cases i <;> simp [opcodeRows, Laws.MatchesRow.rowMatch, Laws.MatchesRow.mask, Instr.opcode]

/-- The width in the word of a well-formed PUSH or I2B is at most 16 (R74). -/
theorem Instr.width_le {i : Instr} (hwf : i.wellFormed = true) (hop : i.opcode = 2 ∨ i.opcode = 9) :
    Statements.slice i.word 20 16 ≤ 16 := by
  have hnat := i.word_toNat
  cases i with
  | push v w | i2b v w =>
    have := v.isLt
    have := w.isLt
    have hw : w.toNat ≤ 16 := by simpa [Instr.wellFormed] using hwf
    simp only [Instr.opcode, Instr.operands] at hnat
    unfold Statements.slice
    omega
  | _ => simp [Instr.opcode] at hop

/-- A well-formed instruction's word is legal (R77). -/
theorem Instr.legalWord_word {i : Instr} (hwf : i.wellFormed = true) : LegalWord i.word := by
  refine ⟨_, i.row_mem, ?_, fun hwide => i.width_le hwf (by simpa using hwide)⟩
  rw [← BitVec.toNat_and]
  exact congrArg BitVec.toNat i.matchesRow

/-- A legal word decodes: its row gives the opcode, the zero reserved bits of the format, and the width (R77). -/
theorem exists_decode_of_legalWord {c : Word} (h : LegalWord c) (d : DWord) : ∃ i, decode ⟨c, d⟩ = .ok i := by
  have hmask := and_highMask c
  have hop := toNat_fieldOp c
  obtain ⟨r, hr, hrow, hwidth⟩ := h
  simp only [opcodeRows, List.mem_cons, List.not_mem_nil, or_false] at hr
  rcases hr with rfl | rfl | rfl | rfl | rfl | rfl | rfl | rfl | rfl | rfl
  · have hz := (hmask 0).symm.trans hrow
    simp only [decode, show (fieldOp c).toNat = 0 by omega]
    exact ⟨_, formatZ_ok_iff.2 ⟨by omega, rfl⟩⟩
  · have hz := (hmask 17).symm.trans hrow
    simp only [decode, show (fieldOp c).toNat = 1 by omega]
    exact ⟨_, formatK_ok_iff.2 ⟨by omega, rfl⟩⟩
  · have hz := (hmask 21).symm.trans hrow
    simp only [decode, show (fieldOp c).toNat = 2 by omega]
    exact ⟨_, formatV_ok_iff.2 ⟨by omega, (slice_eq_fieldW c).symm.trans_le (hwidth rfl), rfl⟩⟩
  · have hz := (hmask 0).symm.trans hrow
    simp only [decode, show (fieldOp c).toNat = 3 by omega]
    exact ⟨_, formatZ_ok_iff.2 ⟨by omega, rfl⟩⟩
  · have hz := (hmask 0).symm.trans hrow
    simp only [decode, show (fieldOp c).toNat = 4 by omega]
    exact ⟨_, formatZ_ok_iff.2 ⟨by omega, rfl⟩⟩
  · have hz := (hmask 0).symm.trans hrow
    simp only [decode, show (fieldOp c).toNat = 5 by omega]
    exact ⟨_, formatZ_ok_iff.2 ⟨by omega, rfl⟩⟩
  · have hz := (hmask 18).symm.trans hrow
    simp only [decode, show (fieldOp c).toNat = 6 by omega]
    exact ⟨_, formatT_ok_iff.2 ⟨by omega, rfl⟩⟩
  · have hz := (hmask 4).symm.trans hrow
    simp only [decode, show (fieldOp c).toNat = 7 by omega]
    exact ⟨_, formatR_ok_iff.2 ⟨by omega, rfl⟩⟩
  · have hz := (hmask 0).symm.trans hrow
    simp only [decode, show (fieldOp c).toNat = 8 by omega]
    exact ⟨_, formatZ_ok_iff.2 ⟨by omega, rfl⟩⟩
  · have hz := (hmask 21).symm.trans hrow
    simp only [decode, show (fieldOp c).toNat = 9 by omega]
    exact ⟨_, formatV_ok_iff.2 ⟨by omega, (slice_eq_fieldW c).symm.trans_le (hwidth rfl), rfl⟩⟩

end Sys2Proof

namespace Sys2Proof.Machine

open Statements

/-- An illegal word runs as the ILLEGAL failure and nothing else (R78). -/
theorem runBeat_of_not_legalWord {c : Word} (h : ¬ LegalWord c) (d : DWord) (s : State) :
    runBeat ⟨c, d⟩ s = .next (failed s 6 c) := by
  cases hdec : decode ⟨c, d⟩ with
  | ok i =>
    obtain ⟨-, -, hwf, -⟩ := decode_ok hdec
    have hword : i.word = c := word_of_decode hdec
    exact absurd (hword ▸ i.legalWord_word hwf) h
  | error e => rw [runBeat_of_decode_error hdec, raise_illegal_eq_failed]

end Sys2Proof.Machine
end

section
/-! The settled statements of 30_encoding.md on the decoder and the encoder. -/

namespace Sys2Proof.Proofs

open Sys2Proof.Machine Sys2Proof.Statements

/-- Settles O1: each operand reads back from its field of the word, and a SLICE's sample from the data word. -/
theorem decodeInvertsEncode : Obligations.DecodeInvertsEncode := fun _ => decode_encode

/-- Settles O2: `word_of_decode` is the command word; only a SLICE has opcode 4, and its data word is D's two halves. -/
theorem encodeInvertsDecode : Obligations.EncodeInvertsDecode := by
  intro b i h
  obtain ⟨hop, -, hwf, hslice⟩ := decode_ok h
  refine ⟨hwf, word_of_decode h, fun h4 => ?_⟩
  rw [slice_eq_fieldOp, ← hop] at h4
  cases i with
  | slice re im =>
    obtain ⟨rfl, rfl⟩ := hslice re im rfl
    exact sampleWord_fields b.data
  | _ => simp [Instr.opcode] at h4

/-- Settles O3: the legal words are those that decode. -/
theorem illegalWordsFailAlone : Obligations.IllegalWordsFailAlone := by
  refine fun c d => ⟨fun h => runBeat_of_not_legalWord h d, fun h => ?_⟩
  obtain ⟨i, hi⟩ := exists_decode_of_legalWord h d
  exact ⟨i, hi, runBeat_of_decode_ok hi⟩

/-- Settles O4: the operands make up the low 28 bits of the command word, each in its own field. -/
theorem operandAssembly : Obligations.OperandAssembly := by
  intro b
  have hlt := b.data.isLt
  unfold slice
  refine ⟨fun nreq gray h => ?_, fun v w h => ?_, fun tab idx h => ?_, fun rn h => ?_, fun re im h => ?_⟩
  · have hoperands : gray.toNat * 2 ^ 16 + nreq.toNat = b.cmd.toNat % 2 ^ 28 := operands_of_decode h
    have := nreq.isLt
    have := gray.toNat_le
    have hnreq : b.cmd.toNat / 2 ^ 0 % 2 ^ (15 - 0 + 1) = nreq.toNat := by omega
    have hgray : b.cmd.toNat / 2 ^ 16 % 2 ^ (16 - 16 + 1) = gray.toNat := by omega
    rw [hnreq, hgray]
    exact ⟨(signed16_toNat nreq).symm, by cases gray <;> rfl⟩
  · have hoperands : w.toNat * 2 ^ 16 + v.toNat = b.cmd.toNat % 2 ^ 28 :=
      h.elim operands_of_decode operands_of_decode
    have := v.isLt
    have := w.isLt
    omega
  · have hoperands : (fieldOfTable tab).toNat * 2 ^ 16 + idx.toNat = b.cmd.toNat % 2 ^ 28 := operands_of_decode h
    have := idx.isLt
    have := (fieldOfTable tab).isLt
    omega
  · have hoperands : rn.toNat = b.cmd.toNat % 2 ^ 28 := operands_of_decode h
    have := rn.isLt
    omega
  · obtain ⟨-, -, -, hslice⟩ := decode_ok h
    obtain ⟨rfl, rfl⟩ := hslice re im rfl
    rw [toNat_fieldRe, toNat_fieldIm]
    omega

/-- Settles O5: the data word is decoded for opcode 4 only, and an illegal word's failure does not carry it. -/
theorem dataWordReadOnlyBySlice : Obligations.DataWordReadOnlyBySlice := by
  intro c d d' s hop
  rw [slice_eq_fieldOp] at hop
  simp only [runBeat, decode_data_irrelevant hop d d']

end Sys2Proof.Proofs
end

section
/-! The group loop over a stream (42_modulator.md R130, 43_slicer.md R140): its groups and its rest, and the loop taken up
again with more bits. -/

namespace Sys2Proof.Machine

section
variable {n : Nat} (hn : 1 ≤ n)
include hn

/-- Every group the loop takes has n bits. -/
theorem length_of_mem_splitGroups {s g : Bits} (h : g ∈ (splitGroups n s.length s).1) : g.length = n := by
  rw [splitGroups_eq hn s.length s le_rfl] at h
  obtain ⟨j, hj, rfl⟩ := List.mem_map.1 h
  have hfits : (j + 1) * n ≤ s.length :=
    (Nat.mul_le_mul_right n (List.mem_range.1 hj)).trans (Nat.div_mul_le_self _ _)
  rw [Nat.succ_mul] at hfits
  rw [List.length_take, List.length_drop]
  omega

theorem length_flatten_splitGroups (s : Bits) : (splitGroups n s.length s).1.flatten.length = s.length / n * n := by
  rw [List.length_flatten, List.map_congr_left fun g hg => length_of_mem_splitGroups hn hg, List.map_const',
    List.sum_replicate, splitGroups_groups_length hn, smul_eq_mul]

/-- More rounds than the bits need change nothing. -/
theorem splitGroups_fuel {fuel : Nat} {s : Bits} (h : s.length ≤ fuel) : splitGroups n fuel s = splitGroups n s.length s := by
  rw [splitGroups_eq hn fuel s h, splitGroups_eq hn s.length s le_rfl]

/-- One round of the loop. -/
theorem splitGroups_of_le {s : Bits} (h : n ≤ s.length) :
    splitGroups n s.length s =
      (s.take n :: (splitGroups n (s.drop n).length (s.drop n)).1, (splitGroups n (s.drop n).length (s.drop n)).2) := by
  obtain ⟨fuel, hfuel⟩ : ∃ fuel, s.length = fuel + 1 := ⟨s.length - 1, by omega⟩
  have hrest : (s.drop n).length ≤ fuel := by rw [List.length_drop]; omega
  conv_lhs => rw [hfuel]
  rw [splitGroups, if_pos h, splitGroups_fuel hn hrest]

theorem splitGroups_of_lt {s : Bits} (h : s.length < n) : splitGroups n s.length s = ([], s) := by
  rw [splitGroups_eq hn s.length s le_rfl, Nat.div_eq_of_lt h]
  simp

/-- The loop over a ++ b takes the groups of a, and goes on with what it left of a and with b. -/
theorem splitGroups_append (a b : Bits) :
    splitGroups n (a ++ b).length (a ++ b) =
      ((splitGroups n a.length a).1 ++
          (splitGroups n ((splitGroups n a.length a).2 ++ b).length ((splitGroups n a.length a).2 ++ b)).1,
        (splitGroups n ((splitGroups n a.length a).2 ++ b).length ((splitGroups n a.length a).2 ++ b)).2) := by
  induction hlen : a.length using Nat.strong_induction_on generalizing a with
  | _ k ih =>
    subst hlen
    rcases Nat.lt_or_ge a.length n with hlt | hle
    · rw [splitGroups_of_lt hn hlt, List.nil_append]
    · have hdrop : (a.drop n).length < a.length := by rw [List.length_drop]; omega
      have hab : n ≤ (a ++ b).length := by rw [List.length_append]; omega
      rw [splitGroups_of_le hn hab, splitGroups_of_le hn hle, List.take_append_of_le_length hle,
        List.drop_append_of_le_length hle, ih _ hdrop (a.drop n) rfl]
      rfl

/-- The groups in a row are the bits without the rest. -/
theorem flatten_splitGroups (s : Bits) : (splitGroups n s.length s).1.flatten = s.take (s.length / n * n) := by
  have hcat : (splitGroups n s.length s).1.flatten ++ (splitGroups n s.length s).2 = s := by
    induction hlen : s.length using Nat.strong_induction_on generalizing s with
    | _ k ih =>
      subst hlen
      rcases Nat.lt_or_ge s.length n with hlt | hle
      · rw [splitGroups_of_lt hn hlt]; rfl
      · have hdrop : (s.drop n).length < s.length := by rw [List.length_drop]; omega
        rw [splitGroups_of_le hn hle, List.flatten_cons, List.append_assoc, ih _ hdrop (s.drop n) rfl, List.take_append_drop]
  have hlen := length_flatten_splitGroups hn s
  generalize (splitGroups n s.length s).1.flatten = groups at hcat hlen ⊢
  rw [← hlen, ← hcat, List.take_left]

end

end Sys2Proof.Machine
end

section
/-! Runs of beats (10_state.md R21, 20_memory.md R60), and PUSH over a stream (42_modulator.md R130 to R132). -/

namespace Sys2Proof.Machine

open Statements

/-! ### Runs -/

theorem steps_succ_of_step {s t : State} (h : step s = .next t) (k : Nat) : steps (k + 1) s = steps k t := by
  simp only [steps, h]

theorem steps_add_of_steps {a : Nat} {s t : State} (h : steps a s = .next t) (b : Nat) : steps (a + b) s = steps b t := by
  induction a generalizing s with
  | zero =>
    cases h
    rw [Nat.zero_add]
  | succ a ih =>
    rw [Nat.succ_add]
    cases hstep : step s with
    | next u =>
      rw [steps_succ_of_step hstep] at h ⊢
      exact ih h
    | fault f => simp [steps, hstep] at h
    | refused r => simp [steps, hstep] at h

/-- The step of a delivered encoding runs the instruction. -/
theorem step_of_encode {s : State} {i : Instr} {rest : List HostInput} (hwf : i.wellFormed = true)
    (hin : s.inputs = .beat (encode i) :: rest) : step s = exec i { s with inputs := rest } :=
  (step_of_inputs_cons hin).trans (runBeat_of_decode_ok (decode_encode hwf) _)

/-- A run that leaves an encoding at the port goes on with its instruction. -/
theorem steps_then_encode {k : Nat} {s t u : State} {i : Instr} {rest : List HostInput} (h : steps k s = .next t)
    (hwf : i.wellFormed = true) (hin : t.inputs = .beat (encode i) :: rest)
    (hexec : exec i { t with inputs := rest } = .next u) : steps (k + 1) s = .next u := by
  rw [steps_add_of_steps h 1, steps_succ_of_step ((step_of_encode hwf hin).trans hexec)]
  rfl

/-! ### The symbol of a group -/

/-- The constellation index of a pattern: INV (R30, R130). -/
def State.indexOf (s : State) (v : Nat) : Nat := s.inv.getD v 0

/-- The SOUT element of constellation index k, by SYM[k] = SYMVAL(N, PH[k]) (R31, R32, R120). -/
def State.sampleOf (s : State) (k : Nat) : Sample :=
  ⟨BitVec.ofNat 16 k, (symvalOf s.params s.cfg.order.toNat (2 * k + s.cfg.rot.toNat)).1,
    (symvalOf s.params s.cfg.order.toNat (2 * k + s.cfg.rot.toNat)).2⟩

/-- The SOUT element of a group of bits (R130). -/
def State.symbolAt (s : State) (g : Bits) : Sample := s.sampleOf (s.indexOf (bitsToInt g))

section
variable {s : State} (hs : s.Inv) (hv : s.cfg.valid = true)
include hs hv

/-- What the tables of a configured block hold for a pattern: INV its index, which natural mode leaves as it is, ORD at
that index the pattern, and PH the index's phase (R28 to R30). -/
theorem State.Inv.tables_at {v : Nat} (hlt : v < s.cfg.order.toNat) :
    s.inv[v]? = some (s.indexOf v) ∧ s.ord[s.indexOf v]? = some v ∧ (s.cfg.gray = false → s.indexOf v = v) ∧
    s.ph[s.indexOf v]? = some (2 * s.indexOf v + s.cfg.rot.toNat) ∧ s.indexOf v < s.cfg.order.toNat := by
  obtain ⟨-, -, -, hN, -, hord, hinv, hph⟩ := hs.configured_fields hv
  have hperm := hs.ord_perm hv
  obtain ⟨k, hk, hslot⟩ := exists_slot_of_value hperm hlt
  rw [← hinv] at hk
  have hindex : s.indexOf v = k := by rw [State.indexOf, List.getD_eq_getElem?_getD, hk, Option.getD_some]
  have hbound : k < s.cfg.order.toNat := by
    rw [← length_of_perm_range hperm]
    exact (List.getElem?_eq_some_iff.1 hslot).1
  rw [hindex]
  refine ⟨hk, hslot, fun hgray => ?_, ?_, hbound⟩
  · rw [hord, hgray, orderTable, if_neg (by decide), naturalOrder_eq_range, List.getElem?_range (hN ▸ hbound)] at hslot
    exact Option.some.inj hslot
  · rw [hph]
    exact phaseTable_at hbound _

theorem State.Inv.bitsToInt_lt_order {g : Bits} (hg : g.length = s.cfg.logn.toNat) : bitsToInt g < s.cfg.order.toNat := by
  obtain ⟨-, -, -, hN, -, -, -, -⟩ := hs.configured_fields hv
  rw [hN, ← hg]
  exact bitsToInt_lt g

/-- The symbol of a group of LOGN bits in a configured block (R130). -/
theorem State.Inv.symbolOf_eq {g : Bits} (hg : g.length = s.cfg.logn.toNat) : s.symbolOf g = .ok (s.symbolAt g) := by
  obtain ⟨hinv, -, hnatural, hph, -⟩ := hs.tables_at hv (hs.bitsToInt_lt_order hv hg)
  refine symbolOf_ok ?_ hph
  cases hgray : s.cfg.gray with
  | true => exact hinv
  | false => exact congrArg some (hnatural hgray).symm

theorem State.Inv.symbolsOf_eq {gs : List Bits} (hgs : ∀ g ∈ gs, g.length = s.cfg.logn.toNat) :
    s.symbolsOf gs = .ok (gs.map s.symbolAt) := by
  induction gs with
  | nil => rfl
  | cons g gs ih =>
    obtain ⟨hg, hgs⟩ := List.forall_mem_cons.1 hgs
    simp only [State.symbolsOf, hs.symbolOf_eq hv hg, ih hgs, List.map_cons]

end

/-! ### PUSH -/

/-- What the success path of PUSH does to SOUT and MACC: the symbols of the complete groups of MACC and the new bits are
emitted, the rest stays in MACC (R130). -/
def State.pushed (s : State) (b : Bits) : State :=
  (s.emitSout ((splitGroups s.cfg.logn.toNat (s.macc ++ b).length (s.macc ++ b)).1.map s.symbolAt)).setMacc
    (splitGroups s.cfg.logn.toNat (s.macc ++ b).length (s.macc ++ b)).2

/-- Pushing bits in two parts pushes them in a row (R132). -/
theorem State.pushed_pushed {s : State} (hn : 1 ≤ s.cfg.logn.toNat) (a b : Bits) :
    (s.pushed a).pushed b = s.pushed (a ++ b) := by
  have happend := splitGroups_append hn (s.macc ++ a) b
  rw [List.append_assoc] at happend
  rw [State.pushed, State.pushed, State.pushed, happend, List.map_append]
  simp only [State.emitSout, State.setMacc, List.append_assoc]
  rfl

section
variable {s : State} (hs : s.Inv) (hv : s.cfg.valid = true)
include hs hv

theorem State.Inv.pushed_nil : s.pushed [] = s := by
  obtain ⟨hn, -, -, -, -, -, -, -⟩ := hs.configured_fields hv
  rw [State.pushed, List.append_nil, splitGroups_of_lt hn (hs.macc_lt_logn hv)]
  simp [State.emitSout, State.setMacc]

/-- The success path of PUSH succeeds in a configured block (R130). -/
theorem State.Inv.pushBits_eq (b : Bits) : ∃ d, s.pushBits b = .next ((s.pushed b).ok d) := by
  obtain ⟨hn, -, -, -, -, -, -, -⟩ := hs.configured_fields hv
  have hlogn : s.cfg.logn ≠ 0#4 := by
    intro h
    rw [h] at hn
    exact absurd hn (by decide)
  have hsymbols := hs.symbolsOf_eq hv fun g hg => length_of_mem_splitGroups hn (s := s.macc ++ b) hg
  simp only [State.pushBits, if_neg hlogn, hsymbols]
  exact ⟨_, rfl⟩

/-- A PUSH whose operands fit succeeds (R130). -/
theorem State.Inv.exec_push {v : BitVec 16} {w : BitVec 5} (hfit : FitsWidth v w) :
    ∃ d, exec (.push v w) s = .next ((s.pushed (intToBits v.toNat (usedWidth v w))).ok d) := by
  obtain ⟨hw, hlt⟩ := hfit
  have hlen : effectiveWidth v w = some (usedWidth v w) := by
    rcases effectiveWidth_cases v w with ⟨h0, h⟩ | ⟨h0, hge, -⟩ | ⟨h0, -, h⟩
    · rw [h, usedWidth, if_pos h0]
    · exact absurd (hlt h0) (not_lt.2 hge)
    · rw [h, usedWidth, if_neg h0]
  obtain ⟨d, hd⟩ := hs.pushBits_eq hv (intToBits v.toNat (usedWidth v w))
  exact ⟨d, by simpa [exec, execPush, not_lt.2 hw, hv, hlen] using hd⟩

end

/-- The bits of a sequence of PUSH operands (R130, R132). -/
def pushedBits (ps : List (BitVec 16 × BitVec 5)) : Bits := ps.flatMap (fun p => intToBits p.1.toNat (usedWidth p.1 p.2))

/-- PUSH commands whose operands fit push their bits in a row, and change nothing else but to answer OK once each (R130,
R132). -/
theorem steps_pushes {s : State} (hs : s.Inv) (hv : s.cfg.valid = true) {ps : List (BitVec 16 × BitVec 5)}
    (hfit : ∀ p ∈ ps, FitsWidth p.1 p.2) {rest : List HostInput}
    (hin : s.inputs = ps.map (fun p => HostInput.beat (encode (.push p.1 p.2))) ++ rest) :
    ∃ rs : List Response, rs.length = ps.length ∧ (∀ r ∈ rs, r.rstatus = okCode) ∧
      steps ps.length s =
        .next { s.pushed (pushedBits ps) with responses := s.responses ++ rs, inputs := rest } := by
  induction ps generalizing s with
  | nil =>
    obtain rfl : s.inputs = rest := hin
    exact ⟨[], rfl, by simp, by simp [steps, pushedBits, hs.pushed_nil hv]⟩
  | cons p ps ih =>
    obtain ⟨hp, hps⟩ := List.forall_mem_cons.1 hfit
    obtain ⟨hn, -, -, -, -, -, -, -⟩ := hs.configured_fields hv
    have hwf : (Instr.push p.1 p.2).wellFormed = true := decide_eq_true hp.1
    obtain ⟨d, hpush⟩ :=
      (hs.with_inputs (ps.map (fun p => HostInput.beat (encode (.push p.1 p.2))) ++ rest)).exec_push hv hp
    have hstep := (step_of_encode hwf hin).trans hpush
    obtain ⟨rs, hlen, hok, hsteps⟩ := ih (step_keeps_inv hs hstep) hv hps rfl
    refine ⟨⟨okCode, d⟩ :: rs, congrArg (· + 1) hlen, List.forall_mem_cons.2 ⟨rfl, hok⟩, ?_⟩
    have hbits : s.pushed (pushedBits (p :: ps)) =
        (s.pushed (intToBits p.1.toNat (usedWidth p.1 p.2))).pushed (pushedBits ps) :=
      (State.pushed_pushed hn _ _).symm
    rw [List.length_cons, steps_succ_of_step hstep, hsteps, hbits, State.ok_responses]
    simp only [List.append_assoc]
    rfl

end Sys2Proof.Machine
end

section
/-! The reference decision in exact reals (43_slicer.md R141): `sliceRef` is the rounded position of the sample's angle, and a
sample near a constellation point (R122) has a position near the point's index. -/

namespace Sys2Proof.Machine

open Real

/-! ### Zero samples -/

/-- The zeros are the patterns of value 0 (R144). -/
theorem f32IsZero_iff (p : F32) : f32IsZero p = true ↔ f32Rat p = 0 := by
  have hmag : f32Mag p = 0 ↔ p.toNat % 2 ^ 31 = 0 := by
    have hexp : f32Exp p = 0#8 ↔ p.toNat / 2 ^ 23 % 2 ^ 8 = 0 := extractLsb'_eq_zero_iff p 23 8
    have hfrac : (f32Frac p).toNat = p.toNat / 2 ^ 0 % 2 ^ 23 := toNat_extractLsb' p 0 23
    rw [f32Mag, hfrac]
    split
    next h0 => rw [hexp] at h0; omega
    next h0 =>
      rw [hexp] at h0
      have : 0 < (2 ^ 23 + p.toNat / 2 ^ 0 % 2 ^ 23) * 2 ^ ((f32Exp p).toNat - 1) := by positivity
      omega
  have hscaled : f32Scaled p = 0 ↔ f32Mag p = 0 := by
    rw [f32Scaled]
    split <;> omega
  rw [f32Rat, div_eq_zero_iff, or_iff_left (by positivity), Int.cast_eq_zero, hscaled, hmag, f32IsZero, decide_eq_true_eq]
  exact (extractLsb'_eq_zero_iff p 0 31).trans (by rw [pow_zero, Nat.div_one])

/-- The sample as a complex number (R141). -/
noncomputable def samplePoint (re im : F32) : ℂ := ⟨((f32Rat re : ℚ) : ℝ), ((f32Rat im : ℚ) : ℝ)⟩

theorem samplePoint_ne_zero_iff {re im : F32} :
    samplePoint re im ≠ 0 ↔ ¬ (f32IsZero re = true ∧ f32IsZero im = true) := by
  rw [f32IsZero_iff, f32IsZero_iff, ne_eq, Complex.ext_iff]
  simp [samplePoint]

/-- The scaled parts of a sample in polar form, its angle brought into [0, 2π). -/
theorem exists_polar {re im : F32} (h : samplePoint re im ≠ 0) :
    ∃ (r θ : ℝ) (k : ℤ), 0 < r ∧ 0 ≤ θ ∧ θ < 2 * π ∧ (samplePoint re im).arg = θ + k * (2 * π) ∧
      (f32Scaled re : ℝ) = r * Real.cos θ ∧ (f32Scaled im : ℝ) = r * Real.sin θ := by
  obtain ⟨h0, h1⟩ := toIcoMod_mem_Ico' two_pi_pos (samplePoint re im).arg
  have harg := toIcoMod_add_toIcoDiv_zsmul two_pi_pos 0 (samplePoint re im).arg
  rw [zsmul_eq_mul] at harg
  have hscaled (p : F32) : (f32Scaled p : ℝ) = ((f32Rat p : ℚ) : ℝ) * 2 ^ 149 := by
    rw [f32Rat]
    push_cast
    field_simp
  refine ⟨‖samplePoint re im‖ * 2 ^ 149, _, _, by positivity, h0, h1, harg.symm, ?_, ?_⟩
  · rw [← Real.cos_add_int_mul_two_pi, harg, mul_right_comm, Complex.norm_mul_cos_arg, hscaled]
    rfl
  · rw [← Real.sin_add_int_mul_two_pi, harg, mul_right_comm, Complex.norm_mul_sin_arg, hscaled]
    rfl

/-! ### Rounding -/

/-- An integer at distance at most ½ from a number that lies strictly within ½ of the integer j is j. -/
theorem eq_of_abs_sub_le_half {t : ℝ} {r j : ℤ} (hr : |t - r| ≤ 1 / 2) (h0 : (j : ℝ) - 1 / 2 < t) (h1 : t < j + 1 / 2) :
    r = j := by
  obtain ⟨hlo, hhi⟩ := abs_le.1 hr
  have hlt : (r : ℝ) < j + 1 := by linarith
  have hgt : (j : ℝ) - 1 < r := by linarith
  norm_cast at hlt hgt
  omega

/-- Rounding half to even the half of X − ROT, from the integer part F of X and whether X is F (R141): with g = F + 1 − ROT
the integer nearest is ⌊g/2⌋, but for the tie, where X = F and g is even. -/
theorem round_half_position {X t : ℝ} {F : ℕ} {whole rot : Bool} {r : ℤ} (h0 : F ≤ X) (h1 : X < F + 1)
    (hexact : whole = true ↔ X = F) (ht : 2 * t = X - rot.toNat) (hr : IsRoundHalfEven t r) :
    r = if whole = true ∧ (F + (1 - rot.toNat)) % 2 = 0 ∧ (F + (1 - rot.toNat)) / 2 % 2 = 1
      then (((F + (1 - rot.toNat)) / 2 - 1 : ℕ) : ℤ) else ((F + (1 - rot.toNat)) / 2 : ℕ) := by
  obtain ⟨hnear, htie⟩ := hr
  have hF : ((F + (1 - rot.toNat) : ℕ) : ℝ) = F + 1 - rot.toNat := by
    cases rot <;> simp
  generalize F + (1 - rot.toNat) = g at hF ⊢
  have hg : (g : ℝ) = 2 * (g / 2 : ℕ) + (g % 2 : ℕ) := by exact_mod_cast (Nat.div_add_mod g 2).symm
  generalize g / 2 = j at hg ⊢
  rcases Nat.mod_two_eq_zero_or_one g with heven | hodd
  · rw [heven, Nat.cast_zero, add_zero] at hg
    by_cases hX : X = F
    · have hpos : t = j - 1 / 2 := by linarith
      obtain ⟨hlo, hhi⟩ := abs_le.1 hnear
      have hge : (j : ℝ) ≤ r + 1 := by linarith
      have hle : (r : ℝ) ≤ j := by linarith
      norm_cast at hge hle
      have hrj : r = j - 1 ∨ r = j := by omega
      have hEven : r % 2 = 0 := by
        refine Int.even_iff.1 (htie ?_)
        rcases hrj with rfl | rfl <;> rw [hpos] <;> push_cast <;> norm_num
      simp only [hexact.2 hX, heven, true_and]
      split <;> omega
    · have hlt : (F : ℝ) < X := lt_of_le_of_ne h0 (Ne.symm hX)
      rw [if_neg (fun h => hX (hexact.1 h.1))]
      exact eq_of_abs_sub_le_half hnear (by push_cast; linarith) (by push_cast; linarith)
  · rw [hodd, Nat.cast_one] at hg
    rw [if_neg (by omega)]
    exact eq_of_abs_sub_le_half hnear (by push_cast; linarith) (by push_cast; linarith)

/-- `sliceRef` rounds the sample's position half to even and reduces it mod N (R141). -/
theorem sliceRef_eq {n : ℕ} (hn : 1 ≤ n) {rot : Bool} {re im : F32} (h : samplePoint re im ≠ 0) {t : ℝ} {r : ℤ}
    (ht : IsSlicerPosition n rot re im t) (hr : IsRoundHalfEven t r) : (sliceRef (2 ^ n) rot re im : ℤ) = r % 2 ^ n := by
  obtain ⟨ρ, θ, k, hρ, h0, h1, harg, hre, him⟩ := exists_polar h
  obtain ⟨hlow, hhigh, hexact⟩ := turn_spec (n + 1) _ _ hρ h0 h1 hre him
  have hpi := two_pi_pos
  obtain ⟨hnear, htie⟩ := hr
  have hround : IsRoundHalfEven (t - k * 2 ^ n) (r - k * 2 ^ n) := by
    have hdist : t - k * 2 ^ n - ((r - k * 2 ^ n : ℤ) : ℝ) = t - r := by push_cast; ring
    refine ⟨hdist ▸ hnear, fun htied => (htie (hdist ▸ htied)).sub (Even.mul_left ?_ k)⟩
    exact (even_two).pow_of_ne_zero (by omega)
  have hposition : 2 * (t - k * 2 ^ n) = 2 ^ (n + 1) * θ / (2 * π) - rot.toNat := by
    have ht' : t * (2 * π / 2 ^ n) = θ + k * (2 * π) - rot.toNat * π / 2 ^ n := harg ▸ ht
    rw [pow_succ]
    field_simp at ht' ⊢
    linarith
  have hvalue := round_half_position (X := 2 ^ (n + 1) * θ / (2 * π)) ((le_div_iff₀ hpi).2 hlow) ((div_lt_iff₀ hpi).2 hhigh)
    (hexact.trans (div_eq_iff hpi.ne').symm) hposition hround
  have hmod : r % 2 ^ n = (r - k * 2 ^ n) % 2 ^ n := by rw [Int.sub_mul_emod_self_right]
  rw [hmod, hvalue]
  simp only [sliceRef, Nat.log2_two_pow]
  split <;> push_cast <;> rfl

/-! ### A sample near a constellation point -/

/-- A vector with parts of at most ε has a component of at most 2ε in every direction. -/
theorem abs_component_le {a b ε : ℝ} (ha : |a| ≤ ε) (hb : |b| ≤ ε) (φ : ℝ) :
    |a * Real.cos φ + b * Real.sin φ| ≤ 2 * ε := by
  have hcos : |a * Real.cos φ| ≤ ε := by
    rw [abs_mul]
    exact (mul_le_of_le_one_right (abs_nonneg a) (Real.abs_cos_le_one φ)).trans ha
  have hsin : |b * Real.sin φ| ≤ ε := by
    rw [abs_mul]
    exact (mul_le_of_le_one_right (abs_nonneg b) (Real.abs_sin_le_one φ)).trans hb
  linarith [abs_add_le (a * Real.cos φ) (b * Real.sin φ)]

/-- A complex number within 2ε of 1 in both parts has an angle of at most 2πε. -/
theorem abs_arg_le_of_near_one {u : ℂ} {ε : ℝ} (hre : |u.re - 1| ≤ 2 * ε) (him : |u.im| ≤ 2 * ε) (hε : ε ≤ 1 / 8) :
    |u.arg| ≤ ε * (2 * π) := by
  have hlow : 3 / 4 ≤ u.re := by linarith [(abs_le.1 hre).1]
  have hnorm : 3 / 4 ≤ ‖u‖ := hlow.trans (Complex.re_le_norm u)
  have hsin : |Real.sin u.arg| ≤ 4 * ε := by
    rw [Complex.sin_arg, abs_div, abs_norm, div_le_iff₀ (by linarith)]
    nlinarith [abs_nonneg u.im]
  have harg := mul_abs_le_abs_sin (Complex.abs_arg_le_pi_div_two_iff.2 (by linarith : 0 ≤ u.re))
  rw [div_mul_eq_mul_div, div_le_iff₀ pi_pos] at harg
  nlinarith [pi_pos]

/-- A complex number turned back by the angle φ. -/
noncomputable def turnedBack (z : ℂ) (φ : ℝ) : ℂ :=
  ⟨z.re * Real.cos φ + z.im * Real.sin φ, z.im * Real.cos φ - z.re * Real.sin φ⟩

theorem unit_mul_turnedBack (z : ℂ) (φ : ℝ) :
    (Real.Angle.cos φ + Real.Angle.sin φ * Complex.I) * turnedBack z φ = z := by
  have hcs := Real.sin_sq_add_cos_sq φ
  apply Complex.ext
  · simp [turnedBack, Complex.cos_ofReal_re, Complex.sin_ofReal_re]
    linear_combination z.re * hcs
  · simp [turnedBack, Complex.cos_ofReal_re, Complex.sin_ofReal_re]
    linear_combination z.im * hcs

/-- Turning back by φ brings what is near the unit vector at φ near 1. -/
theorem turnedBack_near_one {z : ℂ} {φ ε : ℝ} (hre : |z.re - Real.cos φ| ≤ ε) (him : |z.im - Real.sin φ| ≤ ε) :
    |(turnedBack z φ).re - 1| ≤ 2 * ε ∧ |(turnedBack z φ).im| ≤ 2 * ε := by
  have hre' : (turnedBack z φ).re - 1 = (z.re - Real.cos φ) * Real.cos φ + (z.im - Real.sin φ) * Real.sin φ := by
    rw [turnedBack]
    linear_combination Real.sin_sq_add_cos_sq φ
  have him' : (turnedBack z φ).im = (z.im - Real.sin φ) * Real.cos φ + -(z.re - Real.cos φ) * Real.sin φ := by
    rw [turnedBack]
    ring
  rw [hre', him']
  exact ⟨abs_component_le hre him φ, abs_component_le him ((abs_neg _).trans_le hre) φ⟩

/-- A complex number within ε of the unit vector at φ has an angle within 2πε of φ, up to whole turns. -/
theorem exists_arg_near {z : ℂ} {φ ε : ℝ} (hre : |z.re - Real.cos φ| ≤ ε) (him : |z.im - Real.sin φ| ≤ ε)
    (hε : ε ≤ 1 / 8) : z ≠ 0 ∧ ∃ (ψ : ℝ) (k : ℤ), z.arg = φ + ψ + k * (2 * π) ∧ |ψ| ≤ ε * (2 * π) := by
  obtain ⟨hure, huim⟩ := turnedBack_near_one hre him
  have hu : turnedBack z φ ≠ 0 := by
    intro h0
    norm_num [h0] at hure
    linarith
  have hz : z ≠ 0 := by
    rintro rfl
    exact hu (by simp [turnedBack, Complex.ext_iff])
  refine ⟨hz, (turnedBack z φ).arg, ?_⟩
  have hangle : (z.arg : Real.Angle) = ((φ + (turnedBack z φ).arg : ℝ) : Real.Angle) := by
    have hunit : (Real.Angle.cos φ + Real.Angle.sin φ * Complex.I : ℂ) ≠ 0 := by
      intro h0
      exact hz (by rw [← unit_mul_turnedBack z φ, h0, zero_mul])
    rw [← unit_mul_turnedBack z φ, Complex.arg_mul_coe_angle hunit hu, Complex.arg_cos_add_sin_mul_I_coe_angle,
      unit_mul_turnedBack, Real.Angle.coe_add]
  obtain ⟨k, hk⟩ := Real.Angle.angle_eq_iff_two_pi_dvd_sub.1 hangle
  exact ⟨k, by linarith, abs_arg_le_of_near_one hure huim hε⟩

/-- The tolerances are rational; their bounds hold of them as real numbers. -/
theorem tolerance_cast_le {x : ℚ} {m : ℕ} (h : x ≤ 1 / 2 ^ m) : (x : ℝ) ≤ 1 / 2 ^ m := by
  have hcast := (Rat.cast_le (K := ℝ)).2 h
  push_cast at hcast
  exact hcast

/-- SYMVAL at index k, within SYM_TOL ≤ 2^−20 of the constellation point, is a sample at a position within 2^−6 of k, up to
whole turns (R120, R122, R147). -/
theorem exists_position_near {p : Params} {n k : ℕ} {rot : Bool} {re im : F32} (hn : n ≤ 14)
    (htol : p.symTol ≤ 1 / 2 ^ 20) (hx : symvalOf p (2 ^ n) (2 * k + rot.toNat) = (re, im))
    (h : SymvalConformsAt p n (2 * k + rot.toNat)) :
    samplePoint re im ≠ 0 ∧
      ∃ (t : ℝ) (q : ℤ), IsSlicerPosition n rot re im t ∧ |t - (k + q * 2 ^ n : ℤ)| ≤ 1 / 2 ^ 6 := by
  have htol' := tolerance_cast_le htol
  obtain ⟨-, -, hre, him⟩ := h
  rw [hx] at hre him
  obtain ⟨hz, ψ, q, harg, hψ⟩ := exists_arg_near (z := samplePoint re im) (hre.trans htol') (him.trans htol') (by norm_num)
  have hN : (2 : ℝ) ^ n ≤ 2 ^ 14 := pow_le_pow_right₀ (by norm_num) hn
  have hscale : (0 : ℝ) ≤ 2 ^ n / (2 * π) := by positivity
  refine ⟨hz, k + q * 2 ^ n + ψ * (2 ^ n / (2 * π)), q, ?_, ?_⟩
  · refine Eq.trans ?_ (congrArg (· - rot.toNat * π / 2 ^ n) harg.symm)
    push_cast
    field_simp
    ring
  · push_cast
    rw [add_sub_cancel_left, abs_mul, abs_of_nonneg hscale, mul_div_assoc', div_le_iff₀ two_pi_pos]
    nlinarith [two_pi_pos, abs_nonneg ψ]

/-- A sample whose position is within 2^−6 of an integer is sliced to that integer mod N, by the reference and, where
SLICE_TOL ≤ ¼, by every conforming SLICEDEC (R141, R142). -/
theorem slicedecOf_near {p : Params} {n : ℕ} {rot : Bool} {re im : F32} (hn : 1 ≤ n) (htol : p.sliceTol ≤ 1 / 4)
    (hz : samplePoint re im ≠ 0) {t : ℝ} {r : ℤ} (ht : IsSlicerPosition n rot re im t) (hr : |t - r| ≤ 1 / 2 ^ 6)
    (hconf : SlicedecConformsAt p n rot re im) : (slicedecOf p (2 ^ n) rot re im : ℤ) = r % 2 ^ n := by
  have htol' : (p.sliceTol : ℝ) ≤ 1 / 2 ^ 2 := tolerance_cast_le (htol.trans (by norm_num))
  obtain ⟨hlo, hhi⟩ := abs_le.1 hr
  have hround : IsRoundHalfEven t r := ⟨hr.trans (by norm_num), fun htie => by norm_num [htie] at hr⟩
  have hfloor := Int.floor_le t
  have hfloor' := Int.lt_floor_add_one t
  obtain ⟨hout, -⟩ := hconf t ⌊t⌋ ht (abs_le.2 ⟨by linarith, by linarith⟩)
  rw [hout (htol'.trans ?_), sliceRef_eq hn hz ht hround]
  rcases lt_or_ge ⌊t⌋ r with hlt | hge
  · have : (⌊t⌋ : ℝ) + 1 ≤ r := by exact_mod_cast hlt
    exact le_abs.2 (.inl (by linarith))
  · have : (r : ℝ) ≤ ⌊t⌋ := by exact_mod_cast hge
    exact le_abs.2 (.inr (by linarith))

/-- The sample of index k slices back to k, and is not a zero sample (R147). -/
theorem slicedecOf_symvalOf {p : Params} {n k : ℕ} {rot : Bool} {re im : F32} (h1 : 1 ≤ n) (hn : n ≤ 14) (hk : k < 2 ^ n)
    (hsym : p.symTol ≤ 1 / 2 ^ 20) (hslice : p.sliceTol ≤ 1 / 4)
    (hx : symvalOf p (2 ^ n) (2 * k + rot.toNat) = (re, im)) (hs : SymvalConformsAt p n (2 * k + rot.toNat))
    (hd : SlicedecConformsAt p n rot re im) : samplePoint re im ≠ 0 ∧ slicedecOf p (2 ^ n) rot re im = k := by
  obtain ⟨hz, t, q, ht, hnear⟩ := exists_position_near hn hsym hx hs
  have hvalue := slicedecOf_near h1 hslice hz ht hnear hd
  rw [Int.add_mul_emod_self_right, Int.emod_eq_of_lt (by positivity) (by exact_mod_cast hk)] at hvalue
  exact ⟨hz, by exact_mod_cast hvalue⟩

end Sys2Proof.Machine
end

section
/-! SLICE over the symbols of a stream (43_slicer.md R140, R145 to R147), DEND (R146), and the encode and decode paths
together (30_encoding.md R82). -/

namespace Sys2Proof.Machine

open Statements

/-! ### The byte packer -/

/-- Packing bits in two parts packs them in a row (R145). -/
theorem State.packBits_packBits (s : State) (a b : Bits) : (s.packBits a).packBits b = s.packBits (a ++ b) := by
  have happend := splitGroups_append (n := 8) (by decide) (s.dacc ++ a) b
  rw [List.append_assoc] at happend
  simp only [State.packBits, State.emitBout, State.setDacc, happend, List.map_append, List.append_assoc]

theorem State.packBits_nil {s : State} (h : s.dacc.length < 8) : s.packBits [] = s := by
  simp [State.packBits, State.emitBout, State.setDacc, splitGroups_of_lt (n := 8) (by decide) h]

/-- The packer's bytes are those of the complete groups of 8 bits (R140). -/
theorem map_byteOf_splitGroups (b : Bits) : (splitGroups 8 b.length b).1.map byteOf = bytesOf b := by
  rw [splitGroups_eq (by decide) b.length b le_rfl, List.map_map]
  rfl

/-- The bytes of a bit vector's beginning are the first of its bytes. -/
theorem take_bytesOf_append (b c : Bits) : (bytesOf (b ++ c)).take (b.length / 8) = bytesOf b := by
  have hle : b.length / 8 ≤ (b ++ c).length / 8 := Nat.div_le_div_right (by simp)
  rw [bytesOf_eq, bytesOf_eq, ← List.map_take, List.take_range, Nat.min_eq_left hle]
  refine List.map_congr_left fun j hj => ?_
  have hfits : 8 * j + 8 ≤ b.length := by
    have := List.mem_range.1 hj
    omega
  rw [List.drop_append_of_le_length (by omega), List.take_append_of_le_length (by rw [List.length_drop]; omega)]

/-- The bytes of the first bits of a byte file's stream are the file's first bytes (R55). -/
theorem bytesOf_take_bitStream (bs : List Byte) (m : Nat) :
    bytesOf ((bitStream bs).take m) = bs.take (((bitStream bs).take m).length / 8) := by
  rw [← take_bytesOf_append _ ((bitStream bs).drop m), List.take_append_drop, bytesOf_bitStream]

/-! ### SLICE of a constellation sample -/

/-- A configured block whose parameters conform, within the tolerances of R147, at the constellation points. -/
structure State.Noiseless (s : State) : Prop where
  inv      : s.Inv
  valid    : s.cfg.valid = true
  symTol   : s.params.symTol ≤ 1 / 2 ^ 20
  sliceTol : s.params.sliceTol ≤ 1 / 4
  conforms : ∀ u ∈ s.ph, SymvalConformsAt s.params s.cfg.logn.toNat u ∧
    SlicedecConformsAt s.params s.cfg.logn.toNat s.cfg.rot
      (symvalOf s.params s.cfg.order.toNat u).1 (symvalOf s.params s.cfg.order.toNat u).2

/-- A SLICE of a finite sample chooses an index and goes on from it (R140). -/
theorem exec_slice_finite {s : State} {re im : F32} (hv : s.cfg.valid = true) (hre : f32Finite re = true)
    (him : f32Finite im = true) : exec (.slice re im) s = (s.chooseIndex re im).2.sliceIndex (s.chooseIndex re im).1 := by
  simp only [f32Finite, Bool.and_eq_true, Bool.not_eq_true'] at hre him
  simp [exec, execSlice, hv, hre, him]

theorem sliceIndex_of_ord {s : State} {k v : Nat} (h : s.ord[k]? = some v) :
    ∃ d, s.sliceIndex k = .next ((s.packBits (intToBits v s.cfg.logn.toNat)).ok d) := by
  simp only [State.sliceIndex, h]
  exact ⟨_, rfl⟩

/-- A sample of index k, with SYMVAL and SLICEDEC conforming at it, is finite and slices back to k (R147). -/
theorem State.Inv.chooseIndex_sampleOf {s : State} (hs : s.Inv) (hv : s.cfg.valid = true) {k : Nat}
    (hk : k < s.cfg.order.toNat) (hsym : s.params.symTol ≤ 1 / 2 ^ 20) (hslice : s.params.sliceTol ≤ 1 / 4)
    (hs' : SymvalConformsAt s.params s.cfg.logn.toNat (2 * k + s.cfg.rot.toNat))
    (hd : SlicedecConformsAt s.params s.cfg.logn.toNat s.cfg.rot (s.sampleOf k).re (s.sampleOf k).im) :
    f32Finite (s.sampleOf k).re = true ∧ f32Finite (s.sampleOf k).im = true ∧
    s.chooseIndex (s.sampleOf k).re (s.sampleOf k).im = (k, s) := by
  obtain ⟨h1, -, h14, hN, -, -, -, -⟩ := hs.configured_fields hv
  have hx : symvalOf s.params (2 ^ s.cfg.logn.toNat) (2 * k + s.cfg.rot.toNat) = ((s.sampleOf k).re, (s.sampleOf k).im) := by
    rw [← hN]
    rfl
  obtain ⟨hnonzero, hindex⟩ := slicedecOf_symvalOf h1 h14 (hN ▸ hk) hsym hslice hx hs' hd
  obtain ⟨hre, him, -, -⟩ := hs'
  rw [hx] at hre him
  refine ⟨hre, him, ?_⟩
  rw [State.chooseIndex, if_neg (samplePoint_ne_zero_iff.1 hnonzero), hN, hindex]

/-- The SLICE of the symbol of a group packs the group's bits (R147). -/
theorem State.Noiseless.exec_slice {s : State} (hs : s.Noiseless) {g : Bits} (hg : g.length = s.cfg.logn.toNat) :
    ∃ d, exec (.slice (s.symbolAt g).re (s.symbolAt g).im) s = .next ((s.packBits g).ok d) := by
  obtain ⟨-, hord, -, hph, hk⟩ := hs.inv.tables_at hs.valid (hs.inv.bitsToInt_lt_order hs.valid hg)
  obtain ⟨hsym, hdec⟩ := hs.conforms _ (List.mem_of_getElem? hph)
  obtain ⟨hre, him, hchoose⟩ := hs.inv.chooseIndex_sampleOf hs.valid hk hs.symTol hs.sliceTol hsym hdec
  obtain ⟨d, hd⟩ := sliceIndex_of_ord hord
  refine ⟨d, ?_⟩
  rw [State.symbolAt, exec_slice_finite hs.valid hre him, hchoose, hd, ← hg, intToBits_bitsToInt]

/-- The beats that slice some samples (R82). -/
def sliceBeats (xs : List Sample) : List HostInput := xs.map (fun x => .beat (encode (.slice x.re x.im)))

/-- Slicing the symbols of groups packs the groups' bits in a row, and changes nothing else but to respond (R145, R147). -/
theorem State.Noiseless.steps_slices {s : State} (hs : s.Noiseless) {gs : List Bits}
    (hgs : ∀ g ∈ gs, g.length = s.cfg.logn.toNat) {rest : List HostInput}
    (hin : s.inputs = sliceBeats (gs.map s.symbolAt) ++ rest) :
    ∃ rs : List Response,
      steps gs.length s = .next { s.packBits gs.flatten with responses := s.responses ++ rs, inputs := rest } := by
  induction gs generalizing s with
  | nil =>
    obtain rfl : s.inputs = rest := hin
    exact ⟨[], by simp [steps, State.packBits_nil hs.inv.dacc]⟩
  | cons g gs ih =>
    obtain ⟨hg, hgs⟩ := List.forall_mem_cons.1 hgs
    have hs' : ({ s with inputs := sliceBeats (gs.map s.symbolAt) ++ rest } : State).Noiseless :=
      { hs with inv := hs.inv.with_inputs _ }
    obtain ⟨d, hslice⟩ := hs'.exec_slice hg
    have hstep := (step_of_encode rfl hin).trans hslice
    obtain ⟨rs, hsteps⟩ := ih { hs with inv := step_keeps_inv hs.inv hstep } hgs rfl
    refine ⟨⟨okCode, d⟩ :: rs, ?_⟩
    rw [List.length_cons, steps_succ_of_step hstep, hsteps, List.flatten_cons, ← State.packBits_packBits, State.ok_responses]
    simp only [List.append_assoc]
    rfl

/-! ### DEND -/

/-- The byte DEND emits of the residual bits: under ZPAD one padded byte, where there are any (R146). -/
def paddedTail (p : Params) (bits : Bits) : List Byte :=
  if p.decTail = .zpad ∧ bits.length ≠ 0 then [byteOf (bits ++ List.replicate (8 - bits.length) false)] else []

/-- The padded byte of the bits that do not fill a byte, with their number as the statements write it. -/
theorem paddedTail_rest (p : Params) (b : Bits) :
    paddedTail p (b.drop (b.length / 8 * 8)) =
      if p.decTail = .zpad ∧ b.length % 8 ≠ 0 then
        [BitVec.ofNat 8 (bitsToInt (b.drop (b.length / 8 * 8) ++ List.replicate (8 - b.length % 8) false))]
      else [] := by
  have hlen : (b.drop (b.length / 8 * 8)).length = b.length % 8 := by
    rw [List.length_drop]
    omega
  rw [paddedTail, hlen]
  rfl

/-- All that DEND does (R146). -/
theorem exec_dend (s : State) :
    exec .dend s = .next (((s.emitBout (paddedTail s.params s.dacc)).setDacc []).ok
      (dendData s.dacc (decide (s.params.decTail = .zpad ∧ 0 < s.dacc.length)))) := by
  simp only [exec, execDend, paddedTail, Nat.pos_iff_ne_zero, decide_eq_true_eq]

/-! ### The encode path and the decode path -/

/-- The operands of `pushb` (R82). -/
def pushbOperands (b : Byte) : BitVec 16 × BitVec 5 := (b.setWidth 16, 8#5)

theorem toNat_pushb (b : Byte) : (b.setWidth 16).toNat = b.toNat := by
  rw [BitVec.toNat_setWidth, Nat.mod_eq_of_lt]
  exact b.isLt.trans (by decide)

theorem fitsWidth_pushb (b : Byte) : FitsWidth (pushbOperands b).1 (pushbOperands b).2 :=
  ⟨show (8#5).toNat ≤ 16 by decide, fun _ => (toNat_pushb b).trans_lt b.isLt⟩

theorem pushedBits_pushb (bs : List Byte) : pushedBits (bs.map pushbOperands) = bitStream bs := by
  have hbits (b : Byte) : intToBits (pushbOperands b).1.toNat (usedWidth (pushbOperands b).1 (pushbOperands b).2) = byteBits b :=
    congrArg (intToBits · 8) (toNat_pushb b)
  simp only [pushedBits, List.flatMap_map, hbits, bitStream]

/-- `encode B0, ..., Bm` in the statements' spelling (R82). -/
theorem encodeFile_eq (bs : List Byte) :
    encodeFile bs = bs.map (fun b => HostInput.beat (encode (.push (b.setWidth 16) 8#5))) ++ [.beat (encode .mend)] := by
  simp [encodeFile, beatsOf, pushb]

/-- `decode S0, ..., Sm` of a symbol file slices its samples (R54, R82). -/
theorem decodeFile_symbolFile (xs : List Sample) :
    decodeFile (symbolFile xs) = some (sliceBeats xs ++ [.beat (encode .dend)]) := by
  simp [decodeFile, readSymbolFile_symbolFile, beatsOf, sliceBeats, sampleWord]

/-- The encode path emits the symbols of the complete groups of the file's bits, and leaves MACC empty (R82, R132). -/
theorem steps_encodeFile {s : State} (hs : s.Inv) (hv : s.cfg.valid = true) (hm : s.macc = []) {bs : List Byte}
    (hin : s.inputs = encodeFile bs) :
    ∃ (gs : List Bits) (rs : List Response), (∀ g ∈ gs, g.length = s.cfg.logn.toNat) ∧
      gs.flatten = (bitStream bs).take (8 * bs.length / s.cfg.logn.toNat * s.cfg.logn.toNat) ∧
      steps (bs.length + 1) s = .next
        { s with sout := s.sout ++ gs.map s.symbolAt, responses := s.responses ++ rs, inputs := [] } := by
  obtain ⟨hn, -, -, -, -, -, -, -⟩ := hs.configured_fields hv
  have hfit : ∀ p ∈ bs.map pushbOperands, FitsWidth p.1 p.2 := by
    simp only [List.forall_mem_map]
    exact fun b _ => fitsWidth_pushb b
  have hpushes : s.inputs =
      (bs.map pushbOperands).map (fun p => HostInput.beat (encode (.push p.1 p.2))) ++ [.beat (encode .mend)] := by
    rw [hin, encodeFile_eq, List.map_map]
    rfl
  obtain ⟨rs, -, -, hsteps⟩ := steps_pushes hs hv hfit hpushes
  rw [List.length_map, pushedBits_pushb] at hsteps
  refine ⟨(splitGroups s.cfg.logn.toNat (bitStream bs).length (bitStream bs)).1,
    rs ++ [⟨okCode, mendData (s.pushed (bitStream bs)).macc⟩], fun _ => length_of_mem_splitGroups hn,
    by rw [flatten_splitGroups hn, length_bitStream], (steps_then_encode hsteps rfl rfl rfl).trans ?_⟩
  simp [State.pushed, State.emitSout, State.setMacc, State.ok, State.respond, hm]

/-- The decode path of the symbols of groups appends to BOUT the whole bytes of the groups' bits, and the padded byte of
those that do not fill one, and empties DACC (R82, R145 to R147). -/
theorem State.Noiseless.steps_decode {s : State} (hs : s.Noiseless) (hd : s.dacc = []) {gs : List Bits}
    (hgs : ∀ g ∈ gs, g.length = s.cfg.logn.toNat)
    (hin : s.inputs = sliceBeats (gs.map s.symbolAt) ++ [.beat (encode .dend)]) :
    ∃ t, steps (gs.length + 1) s = .next t ∧ t.dacc = [] ∧
      t.bout = s.bout ++ bytesOf gs.flatten ++ paddedTail s.params (gs.flatten.drop (gs.flatten.length / 8 * 8)) := by
  obtain ⟨rs, hsteps⟩ := hs.steps_slices hgs hin
  refine ⟨_, steps_then_encode hsteps rfl rfl (exec_dend _), rfl, ?_⟩
  have hbout : (s.packBits gs.flatten).bout = s.bout ++ bytesOf gs.flatten := by
    rw [State.packBits_bout, hd, List.nil_append, map_byteOf_splitGroups]
  have hdacc : (s.packBits gs.flatten).dacc = gs.flatten.drop (gs.flatten.length / 8 * 8) := by
    rw [State.packBits_dacc, hd, List.nil_append, splitGroups_eq (by decide) _ _ le_rfl]
  rw [← hbout, ← hdacc]
  rfl

end Sys2Proof.Machine
end

section
/-! The settled statement of 30_encoding.md on the encode and the decode path. -/

namespace Sys2Proof.Proofs

open Sys2Proof.Machine Sys2Proof.Statements

/-- Settles O36: the encode path emits the symbols of the groups of the file's bits, slicing each gives its group back, and
the groups in a row are the file's bits up to the last complete group. -/
theorem encodedBytesDecodeBack : Obligations.EncodedBytesDecodeBack := by
  intro s bs hs hv hm hd hsym hslice hconf hin
  rw [← encodeFile_eq] at hin
  obtain ⟨gs, rs, hgs, hflat, hencode⟩ := steps_encodeFile hs hv hm hin
  have hnoiseless : ({ s with
      sout := s.sout ++ gs.map s.symbolAt
      responses := s.responses ++ rs
      inputs := sliceBeats (gs.map s.symbolAt) ++ [.beat (encode .dend)] } : State).Noiseless :=
    ⟨hs.of_same_block rfl rfl rfl rfl rfl rfl rfl rfl, hv, hsym, hslice, hconf⟩
  obtain ⟨u, hdecode, hdacc, hbout⟩ := hnoiseless.steps_decode hd hgs rfl
  rw [hflat, bytesOf_take_bitStream, paddedTail_rest] at hbout
  refine ⟨_, u, gs.map s.symbolAt, _, hencode, rfl, rfl, hin, decodeFile_symbolFile _, ?_, hbout, fun hdvd => ?_, hdacc⟩
  · rw [List.length_map]
    exact hdecode
  · have hall : (bitStream bs).take (8 * bs.length / s.cfg.logn.toNat * s.cfg.logn.toNat) = bitStream bs := by
      rw [Nat.div_mul_cancel hdvd, ← length_bitStream, List.take_length]
    rw [hbout, hall, length_bitStream, Nat.mul_div_cancel_left _ (by decide), List.take_length, Nat.mul_mod_right]
    simp

end Sys2Proof.Proofs
end

section
/-! The codec (40_codec.md R100 to R102): the MSB-first sum, the minimal width, and the width a format V command uses. -/

namespace Sys2Proof.Machine

open Statements

/-- Element j of a bit vector of length L has the weight 2^(L−1−j) (R100). -/
theorem bitsToInt_eq_sum (b : Bits) :
    bitsToInt b = ∑ j ∈ Finset.range b.length, (b.getD j false).toNat * 2 ^ (b.length - 1 - j) := by
  induction b with
  | nil => rfl
  | cons x b ih =>
    have htail : ∀ j ∈ Finset.range b.length,
        ((x :: b).getD (j + 1) false).toNat * 2 ^ (b.length + 1 - 1 - (j + 1)) =
          (b.getD j false).toNat * 2 ^ (b.length - 1 - j) := fun j _ => by
      rw [List.getD_cons_succ, Nat.add_sub_cancel, Nat.sub_sub, Nat.add_comm 1 j]
    rw [bitsToInt_cons, List.length_cons, Finset.sum_range_succ', Finset.sum_congr rfl htail, ← ih, Nat.add_comm]
    rfl

/-! ### The minimal width -/

@[simp] theorem minw_zero : minw 0 = 1 := rfl

/-- The minimal width of a value other than 0 is its number of binary digits (R102). -/
theorem minw_eq_iff {v len : Nat} (hv : v ≠ 0) : minw v = len ↔ 1 ≤ len ∧ 2 ^ (len - 1) ≤ v ∧ v < 2 ^ len := by
  rw [minw, if_neg hv]
  cases len with
  | zero => omega
  | succ len => rw [Nat.succ_inj, Nat.log2_eq_iff hv, Nat.add_sub_cancel]; omega

/-- A value that fits w bits, w ≥ 1, has at most w binary digits. -/
theorem minw_le_of_lt {v w : Nat} (hw : 1 ≤ w) (h : v < 2 ^ w) : minw v ≤ w := by
  unfold minw
  split
  · exact hw
  · next hv => exact (Nat.log2_lt hv).2 h

/-- With W = 0 a command uses the minimal width (R102). -/
theorem effectiveWidth_zero (v : BitVec 16) : effectiveWidth v 0#5 = some (minw v.toNat) := if_pos rfl

/-! ### The width a format V command uses -/

section
variable {v : BitVec 16} {w : BitVec 5} (h : FitsWidth v w)
include h

theorem effectiveWidth_of_fits : effectiveWidth v w = some (usedWidth v w) := by
  obtain ⟨-, hlt⟩ := h
  rcases effectiveWidth_cases v w with ⟨h0, hlen⟩ | ⟨h0, hge, -⟩ | ⟨h0, -, hlen⟩
  · rw [hlen, usedWidth, if_pos h0]
  · exact absurd (hlt h0) (not_lt.2 hge)
  · rw [hlen, usedWidth, if_neg h0]

theorem usedWidth_le : usedWidth v w ≤ 16 := by
  unfold usedWidth
  split
  · exact minw_le_of_lt (by decide) v.isLt
  · exact h.1

/-- The value fits the width used. -/
theorem lt_two_pow_usedWidth : v.toNat < 2 ^ usedWidth v w := by
  unfold usedWidth
  split
  · exact lt_two_pow_minw v.toNat
  · next h0 => exact h.2 h0

end

/-- A given width below what the value needs is the command's OVERFLOW (R103, R130). -/
theorem effectiveWidth_eq_none {v : BitVec 16} {w : BitVec 5} (h0 : w ≠ 0#5) (h : 2 ^ w.toNat ≤ v.toNat) :
    effectiveWidth v w = none := by
  rw [effectiveWidth, if_neg h0, if_pos h]

end Sys2Proof.Machine
end

section
/-! I2B (40_codec.md R103): its answer and its OVERFLOW as an instruction, and the words of format V and of opcode 9. -/

namespace Sys2Proof

/-- C[15:0] as the statements write it is the field V (R9, R74). -/
theorem slice_eq_fieldV (c : Word) : Statements.slice c 15 0 = (fieldV c).toNat := (toNat_fieldV c).symm

end Sys2Proof

namespace Sys2Proof.Machine

open Statements

/-! ### A failure and an answer in the statements' numbers -/

theorem raise_eq_failed (s : State) (e : Err) (c : Word) : s.raise e c = failed s e.code.toNat c := by
  rw [failed, BitVec.ofNat_toNat, BitVec.ofNat_toNat, BitVec.setWidth_eq]
  rfl

theorem ok_ofNat_eq_answered (s : State) (d : Nat) : s.ok (BitVec.ofNat 64 d) = answered s d := rfl

/-! ### The words of format V -/

/-- Opcode 9 is I2B in format V (R77). -/
theorem decode_of_opcode_nine {c : Word} (hop : slice c 31 28 = 9) (d : DWord) :
    decode ⟨c, d⟩ = formatV c (.i2b (fieldV c) (fieldW c)) := by
  rw [slice_eq_fieldOp] at hop
  simp only [decode, hop]

section
variable {c : Word} {d : DWord} {i : Instr} (hdec : decode ⟨c, d⟩ = formatV c i)
include hdec

/-- A reserved bit or a width above 16 makes a word of format V illegal (R74, R78). -/
theorem runBeat_formatV_illegal (hbad : slice c 27 21 ≠ 0 ∨ 16 < (fieldW c).toNat) (s : State) :
    runBeat ⟨c, d⟩ s = .next (failed s 6 c) := by
  cases hformat : formatV c i with
  | ok j =>
    obtain ⟨hres, hw, -⟩ := formatV_ok_iff.1 hformat
    exact absurd hbad (not_or.2 ⟨not_not.2 hres, not_lt.2 hw⟩)
  | error e => rw [runBeat_of_decode_error (hdec.trans hformat), raise_illegal_eq_failed]

/-- Every other word of format V runs its instruction, and is that instruction's word (R74, R77). -/
theorem runBeat_formatV_legal (hres : slice c 27 21 = 0) (hw : (fieldW c).toNat ≤ 16) (s : State) :
    runBeat ⟨c, d⟩ s = exec i s ∧ i.word = c := by
  have hok : decode ⟨c, d⟩ = .ok i := hdec.trans (formatV_ok_iff.2 ⟨hres, hw, rfl⟩)
  exact ⟨runBeat_of_decode_ok hok s, word_of_decode hok⟩

end

/-! ### I2B -/

/-- RDATA of I2B holds the width above the value (R103). -/
theorem i2bData_eq {v : BitVec 16} {len : Nat} (hlen : len ≤ 16) (hv : v.toNat < 2 ^ len) :
    i2bData v len = BitVec.ofNat 64 (len * 2 ^ 16 + v.toNat) := by
  have := v.isLt
  apply BitVec.eq_of_toNat_eq
  rw [i2bData, bitsToInt_intToBits hv, BitVec.toNat_setWidth, toNat_append_eq]
  simp only [BitVec.toNat_ofNat]
  omega

/-- I2B of operands that fit answers the width used and the value, configured or not (R103). -/
theorem exec_i2b_of_fits {v : BitVec 16} {w : BitVec 5} (h : FitsWidth v w) (s : State) :
    exec (.i2b v w) s = .next (answered s (usedWidth v w * 2 ^ 16 + v.toNat)) := by
  simp only [exec, execI2b, if_neg (not_lt.2 h.1), effectiveWidth_of_fits h,
    i2bData_eq (usedWidth_le h) (lt_two_pow_usedWidth h), ok_ofNat_eq_answered]

/-- I2B of a value too large for the width given fails with OVERFLOW (R103). -/
theorem exec_i2b_of_overflow {v : BitVec 16} {w : BitVec 5} (hw : w.toNat ≤ 16) (h0 : w ≠ 0#5)
    (h : 2 ^ w.toNat ≤ v.toNat) (s : State) :
    exec (.i2b v w) s = .next (failed s 2 (Instr.i2b v w).word) := by
  simp only [exec, execI2b, if_neg (not_lt.2 hw), effectiveWidth_eq_none h0 h]
  exact congrArg Host.Outcome.next (raise_eq_failed s .overflow _)

end Sys2Proof.Machine
end

section
/-! The settled statements of 40_codec.md. -/

namespace Sys2Proof.Proofs

open Sys2Proof.Machine Sys2Proof.Statements

/-- Settles O9, by induction on the bits: the first of L has the weight 2^(L−1). -/
theorem bitsToIntIsMsbFirstSum : Obligations.BitsToIntIsMsbFirstSum :=
  fun b => ⟨bitsToInt_eq_sum b, bitsToInt_lt b⟩

/-- Settles O10: the elements are the binary digits of v, and a value that fits is its digits. -/
theorem intToBitsElements : Obligations.IntToBitsElements := by
  refine fun v w hv => ⟨length_intToBits v w, bitsToInt_intToBits hv, fun j hj => ?_⟩
  rw [getElem?_intToBits v hj, Nat.testBit_eq_decide_div_mod_eq]

/-- Settles O11: the minimal width is the number of binary digits, so it always holds the value. -/
theorem minimalWidthIsUnique : Obligations.MinimalWidthIsUnique :=
  ⟨minw_zero, fun _ _ hv => minw_eq_iff hv,
    fun v => ⟨effectiveWidth_zero v, bitsToInt_intToBits (lt_two_pow_minw v.toNat)⟩⟩

/-- Settles O12: a word of opcode 9 is illegal, or runs the I2B of its fields V and W, whose width holds the value or
overflows. -/
theorem i2bRule : Obligations.I2bRule := by
  refine ⟨fun s v w h => exec_i2b_of_fits h s, fun c d s hop => ?_⟩
  have hdec := decode_of_opcode_nine hop d
  refine ⟨fun hres => runBeat_formatV_illegal hdec (.inl hres) s, fun hres => ?_⟩
  have hanswer (hfit : FitsWidth (fieldV c) (fieldW c)) :
      runBeat ⟨c, d⟩ s = .next (answered s (usedWidth (fieldV c) (fieldW c) * 2 ^ 16 + (fieldV c).toNat)) := by
    obtain ⟨hrun, -⟩ := runBeat_formatV_legal hdec hres hfit.1 s
    rw [hrun, exec_i2b_of_fits hfit]
  have hzero : (fieldW c).toNat = 0 ↔ fieldW c = 0#5 := BitVec.toNat_inj (y := 0#5)
  simp only [slice_eq_fieldW, slice_eq_fieldV, ne_eq, hzero]
  refine ⟨fun hwide => runBeat_formatV_illegal hdec (.inr hwide) s, fun hw h0 hge => ?_, fun h0 => ?_, fun hw h0 hlt => ?_⟩
  · obtain ⟨hrun, hword⟩ := runBeat_formatV_legal hdec hres hw s
    rw [hrun, exec_i2b_of_overflow hw h0 hge, hword]
  · have hw : (fieldW c).toNat ≤ 16 := (hzero.2 h0).trans_le (Nat.zero_le 16)
    rw [hanswer ⟨hw, fun hne => absurd h0 hne⟩, usedWidth, if_pos h0]
  · rw [hanswer ⟨hw, fun _ => hlt⟩, usedWidth, if_neg h0]

end Sys2Proof.Proofs
end

section
/-! The closed forms of the orderings (41_configuration.md R112 to R118): the mirrored rows read the Gray codes,
INV undoes them by a running XOR, and neighbouring codes differ in one bit. -/

namespace Sys2Proof.Machine

/-! ### The Gray code of a number -/

/-- The Gray code in its closed form: k XOR (k >> 1) (R114). -/
def grayCode (k : Nat) : Nat := k ^^^ (k >>> 1)

/-- The Gray code is linear over XOR. -/
theorem grayCode_xor (a b : Nat) : grayCode (a ^^^ b) = grayCode a ^^^ grayCode b := by
  simp only [grayCode, Nat.shiftRight_xor_distrib]
  ac_rfl

theorem grayCode_lt {k n : Nat} (h : k < 2 ^ n) : grayCode k < 2 ^ n :=
  Nat.xor_lt_two_pow h ((Nat.shiftRight_le k 1).trans_lt h)

@[simp] theorem grayCode_zero : grayCode 0 = 0 := rfl

theorem two_pow_succ_shiftRight_one (m : Nat) : 2 ^ (m + 1) >>> 1 = 2 ^ m := by
  rw [Nat.shiftRight_one, pow_succ, Nat.mul_div_cancel _ (by decide)]

/-- A number of ones only has the Gray code of its top bit. -/
theorem grayCode_ones (m : Nat) : grayCode (2 ^ (m + 1) - 1) = 2 ^ m := by
  refine Nat.eq_of_testBit_eq fun i => ?_
  simp only [grayCode, Nat.testBit_xor, Nat.testBit_shiftRight, Nat.testBit_two_pow_sub_one, Nat.testBit_two_pow]
  rw [Bool.eq_iff_iff]
  simp only [bne_iff_ne, ne_eq, decide_eq_decide, decide_eq_true_eq]
  omega

theorem testBit_eq_false_of_ge {x m i : Nat} (h : x < 2 ^ m) (hi : m ≤ i) : x.testBit i = false :=
  Nat.testBit_lt_two_pow (h.trans_le (Nat.pow_le_pow_right (by decide) hi))

/-- Adding 2^m to a number below it sets the bit m. -/
theorem two_pow_add_eq_xor {x m : Nat} (h : x < 2 ^ m) : 2 ^ m + x = 2 ^ m ^^^ x := by
  refine Nat.eq_of_testBit_eq fun i => ?_
  rw [Nat.testBit_xor, Nat.testBit_two_pow]
  rcases Nat.lt_trichotomy i m with hlt | rfl | hgt
  · rw [Nat.testBit_two_pow_add_gt hlt, decide_eq_false hlt.ne', Bool.false_xor]
  · rw [Nat.testBit_two_pow_add_eq, decide_eq_true rfl, Bool.true_xor]
  · have hlt : 2 ^ m + x < 2 ^ (m + 1) := by rw [pow_succ]; omega
    rw [testBit_eq_false_of_ge hlt hgt, testBit_eq_false_of_ge h hgt.le, decide_eq_false hgt.ne, Bool.false_xor]

/-- Counting down from 2^m − 1 inverts the m bits. -/
theorem mirror_eq_xor {x m : Nat} (h : x < 2 ^ m) : 2 ^ m - 1 - x = (2 ^ m - 1) ^^^ x := by
  refine Nat.eq_of_testBit_eq fun i => ?_
  rw [Nat.sub_sub, Nat.add_comm 1 x, Nat.testBit_two_pow_sub_succ h, Nat.testBit_xor, Nat.testBit_two_pow_sub_one]
  by_cases hi : i < m
  · simp [hi]
  · simp [hi, testBit_eq_false_of_ge h (not_lt.1 hi)]

/-- The mirrored half of the Gray codes: 2^(m+1) + j has the code of its mirror image with the top bit set (R114). -/
theorem grayCode_mirror {j m : Nat} (h : j < 2 ^ (m + 1)) :
    grayCode (2 ^ (m + 1) + j) = 2 ^ (m + 1) + grayCode (2 ^ (m + 1) - 1 - j) := by
  have htop : grayCode (2 ^ (m + 1)) = 2 ^ (m + 1) ^^^ 2 ^ m := by rw [grayCode, two_pow_succ_shiftRight_one]
  rw [two_pow_add_eq_xor (grayCode_lt (by omega)), two_pow_add_eq_xor h, mirror_eq_xor h, grayCode_xor, grayCode_xor,
    htop, grayCode_ones, Nat.xor_assoc]

/-! ### ORD -/

/-- Counting down to 0 is counting up to the mirror image. -/
theorem reverse_range (n : Nat) : (List.range n).reverse = (List.range n).map (n - 1 - ·) := by
  conv_lhs => rw [List.range_eq_range', List.reverse_range', Nat.zero_add]

/-- The Gray rows after m steps read the Gray codes of 0 to 2^(m+1) − 1 (R113, R114). -/
theorem grayRows_values (m : Nat) : (grayRows m).map bitsToInt = (List.range (2 ^ (m + 1))).map grayCode := by
  induction m with
  | zero => decide
  | succ m ih =>
    have hlow : ((grayRows m).map (false :: ·)).map bitsToInt = (List.range (2 ^ (m + 1))).map grayCode := by
      rw [← ih]
      simp [bitsToInt_cons, Function.comp_def]
    have hhigh : ((grayRows m).reverse.map (true :: ·)).map bitsToInt
        = ((grayRows m).map bitsToInt).reverse.map (2 ^ (m + 1) + ·) := by
      rw [← List.map_reverse, List.map_map, List.map_map]
      refine List.map_congr_left fun r hr => ?_
      have hlen := (grayRows_shape m).2 r (List.mem_reverse.1 hr)
      simp [bitsToInt_cons, hlen]
    rw [grayRows, grayStep, List.map_append, hlow, hhigh, ih, pow_succ 2 (m + 1), Nat.mul_two, List.range_add,
      List.map_append]
    congr 1
    rw [← List.map_reverse, reverse_range, List.map_map, List.map_map, List.map_map]
    exact List.map_congr_left fun j hj => (grayCode_mirror (List.mem_range.1 hj)).symm

/-- Gray ordering in closed form (R114). -/
theorem grayOrder_eq {n : Nat} (hn : 1 ≤ n) : grayOrder n = (List.range (2 ^ n)).map grayCode := by
  rw [grayOrder, grayRows_values, Nat.sub_add_cancel hn]

/-- ORD[k] in both modes (R112, R114). -/
theorem orderTable_at {n k : Nat} (hn : 1 ≤ n) (hk : k < 2 ^ n) (gray : Bool) :
    (orderTable n gray)[k]? = some (if gray then grayCode k else k) := by
  cases gray with
  | false => exact (congrArg (·[k]?) (naturalOrder_eq_range n)).trans (List.getElem?_range hk)
  | true =>
    change (grayOrder n)[k]? = some (grayCode k)
    rw [grayOrder_eq hn, List.getElem?_map, List.getElem?_range hk, Option.map_some]

/-! ### INV -/

/-- A map of the values to their slots is the inverse table (R115). -/
theorem inverseTable_eq_map {N : Nat} {o : List Nat} (ho : o.Perm (List.range N)) {f : Nat → Nat}
    (hf : ∀ v, v < N → o[f v]? = some v) : inverseTable o = (List.range N).map f := by
  have hlen : (inverseTable o).length = N := (length_inverseTable o).trans (length_of_perm_range ho)
  refine List.ext_getElem? fun v => ?_
  by_cases hv : v < N
  · rw [inverseTable_at ho (hf v hv), List.getElem?_map, List.getElem?_range hv, Option.map_some]
  · rw [List.getElem?_eq_none (by omega), List.getElem?_eq_none (by simpa using hv)]

/-- The running XOR of the n bits of v from the most significant down (R116). -/
def runningXor (n v : Nat) : Nat := (List.range n).foldl (fun acc j => acc ^^^ (v >>> j)) 0

theorem runningXor_succ (n v : Nat) : runningXor (n + 1) v = runningXor n v ^^^ (v >>> n) := by
  simp [runningXor, List.range_succ]

theorem runningXor_lt {v m : Nat} (h : v < 2 ^ m) (n : Nat) : runningXor n v < 2 ^ m := by
  induction n with
  | zero => exact Nat.two_pow_pos m
  | succ n ih =>
    rw [runningXor_succ]
    exact Nat.xor_lt_two_pow ih ((Nat.shiftRight_le v n).trans_lt h)

/-- The Gray code of a running XOR telescopes to its ends. -/
theorem grayCode_runningXor (n v : Nat) : grayCode (runningXor n v) = v ^^^ (v >>> n) := by
  induction n with
  | zero => simp [runningXor]
  | succ n ih =>
    rw [runningXor_succ, grayCode_xor, ih, grayCode, ← Nat.shiftRight_add, Nat.xor_assoc, ← Nat.xor_assoc (v >>> n),
      Nat.xor_self, Nat.zero_xor]

/-- On n bits the running XOR undoes the Gray code (R116). -/
theorem grayCode_runningXor_of_lt {n v : Nat} (h : v < 2 ^ n) : grayCode (runningXor n v) = v := by
  rw [grayCode_runningXor, Nat.shiftRight_eq_div_pow, Nat.div_eq_of_lt h, Nat.xor_zero]

/-! ### Adjacency -/

/-- A number and its successor differ in the low bits that the carry runs through. -/
theorem exists_xor_succ_eq_ones (k : Nat) : ∃ i, k ^^^ (k + 1) = 2 ^ (i + 1) - 1 := by
  induction k using Nat.binaryRec with
  | zero => exact ⟨0, rfl⟩
  | bit b m ih =>
    cases b with
    | false =>
      have hsucc : Nat.bit false m + 1 = Nat.bit true m := rfl
      exact ⟨0, by rw [hsucc, Nat.xor_bit, Nat.xor_self]; rfl⟩
    | true =>
      have hsucc : Nat.bit true m + 1 = Nat.bit false (m + 1) := by simp only [Nat.bit_val]; rfl
      obtain ⟨i, hi⟩ := ih
      refine ⟨i + 1, ?_⟩
      have hpos := Nat.two_pow_pos (i + 1)
      rw [hsucc, Nat.xor_bit, hi, Nat.bit_val, pow_succ 2 (i + 1)]
      simp only [Bool.bne_false, Bool.toNat_true]
      omega

/-- The Gray codes of neighbours, the last and the first included, differ in one bit (R118). -/
theorem exists_grayCode_next_bit {n k : Nat} (hn : 1 ≤ n) (hk : k < 2 ^ n) :
    ∃ i, grayCode k ^^^ grayCode ((k + 1) % 2 ^ n) = 2 ^ i := by
  rcases (Nat.add_one_le_iff.2 hk).eq_or_lt with hlast | hnext
  · obtain ⟨m, rfl⟩ : ∃ m, n = m + 1 := ⟨n - 1, by omega⟩
    have hk' : k = 2 ^ (m + 1) - 1 := by omega
    refine ⟨m, ?_⟩
    rw [hlast, Nat.mod_self, grayCode_zero, Nat.xor_zero, hk', grayCode_ones]
  · obtain ⟨i, hi⟩ := exists_xor_succ_eq_ones k
    refine ⟨i, ?_⟩
    rw [Nat.mod_eq_of_lt hnext, ← grayCode_xor, hi, grayCode_ones]

/-- At N = 2 the two orderings are one (R113). -/
theorem orderTable_one (gray : Bool) : orderTable 1 gray = orderTable 1 true := by cases gray <;> decide

/-- 1 and 2, neighbours of the natural ordering from N = 4 on, differ in two bits (R118). -/
theorem one_xor_two_ne_two_pow (i : Nat) : 1 ^^^ 2 ≠ 2 ^ i := by
  change 3 ≠ 2 ^ i
  match i with
  | 0 | 1 => decide
  | j + 2 => rw [pow_add]; omega

end Sys2Proof.Machine
end

section
/-! The reference SYMVAL is the nearest binary32 (41_configuration.md R121): what `nearestPattern` finds among the positive
patterns is the nearest among all, the even one at a tie, and no negative 0. -/

namespace Sys2Proof.Machine

/-! ### The values of all patterns -/

/-- A value with a sign, as a sign bit gives it. -/
noncomputable def signed (b : Bool) (x : ℝ) : ℝ := if b then -x else x

theorem abs_sub_signed (b : Bool) (x c : ℝ) : |x - signed b c| = |signed b x - c| := by
  cases b with
  | false => rfl
  | true =>
    change |x - -c| = |-x - c|
    rw [sub_neg_eq_add, ← neg_add', abs_neg]

@[simp] theorem signed_signed (b : Bool) (x : ℝ) : signed b (signed b x) = x := by
  cases b with
  | false => rfl
  | true => exact neg_neg x

theorem patternValue_nonneg (p : Nat) : 0 ≤ patternValue p := by
  unfold patternValue
  positivity

theorem patternValue_eq_zero_iff {p : Nat} (hp : p < 2 ^ 31) : patternValue p = 0 ↔ p = 0 := by
  refine ⟨fun h => ?_, fun h => h ▸ patternValue_zero⟩
  by_contra hne
  exact (patternValue_zero ▸ patternValue_lt (Nat.pos_of_ne_zero hne) hp).ne' h

/-- `x` is the value of a binary32 pattern with a sign (R144). -/
def IsPatternValue (x : ℝ) : Prop := ∃ (p : Nat) (b : Bool), p < 2 ^ 31 ∧ x = signed b (patternValue p)

theorem isPatternValue_f32Rat (q : F32) : IsPatternValue (f32Rat q) := by
  have hlt := q.isLt
  have hq : q = BitVec.ofNat 32 ((decide (2 ^ 31 ≤ q.toNat)).toNat * 2 ^ 31 + q.toNat % 2 ^ 31) := by
    apply BitVec.eq_of_toNat_eq
    rw [BitVec.toNat_ofNat]
    by_cases h : 2 ^ 31 ≤ q.toNat
    · rw [decide_eq_true h, Bool.toNat_true]
      omega
    · rw [decide_eq_false h, Bool.toNat_false]
      omega
  have hp : q.toNat % 2 ^ 31 < 2 ^ 31 := Nat.mod_lt _ (by decide)
  refine ⟨q.toNat % 2 ^ 31, decide (2 ^ 31 ≤ q.toNat), hp, ?_⟩
  rw [signed, ← f32Rat_signed hp, ← hq]

theorem IsPatternValue.withSign {x : ℝ} (h : IsPatternValue x) (b : Bool) : IsPatternValue (signed b x) := by
  obtain ⟨p, b', hp, rfl⟩ := h
  refine ⟨p, b ^^ b', hp, ?_⟩
  cases b <;> cases b' <;> simp [signed]

/-- A positive pattern is at least as near to a number that is not negative: for a negative value, that of 0. -/
theorem IsPatternValue.exists_as_near {x c : ℝ} (hx : IsPatternValue x) (hc : 0 ≤ c) :
    ∃ p < 2 ^ 31, |patternValue p - c| ≤ |x - c| ∧ (|patternValue p - c| = |x - c| → patternValue p = x) := by
  obtain ⟨p, b, hp, rfl⟩ := hx
  cases b with
  | false => exact ⟨p, hp, le_rfl, fun _ => rfl⟩
  | true =>
    have hpos := patternValue_nonneg p
    have hfar : |signed true (patternValue p) - c| = patternValue p + c := by
      change |-patternValue p - c| = _
      rw [← neg_add', abs_neg, abs_of_nonneg (by linarith)]
    have hnear : |patternValue 0 - c| = c := by rw [patternValue_zero, zero_sub, abs_neg, abs_of_nonneg hc]
    refine ⟨0, by decide, ?_, fun h => ?_⟩
    · rw [hfar, hnear]
      linarith
    · rw [hfar, hnear] at h
      have hzero : patternValue p = 0 := by linarith
      rw [patternValue_zero, hzero]
      exact neg_zero.symm

/-! ### Ties -/

/-- No value lies strictly between those of two neighbouring patterns. -/
theorem patternValue_le_or_succ_le {p q : Nat} (hp : p < 2 ^ 31) (hq : q < 2 ^ 31) :
    patternValue q ≤ patternValue p ∨ patternValue (p + 1) ≤ patternValue q := by
  rcases Nat.lt_or_ge p q with h | h
  · exact .inr (patternValue_le h hq)
  · exact .inl (patternValue_le h hp)

section
variable {n u : Nat} (hu : 2 * u ≤ 2 ^ n)
include hu

/-- At the midpoint of the bracket the search takes the even end. -/
theorem nearestPattern_even_of_midpoint
    (h : Real.cos (u * Real.pi / 2 ^ n) =
      (patternValue (floorPattern n u 30 0) + patternValue (floorPattern n u 30 0 + 1)) / 2) :
    nearestPattern n u % 2 = 0 := by
  have hmid : (patternValue (floorPattern n u 30 0) + patternValue (floorPattern n u 30 0 + 1)) / 2
      = (((f32Mag (BitVec.ofNat 32 (floorPattern n u 30 0)) +
          f32Mag (BitVec.ofNat 32 (floorPattern n u 30 0 + 1)) : Nat) : Int) : ℝ) / 2 ^ 150 := by
    rw [patternValue, patternValue]
    push_cast
    ring
  have heq := (cosCompare_compares n u _ 150 (by omega)).eq_eq.2 (h.trans hmid)
  unfold nearestPattern
  dsimp only
  rw [heq]
  dsimp only
  split
  · assumption
  · omega

/-- A pattern as near to the cosine as the nearest one has the same value, or the nearest one is even (R121). -/
theorem nearestPattern_tie {q : Nat} (hq : q < 2 ^ 31)
    (h : |patternValue (nearestPattern n u) - Real.cos (u * Real.pi / 2 ^ n)| =
      |patternValue q - Real.cos (u * Real.pi / 2 ^ n)|) :
    patternValue q = patternValue (nearestPattern n u) ∨ nearestPattern n u % 2 = 0 := by
  obtain ⟨hone, hle, hlt⟩ := floorPattern_bracket hu
  have hone' : floorPattern n u 30 0 ≤ 0x3F800000 := hone
  have hside := patternValue_le_or_succ_le (p := floorPattern n u 30 0) (by omega) hq
  have heven := nearestPattern_even_of_midpoint hu
  rcases nearestPattern_cases hu with ⟨hp, hmid⟩ | ⟨hp, hmid⟩ <;> rw [hp] at h ⊢ <;> rw [hp] at heven
  · rw [abs_of_nonpos (by linarith)] at h
    rcases hside with hs | hs
    · rw [abs_of_nonpos (by linarith)] at h; exact .inl (by linarith)
    · rw [abs_of_nonneg (by linarith)] at h; exact .inr (heven (by linarith))
  · rw [abs_of_nonneg (by linarith)] at h
    rcases hside with hs | hs
    · rw [abs_of_nonpos (by linarith)] at h; exact .inr (heven (by linarith))
    · rw [abs_of_nonneg (by linarith)] at h; exact .inl (by linarith)

/-- No binary32 value is nearer to the cosine than the nearest pattern, and one as near has its value or it is even
(R121). -/
theorem nearestPattern_nearest_value {x : ℝ} (hx : IsPatternValue x) :
    |patternValue (nearestPattern n u) - Real.cos (u * Real.pi / 2 ^ n)| ≤ |x - Real.cos (u * Real.pi / 2 ^ n)| ∧
    (|patternValue (nearestPattern n u) - Real.cos (u * Real.pi / 2 ^ n)| = |x - Real.cos (u * Real.pi / 2 ^ n)| →
      x = patternValue (nearestPattern n u) ∨ nearestPattern n u % 2 = 0) := by
  obtain ⟨q, hq, hle, heq⟩ := hx.exists_as_near (cos_firstQuadrant_nonneg hu)
  have hnear := nearestPattern_nearest hu hq
  refine ⟨hnear.trans hle, fun h => ?_⟩
  have hboth := le_antisymm hle (h ▸ hnear)
  exact heq hboth ▸ nearestPattern_tie hu hq (h.trans hboth.symm)

end

/-- Off the axis, at an order up to 2^14, the nearest pattern is not that of 0: the cosine is far above 2^−24. -/
theorem nearestPattern_ne_zero {n h : Nat} (hn : n ≤ 14) (hh : 2 * h < 2 ^ n) : nearestPattern n h ≠ 0 := by
  intro h0
  have hnear := nearestPattern_within hh.le
  rw [h0, patternValue_zero, zero_sub, abs_neg, abs_of_nonneg (cos_firstQuadrant_nonneg hh.le)] at hnear
  have hangle : h * Real.pi / 2 ^ n ≤ Real.pi / 2 := by
    have hcast : 2 * (h : ℝ) ≤ 2 ^ n := by exact_mod_cast hh.le
    rw [div_le_div_iff₀ (by positivity) (by positivity)]
    nlinarith [Real.pi_pos]
  have hcos : (1 : ℝ) / 2 ^ n ≤ Real.cos (h * Real.pi / 2 ^ n) := by
    have hcast : 2 * (h : ℝ) + 1 ≤ 2 ^ n := by exact_mod_cast hh
    calc (1 : ℝ) / 2 ^ n ≤ 1 - 2 * h / 2 ^ n := by
          rw [le_sub_iff_add_le, ← add_div, div_le_one (by positivity)]
          linarith
      _ = 1 - 2 / Real.pi * (h * Real.pi / 2 ^ n) := by field_simp [Real.pi_ne_zero]
      _ ≤ _ := Real.one_sub_mul_le_cos (by positivity) hangle
  have hpow : (1 : ℝ) / 2 ^ 14 ≤ 1 / 2 ^ n :=
    one_div_le_one_div_of_le (by positivity) (pow_le_pow_right₀ (by norm_num) hn)
  have hfar : (1 : ℝ) / 2 ^ 24 < 1 / 2 ^ 14 := by norm_num
  exact absurd hnear (not_le.2 (hfar.trans_le (hpow.trans hcos)))

/-! ### The reference SYMVAL -/

/-- `x` is the binary32 nearest to `c`, the even pattern at a tie, and 0 written as +0 (R121). -/
structure IsNearestF32 (x : F32) (c : ℝ) : Prop where
  finite  : f32Finite x = true
  nearest : ∀ q : F32, f32Finite q = true → |((f32Rat x : ℚ) : ℝ) - c| ≤ |((f32Rat q : ℚ) : ℝ) - c|
  tie     : ∀ q : F32, f32Finite q = true → |((f32Rat x : ℚ) : ℝ) - c| = |((f32Rat q : ℚ) : ℝ) - c| →
    f32Rat q = f32Rat x ∨ x.getLsbD 0 = false
  zero    : f32Rat x = 0 → x = 0#32

/-- A negative reference cosine is that of an angle off the axis. -/
theorem cosRef_sign_cases (n u : Nat) :
    (∃ h, 2 * h ≤ 2 ^ n ∧ cosRef n u = BitVec.ofNat 32 (nearestPattern n h)) ∨
    ∃ h, 2 * h < 2 ^ n ∧ cosRef n u = BitVec.ofNat 32 (2 ^ 31 + nearestPattern n h) := by
  have hpos := Nat.two_pow_pos n
  unfold cosRef
  dsimp only
  generalize (if 2 ^ n < u % (2 * 2 ^ n) then 2 * 2 ^ n - u % (2 * 2 ^ n) else u % (2 * 2 ^ n)) = h
  split
  · exact .inr ⟨2 ^ n - h, by omega, rfl⟩
  · exact .inl ⟨h, by omega, rfl⟩

/-- The reference cosine 0 is +0 (R121). -/
theorem cosRef_zero {n : Nat} (hn : n ≤ 14) {u : Nat} (h0 : f32Rat (cosRef n u) = 0) : cosRef n u = 0#32 := by
  have hvalue {h : Nat} (hh : 2 * h ≤ 2 ^ n) {b : Bool}
      (href : cosRef n u = BitVec.ofNat 32 (b.toNat * 2 ^ 31 + nearestPattern n h)) : nearestPattern n h = 0 := by
    have hlt : nearestPattern n h < 2 ^ 31 := (nearestPattern_le_one hh).trans_lt (by decide)
    have hr := f32Rat_signed hlt b
    rw [← href, h0, Rat.cast_zero] at hr
    rw [← patternValue_eq_zero_iff hlt]
    cases b with
    | false => exact hr.symm
    | true => exact neg_eq_zero.1 hr.symm
  rcases cosRef_sign_cases n u with ⟨h, hh, href⟩ | ⟨h, hh, href⟩
  · rw [href, hvalue hh (b := false) (by simpa using href)]
  · exact absurd (hvalue hh.le (b := true) (by simpa using href)) (nearestPattern_ne_zero hn hh)

/-- The reference cosine is the binary32 nearest to the exact one (R121). -/
theorem cosRef_isNearest {n : Nat} (hn : n ≤ 14) (u : Nat) :
    IsNearestF32 (cosRef n u) (Real.cos (u * Real.pi / 2 ^ n)) := by
  obtain ⟨h, b, hh, href, hcos⟩ := cosRef_cases n u
  have hlt : nearestPattern n h < 2 ^ 31 := (nearestPattern_le_one hh).trans_lt (by decide)
  have hvalue : ((f32Rat (cosRef n u) : ℚ) : ℝ) = signed b (patternValue (nearestPattern n h)) :=
    href ▸ f32Rat_signed hlt b
  have hcos' : Real.cos (u * Real.pi / 2 ^ n) = signed b (Real.cos (h * Real.pi / 2 ^ n)) := hcos
  have hnear (q : F32) := nearestPattern_nearest_value hh ((isPatternValue_f32Rat q).withSign b)
  have hself : |((f32Rat (cosRef n u) : ℚ) : ℝ) - Real.cos (u * Real.pi / 2 ^ n)| =
      |patternValue (nearestPattern n h) - Real.cos (h * Real.pi / 2 ^ n)| := by
    rw [hcos', abs_sub_signed, hvalue, signed_signed]
  refine ⟨(cosRef_conforms n u).1, fun q _ => ?_, fun q _ heq => ?_, cosRef_zero hn⟩
  · rw [hself, hcos', abs_sub_signed]
    exact (hnear q).1
  · rw [hself, hcos', abs_sub_signed] at heq
    refine ((hnear q).2 heq).imp (fun hq => ?_) (fun heven => ?_)
    · have : ((f32Rat q : ℚ) : ℝ) = (f32Rat (cosRef n u) : ℚ) := by rw [hvalue, ← hq, signed_signed]
      exact_mod_cast this
    · rw [href]
      simp only [BitVec.getLsbD_ofNat, Nat.testBit_zero, Nat.ofNat_pos, decide_true, Bool.true_and,
        decide_eq_false_iff_not]
      omega

/-- The reference sine, a cosine three quarter turns on, is the binary32 nearest to the exact one (R121). -/
theorem sinRef_isNearest {n : Nat} (h1 : 1 ≤ n) (hn : n ≤ 14) (u : Nat) :
    IsNearestF32 (sinRef n u) (Real.sin (u * Real.pi / 2 ^ n)) :=
  cos_three_quarters_on h1 u ▸ cosRef_isNearest hn _

end Sys2Proof.Machine
end

section
/-! The magnitude of a conforming symbol, and the CFG command (41_configuration.md R110, R111, R122). -/

namespace Sys2Proof.Machine

open Statements

/-! ### Symbols -/

/-- Two components within ε of those of a unit vector make a vector of a length within 2·ε of 1. -/
theorem abs_magnitude_sub_one_le {x y φ ε : ℝ} (hx : |x - Real.cos φ| ≤ ε) (hy : |y - Real.sin φ| ≤ ε) :
    |Real.sqrt (x ^ 2 + y ^ 2) - 1| ≤ 2 * ε := by
  let z : ℂ := ⟨x, y⟩
  let e : ℂ := ⟨Real.cos φ, Real.sin φ⟩
  have hz : ‖z‖ = Real.sqrt (x ^ 2 + y ^ 2) := Complex.norm_eq_sqrt_sq_add_sq z
  have he : ‖e‖ = 1 := by rw [Complex.norm_eq_sqrt_sq_add_sq, Real.cos_sq_add_sin_sq, Real.sqrt_one]
  calc |Real.sqrt (x ^ 2 + y ^ 2) - 1| = |‖z‖ - ‖e‖| := by rw [hz, he]
    _ ≤ ‖z - e‖ := abs_norm_sub_norm_le z e
    _ ≤ |x - Real.cos φ| + |y - Real.sin φ| := Complex.norm_le_abs_re_add_abs_im (z - e)
    _ ≤ 2 * ε := by linarith

/-! ### The order of a CFG -/

/-- An order log is found exactly where R111 has one. -/
theorem orderLog?_eq_some_iff {m n : Nat} {q : BitVec 16} :
    orderLog? m q = some n ↔ 1 ≤ n ∧ n ≤ m ∧ q.toInt = 2 ^ n := by
  refine ⟨orderLog?_eq_some, fun ⟨h1, hm, hq⟩ => ?_⟩
  cases hlog : orderLog? m q with
  | none =>
    have hno := List.find?_eq_none.1 hlog n (List.mem_range'_1.2 ⟨h1, by omega⟩)
    exact absurd (decide_eq_true hq) hno
  | some k =>
    obtain ⟨-, -, hk⟩ := orderLog?_eq_some hlog
    have hpow : (2 : ℕ) ^ k = 2 ^ n := by exact_mod_cast hk.symm.trans hq
    rw [Nat.pow_right_injective (le_refl 2) hpow]

theorem orderLog?_eq_none_iff {m : Nat} {q : BitVec 16} :
    orderLog? m q = none ↔ ∀ n, 1 ≤ n → n ≤ m → q.toInt ≠ 2 ^ n := by
  simp only [Option.eq_none_iff_forall_ne_some, ne_eq, orderLog?_eq_some_iff, not_and]

/-! ### The two outcomes of a CFG -/

/-- ROT as a number (R22). -/
theorem toNat_rot (order : Nat) : (decide (order ≠ 2)).toNat = if order ≠ 2 then 1 else 0 := Bool.cond_decide _ _ _

/-- PH of order N as R120 writes it. -/
theorem phaseTable_eq_map (order : Nat) : phaseTable order (decide (order ≠ 2)) =
    (List.range order).map (fun k => 2 * k + if order ≠ 2 then 1 else 0) := by
  rw [phaseTable, toNat_rot]

/-- The CFG register of order 2^n as the response shows it (R22). -/
theorem configReg_word {n : Nat} (hn : n ≤ 14) (gray : Bool) :
    (configReg n gray).word.setWidth 64 = BitVec.ofNat 64
      (2 ^ n * 2 ^ 16 + n * 2 ^ 4 + (if 2 ^ n ≠ 2 then 4 else 0) + (if gray then 2 else 0) + 1) := by
  have hpow : 2 ^ n ≤ 2 ^ 14 := Nat.pow_le_pow_right (by decide) hn
  have hrot : (decide (2 ^ n ≠ 2)).toNat * 4 = if 2 ^ n ≠ 2 then 4 else 0 := by rw [toNat_rot, ite_mul]
  have hgray : gray.toNat * 2 = if gray then 2 else 0 := by cases gray <;> rfl
  rw [← hrot, ← hgray]
  have hrot_le := (decide (2 ^ n ≠ 2)).toNat_le
  have hgray_le := gray.toNat_le
  apply BitVec.eq_of_toNat_eq
  simp only [CfgReg.word, configReg, BitVec.toNat_setWidth, toNat_append_eq, BitVec.toNat_ofNat, BitVec.toNat_ofBool,
    Bool.toNat_true]
  generalize (decide (2 ^ n ≠ 2)).toNat = r at *
  omega

/-- CFG of an order 2^n configures the block (R110). -/
theorem exec_cfg_of_order {s : State} {nreq : BitVec 16} {n : Nat} (h : orderLog? s.params.lognMax nreq = some n)
    (gray : Bool) : exec (.cfg nreq gray) s = .next (configured s n gray) := by
  obtain ⟨-, -, hq⟩ := orderLog?_eq_some h
  have hexec : exec (.cfg nreq gray) s =
      .next ((((s.setMacc []).setDacc []).configure n gray).ok ((configReg n gray).word.setWidth 64)) := by
    simp only [exec, execCfg, h]
  rw [hexec, configReg_word (order_log_le hq), configured, ← phaseTable_eq_map]
  rfl

/-- CFG of any other order leaves the block unconfigured and fails with CFGERR (R110). -/
theorem exec_cfg_of_no_order {s : State} {nreq : BitVec 16} (h : orderLog? s.params.lognMax nreq = none) (gray : Bool) :
    exec (.cfg nreq gray) s = .next (failed (deconfigured s) 1 (Instr.cfg nreq gray).word) := by
  simp only [exec, execCfg, h]
  exact congrArg Host.Outcome.next (raise_eq_failed (deconfigured s) .cfgerr _)

/-! ### The words of format K -/

/-- Opcode 1 is CFG in format K (R77). -/
theorem decode_of_opcode_one {c : Word} (hop : slice c 31 28 = 1) (d : DWord) :
    decode ⟨c, d⟩ = formatK c (.cfg (fieldV c) (fieldG c)) := by
  rw [slice_eq_fieldOp] at hop
  simp only [decode, hop]

/-- A reserved bit makes a word of opcode 1 illegal (R73, R78). -/
theorem runBeat_cfg_illegal {c : Word} (hop : slice c 31 28 = 1) (hres : slice c 27 17 ≠ 0) (d : DWord) (s : State) :
    runBeat ⟨c, d⟩ s = .next (failed s 6 c) := by
  cases hdec : decode ⟨c, d⟩ with
  | ok i =>
    rw [decode_of_opcode_one hop] at hdec
    obtain ⟨hzero, -⟩ := formatK_ok_iff.1 hdec
    exact absurd hzero hres
  | error e => rw [runBeat_of_decode_error hdec, raise_illegal_eq_failed]

/-- Every other word of opcode 1 is the CFG of its fields NREQ and G (R73, R77). -/
theorem decode_cfg_legal {c : Word} (hop : slice c 31 28 = 1) (hres : slice c 27 17 = 0) (d : DWord) :
    decode ⟨c, d⟩ = .ok (.cfg (fieldV c) (fieldG c)) :=
  (decode_of_opcode_one hop d).trans (formatK_ok_iff.2 ⟨hres, rfl⟩)

end Sys2Proof.Machine
end

section
/-! The settled statements of 41_configuration.md. -/

namespace Sys2Proof.Proofs

open Sys2Proof.Machine Sys2Proof.Statements

/-- Settles O13: an n-bit vector written from k reads back as k. -/
theorem naturalOrderIsIdentity : Obligations.NaturalOrderIsIdentity := by
  refine fun n => ⟨by rw [naturalOrder_eq_range, List.length_range], fun k hk => ?_⟩
  have hread := bitsToInt_intToBits hk
  exact ⟨by rw [naturalOrder_eq_range, List.getElem?_range hk, hread], hread⟩

/-- Settles O14, by induction on the mirror steps: the mirrored half has the codes of its mirror image with the
new top bit. -/
theorem grayClosedForm : Obligations.GrayClosedForm := fun _ => grayOrder_eq

/-- Settles O15: a step of the construction keeps a permutation, and the INV loop over one inverts it. -/
theorem orderingBijection : Obligations.OrderingBijection := by
  intro n gray hn
  have hperm := orderTable_perm hn gray
  exact ⟨hperm, by rw [length_inverseTable, length_of_perm_range hperm],
    fun _ => exists_value_at_slot hperm, fun _ => exists_slot_of_value hperm⟩

/-- Settles O16: the identity and the running XOR name the slot of each value. -/
theorem inverseClosedForm : Obligations.InverseClosedForm := by
  intro n hn
  constructor
  · have hid := inverseTable_eq_map (orderTable_perm hn false) (f := id) fun v hv => orderTable_at hn hv false
    rwa [List.map_id] at hid
  · refine inverseTable_eq_map (orderTable_perm hn true) (f := runningXor n) fun v hv => ?_
    rw [orderTable_at hn (runningXor_lt hv n), if_pos rfl, grayCode_runningXor_of_lt hv]

/-- Settles O17: the Gray codes of neighbours differ in one bit, and from N = 4 on the natural ordering's entries 1 and 2
do not. -/
theorem grayAdjacency : Obligations.GrayAdjacency := by
  intro n gray hn
  have hgray : ∀ k, k < 2 ^ n → ∃ a b i, (orderTable n true)[k]? = some a ∧
      (orderTable n true)[(k + 1) % 2 ^ n]? = some b ∧ a ^^^ b = 2 ^ i := fun k hk => by
    obtain ⟨i, hi⟩ := exists_grayCode_next_bit hn hk
    exact ⟨_, _, i, orderTable_at hn hk true, orderTable_at hn (Nat.mod_lt _ (Nat.two_pow_pos n)) true, hi⟩
  constructor
  · intro h
    cases gray with
    | true => exact .inl rfl
    | false =>
      by_contra hne
      have hfour : 2 ^ 2 ≤ 2 ^ n := Nat.pow_le_pow_right (by decide) (by omega)
      obtain ⟨a, b, i, ha, hb, hab⟩ := h 1 (by omega)
      rw [orderTable_at hn (by omega)] at ha
      rw [Nat.mod_eq_of_lt (by omega), orderTable_at hn (by omega)] at hb
      cases ha
      cases hb
      exact one_xor_two_ne_two_pow i hab
  · rintro (rfl | rfl)
    · exact hgray
    · rwa [orderTable_one gray]

/-- Settles O18: CFG builds the phase table, whose last entry is 2N − 2 + ROT. -/
theorem phaseTableValues : Obligations.PhaseTableValues := by
  refine ⟨fun s n gray _ k hk => ?_, fun s gray => ⟨rfl, rfl⟩⟩
  rw [State.configure_ph, phaseTable_at hk, ← toNat_rot]
  have hrot := (decide (2 ^ n ≠ 2)).toNat_le
  exact ⟨rfl, by omega⟩

/-- Settles O19: both parts are reference cosines, which are nearest. -/
theorem referenceSymvalIsNearest : Obligations.ReferenceSymvalIsNearest := by
  rintro n u h1 hn - pc (rfl | rfl)
  · obtain ⟨hfinite, hnearest, htie, hzero⟩ := cosRef_isNearest hn u
    exact ⟨hfinite, hnearest, htie, hzero⟩
  · obtain ⟨hfinite, hnearest, htie, hzero⟩ := sinRef_isNearest h1 hn u
    exact ⟨hfinite, hnearest, htie, hzero⟩

/-- Settles O20: the nearest pattern is within half a step of its neighbours, at most 2^−24. -/
theorem referenceSymvalConforms : Obligations.ReferenceSymvalConforms :=
  fun _ _ u hp htol hn _ _ => reference_symvalConformsAt hp htol hn u

/-- Settles O21, by the triangle inequality against the unit vector of the exact phase. -/
theorem symbolMagnitude : Obligations.SymbolMagnitude := by
  intro p n u h
  obtain ⟨-, -, hre, him⟩ := h
  exact abs_magnitude_sub_one_le hre him

/-- Settles O22: a word of opcode 1 is illegal, or the CFG of its fields, whose order is one of R111 or none. -/
theorem cfgRule : Obligations.CfgRule := by
  refine ⟨fun s nreq gray n h1 hmax hn => exec_cfg_of_order (orderLog?_eq_some_iff.2 ⟨h1, hmax, hn⟩) gray,
    fun c d s hop => ⟨fun hres => runBeat_cfg_illegal hop hres d s, fun hres => ?_⟩⟩
  have hdec := decode_cfg_legal hop hres d
  have hgray : decide (slice c 16 16 = 1) = fieldG c := (fieldG_eq c).symm
  beta_reduce
  rw [runBeat_of_decode_ok hdec, slice_eq_fieldV, signed16_toNat, hgray]
  refine ⟨fun n h1 hmax hn => exec_cfg_of_order (orderLog?_eq_some_iff.2 ⟨h1, hmax, hn⟩) _, fun hno => ?_⟩
  have hword : (Instr.cfg (fieldV c) (fieldG c)).word = c := word_of_decode hdec
  rw [exec_cfg_of_no_order (orderLog?_eq_none_iff.2 hno), hword]

/-- Settles O56: both outcomes of a CFG empty MACC and DACC and write the fields named; CLRERR has one outcome. -/
theorem cfgAndClrerrFrame : Obligations.CfgAndClrerrFrame := by
  refine ⟨fun nreq gray s t h => ?_, fun s t h => ?_⟩
  · cases hlog : orderLog? s.params.lognMax nreq with
    | none => rw [exec_cfg_of_no_order hlog] at h; cases h; rfl
    | some n => rw [exec_cfg_of_order hlog] at h; cases h; rfl
  · cases h; rfl

end Sys2Proof.Proofs
end

section
/-! PUSH and MEND in the statements' numbers (42_modulator.md R130, R131): their responses, the symbols of the complete
groups of a stream, and the words of opcodes 2 and 3. -/

namespace Sys2Proof.Machine

open Statements

/-! ### The responses -/

/-- RDATA of PUSH holds the new MCNT above the number of symbols (R130). -/
theorem pushData_eq {mcnt cnt : Nat} (hm : mcnt < 2 ^ 4) (hc : cnt < 2 ^ 5) :
    pushData mcnt cnt = BitVec.ofNat 64 (mcnt * 2 ^ 8 + cnt) := by
  apply BitVec.eq_of_toNat_eq
  simp only [pushData, BitVec.toNat_setWidth, toNat_append_eq, BitVec.toNat_ofNat]
  omega

/-- RDATA of MEND holds the dropped bits' value above their number (R131). -/
theorem mendData_eq (bits : Bits) :
    mendData bits = BitVec.ofNat 64 (bitsToInt bits % 2 ^ 13 * 2 ^ 16 + bits.length % 2 ^ 4) := by
  apply BitVec.eq_of_toNat_eq
  simp only [mendData, BitVec.toNat_setWidth, toNat_append_eq, BitVec.toNat_ofNat]
  omega

/-- The bits past the last complete group. -/
theorem length_drop_groups (n : Nat) (b : Bits) : (b.drop (b.length / n * n)).length = b.length % n := by
  rw [List.length_drop, Nat.mod_eq_sub_div_mul]

/-- At most 13 residual bits are reported as they are: their value and their number fit RDATA (R131, R37). -/
theorem mendData_of_short {bits : Bits} (h : bits.length ≤ 13) :
    mendData bits = BitVec.ofNat 64 (bitsToInt bits * 2 ^ 16 + bits.length) := by
  have hvalue : bitsToInt bits < 2 ^ 13 := (bitsToInt_lt bits).trans_le (Nat.pow_le_pow_right (by decide) h)
  have hnumber : bits.length < 2 ^ 4 := by omega
  rw [mendData_eq, Nat.mod_eq_of_lt hvalue, Nat.mod_eq_of_lt hnumber]

/-! ### The symbols of a stream -/

/-- Group j of the loop is group j of the bits. -/
theorem getElem?_splitGroups {n : Nat} (hn : 1 ≤ n) {b : Bits} {j : Nat} (hj : j < b.length / n) :
    (splitGroups n b.length b).1[j]? = some (group n b j) := by
  rw [splitGroups_eq hn b.length b le_rfl, List.getElem?_map, List.getElem?_range hj]
  rfl

/-- Pushing bits into an empty MACC cuts them alone (R132). -/
theorem State.pushed_of_macc_nil {s : State} (hn : 1 ≤ s.cfg.logn.toNat) (hm : s.macc = []) (b : Bits) :
    s.pushed b = (s.emitSout ((splitGroups s.cfg.logn.toNat b.length b).1.map s.symbolAt)).setMacc
      (b.drop (b.length / s.cfg.logn.toNat * s.cfg.logn.toNat)) := by
  rw [State.pushed, hm, List.nil_append, splitGroups_eq hn _ _ le_rfl]

section
variable {s : State} (hs : s.Inv) (hv : s.cfg.valid = true)
include hs hv

/-- What a configured block emits for the complete groups of a stream are its symbols (R130, R132). -/
theorem State.Inv.symbolsOf_groups (b : Bits) :
    SymbolsOf s b ((splitGroups s.cfg.logn.toNat b.length b).1.map s.symbolAt) := by
  obtain ⟨hn, -, -, -, -, -, -, -⟩ := hs.configured_fields hv
  refine ⟨by rw [List.length_map, splitGroups_groups_length hn], fun j hj => ?_⟩
  have hgroup := getElem?_splitGroups hn hj
  have hlt := hs.bitsToInt_lt_order hv (length_of_mem_splitGroups hn (List.mem_of_getElem? hgroup))
  obtain ⟨hinv, hord, hnatural, hph, hindex⟩ := hs.tables_at hv hlt
  exact ⟨_, _, hinv, hord, hnatural, hph, hindex, by rw [List.getElem?_map, hgroup]; rfl⟩

/-- The answer of the success path of PUSH: how many bits stay in MACC, and how many symbols were emitted (R130). -/
theorem State.Inv.pushBits_answer (b : Bits) :
    s.pushBits b = .next ((s.pushed b).ok
      (pushData ((s.macc ++ b).length % s.cfg.logn.toNat) ((s.macc ++ b).length / s.cfg.logn.toNat))) := by
  obtain ⟨hn, -, -, -, -, -, -, -⟩ := hs.configured_fields hv
  obtain ⟨d, hd⟩ := hs.pushBits_eq hv b
  obtain ⟨-, xs, hxs, ht⟩ := pushBits_next hd
  rw [hs.symbolsOf_eq hv fun g hg => length_of_mem_splitGroups hn hg] at hxs
  cases hxs
  rw [hd, ht, List.length_map, splitGroups_groups_length hn, splitGroups_rest_length hn]
  rfl

/-- A PUSH of at most 16 bits emits at most 16 symbols: MACC alone fills no group (R37, R130). -/
theorem State.Inv.symbol_count_le {len : Nat} (hlen : len ≤ 16) : (s.macc.length + len) / s.cfg.logn.toNat ≤ 16 := by
  have hmacc := hs.macc_lt_logn hv
  rw [← Nat.lt_succ_iff, Nat.div_lt_iff_lt_mul (by omega)]
  omega

end

/-! ### PUSH -/

/-- PUSH of operands that fit, in a configured block, takes the success path (R130). -/
theorem exec_push_of_fits {s : State} {v : BitVec 16} {w : BitVec 5} (hv : s.cfg.valid = true) (h : FitsWidth v w) :
    exec (.push v w) s = s.pushBits (intToBits v.toNat (usedWidth v w)) := by
  simp [exec, execPush, not_lt.2 h.1, hv, effectiveWidth_of_fits h]

/-- PUSH with no configuration in force fails with NOTCFG, whatever its value (R130, R191). -/
theorem exec_push_of_unconfigured {s : State} {w : BitVec 5} (hv : s.cfg.valid = false) (hw : w.toNat ≤ 16)
    (v : BitVec 16) : exec (.push v w) s = .next (failed s 3 (Instr.push v w).word) := by
  simp only [exec, execPush, if_neg (not_lt.2 hw), if_pos hv]
  exact congrArg Host.Outcome.next (raise_eq_failed s .notcfg _)

/-- PUSH of a value too large for the width given fails with OVERFLOW (R130). -/
theorem exec_push_of_overflow {s : State} {v : BitVec 16} {w : BitVec 5} (hv : s.cfg.valid = true) (hw : w.toNat ≤ 16)
    (h0 : w ≠ 0#5) (h : 2 ^ w.toNat ≤ v.toNat) :
    exec (.push v w) s = .next (failed s 2 (Instr.push v w).word) := by
  simp only [exec, execPush, if_neg (not_lt.2 hw), hv, Bool.true_eq_false, if_false, effectiveWidth_eq_none h0 h]
  exact congrArg Host.Outcome.next (raise_eq_failed s .overflow _)

/-- Opcode 2 is PUSH in format V (R77). -/
theorem decode_of_opcode_two {c : Word} (hop : slice c 31 28 = 2) (d : DWord) :
    decode ⟨c, d⟩ = formatV c (.push (fieldV c) (fieldW c)) := by
  rw [slice_eq_fieldOp] at hop
  simp only [decode, hop]

/-! ### MEND -/

/-- All that MEND does (R131). -/
theorem exec_mend (s : State) : exec .mend s = .next ((s.setMacc []).ok (mendData s.macc)) := rfl

/-- Opcode 3 is MEND in format Z (R77). -/
theorem decode_of_opcode_three {c : Word} (hop : slice c 31 28 = 3) (d : DWord) :
    decode ⟨c, d⟩ = formatZ c .mend := by
  rw [slice_eq_fieldOp] at hop
  simp only [decode, hop]

/-! ### The words of format Z -/

section
variable {c : Word} {d : DWord} {i : Instr} (hdec : decode ⟨c, d⟩ = formatZ c i)
include hdec

/-- A reserved bit makes a word of format Z illegal (R72, R78). -/
theorem runBeat_formatZ_illegal (hres : slice c 27 0 ≠ 0) (s : State) : runBeat ⟨c, d⟩ s = .next (failed s 6 c) := by
  cases hformat : formatZ c i with
  | ok j =>
    obtain ⟨hzero, -⟩ := formatZ_ok_iff.1 hformat
    exact absurd (by simpa [slice] using hzero) hres
  | error e => rw [runBeat_of_decode_error (hdec.trans hformat), raise_illegal_eq_failed]

/-- Every other word of format Z runs its instruction (R72, R77). -/
theorem runBeat_formatZ_legal (hres : slice c 27 0 = 0) (s : State) : runBeat ⟨c, d⟩ s = exec i s :=
  runBeat_of_decode_ok (hdec.trans (formatZ_ok_iff.2 ⟨by simpa [slice] using hres, rfl⟩)) s

end

end Sys2Proof.Machine
end

section
/-! The settled statements of 42_modulator.md. -/

namespace Sys2Proof.Proofs

open Sys2Proof.Machine Sys2Proof.Statements

/-- Settles O23: a PUSH that fits emits the symbols of the complete groups of MACC and its bits, and a word of opcode 2 is
illegal, or the PUSH of its fields V and W. -/
theorem pushRule : Obligations.PushRule := by
  refine ⟨fun s v w hs hv hfit => ?_, fun c d s hop => ?_⟩
  · obtain ⟨hn, -, h14, -, -, -, -, -⟩ := hs.configured_fields hv
    refine ⟨_, hs.symbolsOf_groups hv _, ?_⟩
    have hrest : (s.macc.length + usedWidth v w) % s.cfg.logn.toNat < 2 ^ 4 := (Nat.mod_lt _ hn).trans_le (by omega)
    have hcount : (s.macc.length + usedWidth v w) / s.cfg.logn.toNat < 2 ^ 5 :=
      (hs.symbol_count_le hv (usedWidth_le hfit)).trans_lt (by decide)
    rw [exec_push_of_fits hv hfit, hs.pushBits_answer hv, State.pushed, splitGroups_eq hn _ _ le_rfl, List.length_append,
      length_intToBits, pushData_eq hrest hcount]
    rfl
  · have hdec := decode_of_opcode_two hop d
    refine ⟨fun hres => runBeat_formatV_illegal hdec (.inl hres) s, fun hres => ?_⟩
    simp only [slice_eq_fieldW, slice_eq_fieldV, BitVec.ofNat_toNat, BitVec.setWidth_eq]
    refine ⟨fun hwide => runBeat_formatV_illegal hdec (.inr hwide) s, fun hw hv => ?_, fun hw hv h0 hge => ?_, fun hw => ?_⟩
    · obtain ⟨hrun, hword⟩ := runBeat_formatV_legal hdec hres hw s
      rw [hrun, exec_push_of_unconfigured hv hw, hword]
    · obtain ⟨hrun, hword⟩ := runBeat_formatV_legal hdec hres hw s
      rw [hrun, exec_push_of_overflow hv hw (fun h => h0 (congrArg BitVec.toNat h)) hge, hword]
    · exact (runBeat_formatV_legal hdec hres hw s).1

/-- Settles O24: MEND has one outcome, and a word of opcode 3 is illegal, or MEND. -/
theorem mendRule : Obligations.MendRule := by
  refine ⟨fun s => by rw [exec_mend, mendData_eq]; rfl, fun c d s hop => ?_⟩
  have hdec := decode_of_opcode_three hop d
  exact ⟨fun hres => runBeat_formatZ_illegal hdec hres s, fun hres => runBeat_formatZ_legal hdec hres s⟩

/-- Settles O25: the PUSH commands push their bits in a row, and MEND finds fewer than n of them left. -/
theorem pushesEndedByMendAreGen : Obligations.PushesEndedByMendAreGen := by
  intro s ps rest hs hv hm hfit hin
  obtain ⟨hn, -, h14, -, -, -, -, -⟩ := hs.configured_fields hv
  obtain ⟨rs, hlen, hok, hsteps⟩ := steps_pushes hs hv hfit hin
  refine ⟨_, rs, hs.symbolsOf_groups hv (pushedBits ps), hlen, hok,
    (steps_then_encode hsteps rfl rfl (exec_mend _)).trans ?_⟩
  have hshort : (pushedBits ps).length % s.cfg.logn.toNat ≤ 13 := Nat.le_of_lt_succ ((Nat.mod_lt _ hn).trans_le h14)
  have hdata := mendData_of_short ((length_drop_groups s.cfg.logn.toNat (pushedBits ps)).trans_le hshort)
  rw [length_drop_groups] at hdata
  rw [State.pushed_of_macc_nil hn hm]
  simp only [State.setMacc_macc, hdata]
  rfl

/-- Settles O53: a PUSH fails, answers, or emits and sets MACC; MEND has one outcome. -/
theorem modulatorFrame : Obligations.ModulatorFrame := by
  rintro i s t (⟨v, w, rfl⟩ | rfl) h
  · cases exec_effect h with
    | failed _ e => exact ⟨[], by rw [List.append_nil]; rfl, nofun⟩
    | answered _ d => exact ⟨[], by rw [List.append_nil]; rfl, nofun⟩
    | pushed _ _ xs rest d _ _ => exact ⟨xs, rfl, nofun⟩
  · cases h
    exact ⟨[], by rw [List.append_nil]; rfl, fun _ => ⟨rfl, rfl⟩⟩

end Sys2Proof.Proofs
end

section
/-! The fields of a binary32 pattern in the statements' numbers, and the value of a finite one (43_slicer.md R144). -/

namespace Sys2Proof.Machine

open Statements

theorem slice_eq_f32Exp (p : F32) : slice p 30 23 = (f32Exp p).toNat := (toNat_extractLsb' p 23 8).symm

theorem slice_eq_f32Frac (p : F32) : slice p 22 0 = (f32Frac p).toNat := (toNat_extractLsb' p 0 23).symm

theorem f32Exp_eq_iff (p : F32) (e : BitVec 8) : f32Exp p = e ↔ slice p 30 23 = e.toNat := by
  rw [slice_eq_f32Exp, BitVec.toNat_inj]

theorem f32Frac_eq_zero_iff (p : F32) : f32Frac p = 0#23 ↔ slice p 22 0 = 0 := by
  rw [slice_eq_f32Frac, ← BitVec.toNat_inj]
  rfl

theorem f32IsInf_iff (p : F32) : f32IsInf p = true ↔ slice p 30 23 = 0xFF ∧ slice p 22 0 = 0 := by
  rw [f32IsInf, Bool.and_eq_true, decide_eq_true_eq, decide_eq_true_eq, f32Exp_eq_iff, f32Frac_eq_zero_iff]
  rfl

theorem f32IsNaN_iff (p : F32) : f32IsNaN p = true ↔ slice p 30 23 = 0xFF ∧ slice p 22 0 ≠ 0 := by
  rw [f32IsNaN, Bool.and_eq_true, decide_eq_true_eq, bne_iff_ne, f32Exp_eq_iff, ne_eq, f32Frac_eq_zero_iff]
  rfl

/-- The sign of a pattern: bit 31. -/
theorem neg_one_pow_signBit (p : F32) : (-1 : ℚ) ^ slice p 31 31 = if p.getLsbD 31 then -1 else 1 := by
  have hbit : p.getLsbD 31 = decide (slice p 31 31 = 1) := by rw [BitVec.getLsbD, Nat.testBit_eq_decide_div_mod_eq]; rfl
  rw [hbit]
  rcases Nat.mod_two_eq_zero_or_one (p.toNat / 2 ^ 31) with h | h
  · rw [show slice p 31 31 = 0 from h]; simp
  · rw [show slice p 31 31 = 1 from h]; simp

/-- The value of a pattern is its magnitude with its sign (R144). -/
theorem f32Rat_eq_sign_mul (p : F32) : f32Rat p = (-1) ^ slice p 31 31 * ((f32Mag p : ℚ) / 2 ^ 149) := by
  rw [neg_one_pow_signBit, f32Rat, f32Scaled]
  split
  · push_cast; ring
  · push_cast; ring

/-- The magnitude of a subnormal pattern (R144). -/
theorem f32Mag_of_exp_zero {p : F32} (h : slice p 30 23 = 0) : f32Mag p = slice p 22 0 := by
  rw [f32Mag, if_pos ((f32Exp_eq_iff p 0#8).2 h), slice_eq_f32Frac]

/-- The magnitude of a normal pattern (R144). -/
theorem f32Mag_of_exp_pos {p : F32} (h : 1 ≤ slice p 30 23) :
    f32Mag p = (2 ^ 23 + slice p 22 0) * 2 ^ (slice p 30 23 - 1) := by
  have hne : f32Exp p ≠ 0#8 := fun h0 => by
    rw [(f32Exp_eq_iff p 0#8).1 h0] at h
    exact absurd h (by decide)
  rw [f32Mag, if_neg hne, slice_eq_f32Frac, slice_eq_f32Exp]

theorem f32Rat_normal {p : F32} (h : 1 ≤ slice p 30 23) :
    f32Rat p = (-1) ^ slice p 31 31 * 2 ^ ((slice p 30 23 : ℤ) - 127) * (1 + (slice p 22 0 : ℚ) / 2 ^ 23) := by
  rw [f32Rat_eq_sign_mul, f32Mag_of_exp_pos h]
  obtain ⟨e, he⟩ : ∃ e, slice p 30 23 = e + 1 := ⟨_, (Nat.sub_add_cancel h).symm⟩
  have hscale : (2 : ℚ) ^ (((e + 1 : ℕ) : ℤ) - 127) = 2 ^ e / 2 ^ 126 := by
    rw [show ((e + 1 : ℕ) : ℤ) - 127 = (e : ℤ) - (126 : ℕ) by push_cast; ring, zpow_sub₀ two_ne_zero, zpow_natCast,
      zpow_natCast]
  rw [he, hscale, Nat.add_sub_cancel]
  push_cast
  ring

theorem f32Rat_subnormal {p : F32} (h : slice p 30 23 = 0) :
    f32Rat p = (-1) ^ slice p 31 31 * 2 ^ (-126 : ℤ) * ((slice p 22 0 : ℚ) / 2 ^ 23) := by
  have hscale : (2 : ℚ) ^ (-126 : ℤ) = 1 / 2 ^ 126 := by
    rw [zpow_neg, one_div]
    rfl
  rw [f32Rat_eq_sign_mul, f32Mag_of_exp_zero h, hscale]
  ring

end Sys2Proof.Machine
end

section
/-! The reference decision against exact real arithmetic (43_slicer.md R141, R142): it exists, depends on the sample's angle
alone, and is the constellation point with the largest projection. -/

namespace Sys2Proof.Machine

open Real

/-! ### Rounding -/

/-- Every real number has a rounding half to even (R13). -/
theorem exists_roundHalfEven (t : ℝ) : ∃ r : ℤ, IsRoundHalfEven t r := by
  have hnear := abs_sub_round t
  by_cases hround : |t - round t| = 1 / 2 → Even (round t)
  · exact ⟨round t, hnear, hround⟩
  · obtain ⟨htie, hodd⟩ := Classical.not_imp.1 hround
    rw [Int.not_even_iff_odd] at hodd
    rcases eq_or_eq_neg_of_abs_eq htie with h | h
    · have hother : |t - ((round t + 1 : ℤ) : ℝ)| = 1 / 2 := by
        push_cast
        rw [show t - (round t + 1) = -(1 / 2) by linarith, abs_neg, abs_of_pos one_half_pos]
      exact ⟨round t + 1, hother.le, fun _ => hodd.add_one⟩
    · have hother : |t - ((round t - 1 : ℤ) : ℝ)| = 1 / 2 := by
        push_cast
        rw [show t - (round t - 1) = 1 / 2 by linarith, abs_of_pos one_half_pos]
      exact ⟨round t - 1, hother.le, fun _ => hodd.sub_odd odd_one⟩

/-- Two different integers: where one is within ½, the other is not nearer than ½. -/
theorem half_le_abs_sub {t : ℝ} {r m : ℤ} (hr : |t - r| ≤ 1 / 2) (hne : m ≠ r) : 1 / 2 ≤ |t - m| := by
  have hgap : (1 : ℝ) ≤ |(m : ℝ) - r| := by exact_mod_cast Int.one_le_abs (sub_ne_zero.2 hne)
  have htriangle := abs_sub_le (m : ℝ) t r
  rw [abs_sub_comm (m : ℝ) t] at htriangle
  linarith

/-! ### The decision -/

theorem exists_slicerPosition (n : ℕ) (rot : Bool) (re im : F32) : ∃ t, IsSlicerPosition n rot re im t :=
  ⟨_, div_mul_cancel₀ _ (by positivity)⟩

/-- The reference decision on a sample that is not zero is the rounding of the sample's position (R141). -/
theorem exists_sliceRef_rounding {n : ℕ} (hn : 1 ≤ n) (rot : Bool) {re im : F32} (h : samplePoint re im ≠ 0) :
    ∃ (t : ℝ) (r : ℤ), IsSlicerPosition n rot re im t ∧ IsRoundHalfEven t r ∧
      (sliceRef (2 ^ n) rot re im : ℤ) = r % 2 ^ n := by
  obtain ⟨t, ht⟩ := exists_slicerPosition n rot re im
  obtain ⟨r, hr⟩ := exists_roundHalfEven t
  exact ⟨t, r, ht, hr, sliceRef_eq hn h ht hr⟩

theorem sliceRef_lt {order : ℕ} (h : 0 < order) (rot : Bool) (re im : F32) : sliceRef order rot re im < order := by
  unfold sliceRef
  dsimp only
  split <;> exact Nat.mod_lt _ h

/-- Parameters without decisions of their own decide as the reference does (R8). -/
theorem slicedecOf_reference {p : Params} (hp : p.slicedec = []) (order : ℕ) (rot : Bool) (re im : F32) :
    slicedecOf p order rot re im = sliceRef order rot re im := by
  simp [slicedecOf, hp]

/-- Where a position lies between m and m + 1, the reference decides for one of the two (R142). -/
theorem sliceRef_eq_neighbour {n : ℕ} (hn : 1 ≤ n) {rot : Bool} {re im : F32} (h : samplePoint re im ≠ 0) {t : ℝ} {m : ℤ}
    (ht : IsSlicerPosition n rot re im t) (hm : |t - (m + 1 / 2)| ≤ 1 / 2) :
    (sliceRef (2 ^ n) rot re im : ℤ) = m % 2 ^ n ∨ (sliceRef (2 ^ n) rot re im : ℤ) = (m + 1) % 2 ^ n := by
  obtain ⟨r, hr⟩ := exists_roundHalfEven t
  obtain ⟨hlo, hhi⟩ := abs_le.1 hr.1
  obtain ⟨hlo', hhi'⟩ := abs_le.1 hm
  have hge : (m : ℝ) - 1 < r := by linarith
  have hle : (r : ℝ) < m + 2 := by linarith
  norm_cast at hge hle
  have hcases : r = m ∨ r = m + 1 := by omega
  rw [sliceRef_eq hn h ht hr]
  exact hcases.imp (congrArg (· % 2 ^ n)) (congrArg (· % 2 ^ n))

section
variable {re im re' im' : F32} {c : ℚ} (hre : f32Rat re' = c * f32Rat re) (him : f32Rat im' = c * f32Rat im)
include hre him

theorem samplePoint_scaled : samplePoint re' im' = ((c : ℝ) : ℂ) * samplePoint re im := by
  apply Complex.ext <;> simp [samplePoint, hre, him]

variable (hc : 0 < c)
include hc

/-- A positive multiple of a sample has the sample's position (R141). -/
theorem IsSlicerPosition.of_scaled {n : ℕ} {rot : Bool} {t : ℝ} (ht : IsSlicerPosition n rot re im t) :
    IsSlicerPosition n rot re' im' t := by
  have harg : (samplePoint re' im').arg = (samplePoint re im).arg := by
    rw [samplePoint_scaled hre him, Complex.arg_real_mul _ (by exact_mod_cast hc)]
  exact ht.trans (congrArg (· - rot.toNat * π / 2 ^ n) harg.symm)

/-- The magnitude of a sample does not matter (R141). -/
theorem sliceRef_scaled {n : ℕ} (hn : 1 ≤ n) (rot : Bool) (h : samplePoint re im ≠ 0) :
    sliceRef (2 ^ n) rot re' im' = sliceRef (2 ^ n) rot re im := by
  have h' : samplePoint re' im' ≠ 0 := by
    rw [samplePoint_scaled hre him]
    exact mul_ne_zero (by exact_mod_cast hc.ne') h
  obtain ⟨t, r, ht, hr, hk⟩ := exists_sliceRef_rounding hn rot h
  exact_mod_cast (sliceRef_eq hn h' (ht.of_scaled hre him hc) hr).trans hk.symm

end

/-! ### The projection on the constellation points -/

/-- The component of a sample along constellation point k (R141 (b)). -/
noncomputable def projection (n : ℕ) (rot : Bool) (re im : F32) (k : ℕ) : ℝ :=
  ((f32Rat re : ℚ) : ℝ) * Real.cos ((2 * k + rot.toNat : ℕ) * π / 2 ^ n) +
    ((f32Rat im : ℚ) : ℝ) * Real.sin ((2 * k + rot.toNat : ℕ) * π / 2 ^ n)

/-- The projection falls with the angle between the sample and the point. -/
theorem projection_eq {n : ℕ} {rot : Bool} {re im : F32} {t : ℝ} (ht : IsSlicerPosition n rot re im t) (k : ℕ) :
    projection n rot re im k = ‖samplePoint re im‖ * Real.cos ((t - (k : ℤ)) * (2 * π / 2 ^ n)) := by
  have hangle : (t - (k : ℤ)) * (2 * π / 2 ^ n) =
      (samplePoint re im).arg - (2 * k + rot.toNat : ℕ) * π / 2 ^ n := by
    rw [sub_mul, ht]
    push_cast
    change (samplePoint re im).arg - _ - _ = _
    ring
  rw [hangle, Real.cos_sub, mul_add, ← mul_assoc, ← mul_assoc, Complex.norm_mul_cos_arg, Complex.norm_mul_sin_arg]
  rfl

/-- Indices that agree mod N name one point: their angles differ by whole turns. -/
theorem cos_position_congr {n : ℕ} (t : ℝ) {k m : ℤ} (h : m % 2 ^ n = k % 2 ^ n) :
    Real.cos ((t - k) * (2 * π / 2 ^ n)) = Real.cos ((t - m) * (2 * π / 2 ^ n)) := by
  obtain ⟨q, hq⟩ := Int.ModEq.dvd (show m ≡ k [ZMOD 2 ^ n] from h)
  have hk : (k : ℝ) = m + 2 ^ n * q := by exact_mod_cast (sub_eq_iff_eq_add'.1 hq)
  have hangle : (t - k) * (2 * π / 2 ^ n) = (t - m) * (2 * π / 2 ^ n) - q * (2 * π) := by
    rw [hk]
    field_simp
    ring
  rw [hangle, Real.cos_sub_int_mul_two_pi]

/-- Every index has a number within half a turn of the position that it agrees with mod N. -/
theorem exists_congr_within_half_turn (n : ℕ) (t : ℝ) (j : ℤ) : ∃ m : ℤ, m % 2 ^ n = j % 2 ^ n ∧ |t - m| ≤ 2 ^ n / 2 := by
  refine ⟨j + 2 ^ n * round ((t - j) / 2 ^ n), by simp, ?_⟩
  have hpow : (0 : ℝ) < 2 ^ n := by positivity
  have hscaled : t - ((j + 2 ^ n * round ((t - j) / 2 ^ n) : ℤ) : ℝ) =
      2 ^ n * ((t - j) / 2 ^ n - round ((t - j) / 2 ^ n)) := by
    push_cast
    field_simp
    ring
  rw [hscaled, abs_mul, abs_of_pos hpow]
  nlinarith [abs_sub_round ((t - j) / 2 ^ n)]

/-- Within half a turn the cosine falls with the distance from the position. -/
theorem cos_position_lt_iff {n : ℕ} {t : ℝ} {r m : ℤ} (hr : |t - r| ≤ 2 ^ n / 2) (hm : |t - m| ≤ 2 ^ n / 2) :
    Real.cos ((t - m) * (2 * π / 2 ^ n)) < Real.cos ((t - r) * (2 * π / 2 ^ n)) ↔ |t - r| < |t - m| := by
  have hstep : (0 : ℝ) < 2 * π / 2 ^ n := by positivity
  have hturn (x : ℝ) : Real.cos (x * (2 * π / 2 ^ n)) = Real.cos (|x| * (2 * π / 2 ^ n)) := by
    rw [← Real.cos_abs, abs_mul, abs_of_pos hstep]
  have hmem {x : ℝ} (hx : |x| ≤ 2 ^ n / 2) : |x| * (2 * π / 2 ^ n) ∈ Set.Icc 0 π := by
    refine ⟨by positivity, (mul_le_mul_of_nonneg_right hx hstep.le).trans_eq ?_⟩
    field_simp
  rw [hturn, hturn (t - r), Real.strictAntiOn_cos.lt_iff_gt (hmem hm) (hmem hr), mul_lt_mul_iff_left₀ hstep]

/-- The reference decision has the largest projection, and is even where another index has the same (R141 (b)). -/
theorem projection_le_sliceRef {n : ℕ} (hn : 1 ≤ n) (rot : Bool) {re im : F32} (h : samplePoint re im ≠ 0) {j : ℕ}
    (hj : j < 2 ^ n) :
    projection n rot re im j ≤ projection n rot re im (sliceRef (2 ^ n) rot re im) ∧
    (projection n rot re im j = projection n rot re im (sliceRef (2 ^ n) rot re im) →
      j ≠ sliceRef (2 ^ n) rot re im → sliceRef (2 ^ n) rot re im % 2 = 0) := by
  obtain ⟨t, r, ht, hr, hk⟩ := exists_sliceRef_rounding hn rot h
  obtain ⟨hnear, htie⟩ := hr
  have hlt := sliceRef_lt (Nat.two_pow_pos n) rot re im
  generalize sliceRef (2 ^ n) rot re im = k at hk hlt ⊢
  obtain ⟨m, hmj, hm⟩ := exists_congr_within_half_turn n t j
  have hr : |t - r| ≤ 2 ^ n / 2 :=
    hnear.trans (div_le_div_of_nonneg_right (one_le_pow₀ one_le_two) two_pos.le)
  have hkr : r % 2 ^ n = (k : ℤ) % 2 ^ n := by rw [hk, Int.emod_emod]
  rw [projection_eq ht, projection_eq ht, cos_position_congr t hmj, cos_position_congr t hkr]
  by_cases hmr : m = r
  · have hjk : j = k := by
      have hmod : (j : ℤ) % 2 ^ n = (k : ℤ) % 2 ^ n := by rw [← hmj, hmr, hkr]
      norm_cast at hmod
      rwa [Nat.mod_eq_of_lt hj, Nat.mod_eq_of_lt hlt] at hmod
    rw [hmr]
    exact ⟨le_rfl, fun _ hne => absurd hjk hne⟩
  · have hfar := half_le_abs_sub hnear hmr
    have hcos := (cos_position_lt_iff hm hr).not.2 (hnear.trans hfar).not_gt
    refine ⟨mul_le_mul_of_nonneg_left (not_lt.1 hcos) (norm_nonneg _), fun heq _ => ?_⟩
    have hsame := mul_left_cancel₀ (norm_ne_zero_iff.2 h) heq
    have hhalf := not_lt.1 ((cos_position_lt_iff hr hm).not.1 hsame.not_lt)
    have heven := Int.even_iff.1 (htie (le_antisymm hnear (hfar.trans hhalf)))
    have hmod : (k : ℤ) % 2 = 0 := by
      rw [hk, Int.emod_emod_of_dvd r (dvd_pow_self 2 (by omega)), heven]
    exact_mod_cast hmod

end Sys2Proof.Machine
end

section
/-! SLICE and DEND in the statements' numbers (43_slicer.md R140, R145 to R147): their responses and failures, and SLICE
commands of finite samples in a row. -/

namespace Sys2Proof.Machine

open Statements

/-! ### The responses -/

/-- RDATA of SLICE holds the new DCNT, the number of bytes, the pattern and the index (R140). -/
theorem sliceData_eq {dcnt nb v k : Nat} (hd : dcnt < 2 ^ 3) (hnb : nb < 2 ^ 2) (hv : v < 2 ^ 16) (hk : k < 2 ^ 16) :
    sliceData dcnt nb v k = BitVec.ofNat 64 (dcnt * 2 ^ 36 + nb * 2 ^ 32 + v * 2 ^ 16 + k) := by
  apply BitVec.eq_of_toNat_eq
  simp only [sliceData, BitVec.toNat_setWidth, toNat_append_eq, BitVec.toNat_ofNat]
  omega

/-- RDATA of DEND holds the residual bits' value, e and their number (R146). -/
theorem dendData_eq (bits : Bits) (padded : Bool) : dendData bits padded =
    BitVec.ofNat 64 (bitsToInt bits % 2 ^ 7 * 2 ^ 16 + padded.toNat * 2 ^ 4 + bits.length % 2 ^ 4) := by
  have hpad := padded.toNat_le
  apply BitVec.eq_of_toNat_eq
  simp only [dendData, BitVec.toNat_setWidth, toNat_append_eq, BitVec.toNat_ofNat, BitVec.toNat_ofBool]
  omega

/-! ### The index and the pattern -/

/-- SLICEDEC answers in 0..N−1 (R8). -/
theorem slicedecOf_lt {p : Params} (hp : p.Legal) {order : Nat} (h : 0 < order) (rot : Bool) (re im : F32) :
    slicedecOf p order rot re im < order := by
  obtain ⟨-, -, hidx, -⟩ := hp
  unfold slicedecOf
  split
  next e he =>
    have horder := List.find?_some he
    rw [decide_eq_true_eq] at horder
    exact horder.1 ▸ hidx e (List.mem_of_find?_eq_some he)
  next => exact sliceRef_lt h rot re im

/-- The packer as the statements write it (R140). -/
theorem State.packBits_eq (s : State) (b : Bits) : s.packBits b =
    { s with
      dacc := (s.dacc ++ b).drop ((s.dacc ++ b).length / 8 * 8)
      bout := s.bout ++ bytesOf (s.dacc ++ b) } := by
  rw [← map_byteOf_splitGroups, State.packBits, splitGroups_eq (by decide) _ _ le_rfl]
  rfl

section
variable {s : State} (hs : s.Inv) (hv : s.cfg.valid = true)
include hs hv

theorem State.Inv.order_pos : 0 < s.cfg.order.toNat := by
  obtain ⟨-, -, -, hN, -, -, -, -⟩ := hs.configured_fields hv
  rw [hN]
  exact Nat.two_pow_pos _

/-- Every index below N has a pattern (R28). -/
theorem State.Inv.exists_ord {k : Nat} (hk : k < s.cfg.order.toNat) : ∃ v, s.ord[k]? = some v := by
  obtain ⟨v, hord, -⟩ := exists_value_at_slot (hs.ord_perm hv) hk
  exact ⟨v, hord⟩

/-- An index that has a pattern, and the pattern, fit the 16 bits RDATA has for each (R28, R140). -/
theorem State.Inv.ord_fits {k v : Nat} (h : s.ord[k]? = some v) : k < 2 ^ 16 ∧ v < 2 ^ 16 := by
  have hperm := hs.ord_perm hv
  have hk := (List.getElem?_eq_some_iff.1 h).1
  rw [length_of_perm_range hperm] at hk
  have hpattern := List.mem_range.1 (hperm.mem_iff.1 (List.mem_of_getElem? h))
  have hN := s.cfg.order.isLt
  omega

/-- SLICE from the index on: the pattern's bits are packed and the answer counts them (R140). -/
theorem State.Inv.sliceIndex_eq {k v : Nat} (h : s.ord[k]? = some v) : s.sliceIndex k = .next (sliced s k v) := by
  obtain ⟨-, -, h14, -, -, -, -, -⟩ := hs.configured_fields hv
  obtain ⟨hk, hpattern⟩ := hs.ord_fits hv h
  have hlen : (s.dacc ++ intToBits v s.cfg.logn.toNat).length < 2 ^ 5 := by
    have := hs.dacc
    rw [List.length_append, length_intToBits]
    omega
  simp only [State.sliceIndex, h, State.packBits_eq, splitGroups_rest_length (n := 8) (by decide),
    splitGroups_groups_length (n := 8) (by decide)]
  rw [sliceData_eq (by omega) (by omega) hpattern hk]
  rfl

end

/-! ### SLICE -/

section
variable {s : State} {re im : F32} (hv : s.cfg.valid = true) (hre : f32Finite re = true) (him : f32Finite im = true)
include hv hre him

/-- SLICE of a finite sample that is not zero takes SLICEDEC's index (R142). -/
theorem exec_slice_nonzero (h : ¬ (f32IsZero re = true ∧ f32IsZero im = true)) :
    exec (.slice re im) s = s.sliceIndex (slicedecOf s.params s.cfg.order.toNat s.cfg.rot re im) := by
  rw [exec_slice_finite hv hre him, State.chooseIndex, if_neg h]

/-- SLICE of a zero sample draws its index (R143). -/
theorem exec_slice_zero (h : f32IsZero re = true ∧ f32IsZero im = true) :
    exec (.slice re im) s = s.drawn.sliceIndex (Config.zeroIdx s.draws % s.cfg.order.toNat) := by
  rw [exec_slice_finite hv hre him, State.chooseIndex, if_pos h]

end

/-- SLICE with no configuration in force fails with NOTCFG, whatever its sample (R140). -/
theorem exec_slice_of_unconfigured {s : State} (hv : s.cfg.valid = false) (re im : F32) :
    exec (.slice re im) s = .next (failed s 3 (Instr.slice re im).word) := by
  simp only [exec, execSlice, if_pos hv]
  exact congrArg Host.Outcome.next (raise_eq_failed s .notcfg _)

/-- SLICE of a sample with a NaN or an infinity fails with BADSAMPLE (R144). -/
theorem exec_slice_of_not_finite {s : State} {re im : F32} (hv : s.cfg.valid = true)
    (h : ¬ (f32Finite re = true ∧ f32Finite im = true)) :
    exec (.slice re im) s = .next (failed s 5 (Instr.slice re im).word) := by
  have hbad : f32IsNaN re = true ∨ f32IsInf re = true ∨ f32IsNaN im = true ∨ f32IsInf im = true := by
    simp only [f32Finite, Bool.and_eq_true, Bool.not_eq_true', ← Bool.not_eq_true] at h
    tauto
  simp only [exec, execSlice, hv, Bool.true_eq_false, if_false, if_pos hbad]
  exact congrArg Host.Outcome.next (raise_eq_failed s .badsample _)

/-- All that SLICE can answer: it fails, or packs the bits of a pattern, after a draw for a zero sample (R140). -/
theorem exec_slice_next {s t : State} {re im : F32} (h : exec (.slice re im) s = .next t) :
    (∃ e, t = s.raise e (Instr.slice re im).word) ∨
    ∃ s' v d, (s' = s ∨ s' = s.drawn) ∧ t = (s'.packBits (intToBits v s.cfg.logn.toNat)).ok d := by
  simp only [exec, execSlice] at h
  split at h
  · exact .inl ⟨_, fail_eq_next_iff.1 h⟩
  · split at h
    · exact .inl ⟨_, fail_eq_next_iff.1 h⟩
    · obtain ⟨v, -, rfl⟩ := sliceIndex_next h
      rcases chooseIndex_state s re im with hstate | hstate <;> rw [hstate]
      · exact .inr ⟨s, v, _, .inl rfl, rfl⟩
      · exact .inr ⟨s.drawn, v, _, .inr rfl, rfl⟩

/-- Opcode 4 is SLICE in format Z, its sample the two halves of D (R77, R80). -/
theorem decode_of_opcode_four {c : Word} (hop : slice c 31 28 = 4) (d : DWord) :
    decode ⟨c, d⟩ = formatZ c (.slice (BitVec.ofNat 32 d.toNat) (BitVec.ofNat 32 (d.toNat / 2 ^ 32))) := by
  have hre : fieldRe d = BitVec.ofNat 32 d.toNat := BitVec.eq_of_toNat_eq (by simp [toNat_fieldRe])
  have him : fieldIm d = BitVec.ofNat 32 (d.toNat / 2 ^ 32) :=
    BitVec.eq_of_toNat_eq (by rw [toNat_fieldIm, BitVec.toNat_ofNat])
  rw [slice_eq_fieldOp] at hop
  simp only [decode, hop, hre, him]

/-! ### DEND -/

@[simp] theorem State.emitBout_nil (s : State) : s.emitBout [] = s := by
  rw [State.emitBout, List.append_nil]

/-- Opcode 5 is DEND in format Z (R77). -/
theorem decode_of_opcode_five {c : Word} (hop : slice c 31 28 = 5) (d : DWord) :
    decode ⟨c, d⟩ = formatZ c .dend := by
  rw [slice_eq_fieldOp] at hop
  simp only [decode, hop]

/-! ### SLICE commands in a row -/

/-- The sample `d` can be sliced to the index and the pattern `kv`: ORD holds the pattern, and the index is SLICEDEC's where
the sample is not zero (R140, R143). -/
def State.SlicesTo (s : State) (d : F32 × F32) (kv : Nat × Nat) : Prop :=
  s.ord[kv.1]? = some kv.2 ∧
    (¬ (f32IsZero d.1 = true ∧ f32IsZero d.2 = true) → kv.1 = slicedecOf s.params s.cfg.order.toNat s.cfg.rot d.1 d.2)

/-- SLICE of a finite sample packs a pattern the sample can be sliced to, and changes nothing else but the responses and
the draws (R140). -/
theorem State.Inv.exec_slice {s : State} (hs : s.Inv) (hv : s.cfg.valid = true) {d : F32 × F32}
    (hd : f32Finite d.1 = true ∧ f32Finite d.2 = true) :
    ∃ kv rdata draws, s.SlicesTo d kv ∧
      exec (.slice d.1 d.2) s =
        .next { (s.packBits (intToBits kv.2 s.cfg.logn.toNat)).ok rdata with draws := draws } := by
  obtain ⟨hre, him⟩ := hd
  by_cases hzero : f32IsZero d.1 = true ∧ f32IsZero d.2 = true
  · obtain ⟨v, hord⟩ := hs.exists_ord hv (Nat.mod_lt (Config.zeroIdx s.draws) (hs.order_pos hv))
    obtain ⟨rdata, hslice⟩ := sliceIndex_of_ord (s := s.drawn) hord
    exact ⟨(_, v), rdata, _, ⟨hord, fun h => absurd hzero h⟩, (exec_slice_zero hv hre him hzero).trans hslice⟩
  · obtain ⟨v, hord⟩ := hs.exists_ord hv (slicedecOf_lt hs.params (hs.order_pos hv) s.cfg.rot d.1 d.2)
    obtain ⟨rdata, hslice⟩ := sliceIndex_of_ord hord
    exact ⟨(_, v), rdata, _, ⟨hord, fun _ => rfl⟩, (exec_slice_nonzero hv hre him hzero).trans hslice⟩

/-- SLICE commands of finite samples pack their patterns in a row (R145). -/
theorem State.Inv.steps_slices {s : State} (hs : s.Inv) (hv : s.cfg.valid = true) {ds : List (F32 × F32)}
    (hfinite : ∀ d ∈ ds, f32Finite d.1 = true ∧ f32Finite d.2 = true) {rest : List HostInput}
    (hin : s.inputs = ds.map (fun d => HostInput.beat (encode (.slice d.1 d.2))) ++ rest) :
    ∃ (kvs : List (Nat × Nat)) (rs : List Response) (draws : Nat), List.Forall₂ s.SlicesTo ds kvs ∧
      steps ds.length s = .next
        { s.packBits ((kvs.map Prod.snd).flatMap (fun v => intToBits v s.cfg.logn.toNat)) with
          responses := s.responses ++ rs, draws := draws, inputs := rest } := by
  induction ds generalizing s with
  | nil =>
    obtain rfl : s.inputs = rest := hin
    exact ⟨[], [], s.draws, .nil, by simp [steps, State.packBits_nil hs.dacc]⟩
  | cons d ds ih =>
    obtain ⟨hd, hds⟩ := List.forall_mem_cons.1 hfinite
    obtain ⟨kv, rdata, draws, hkv, hslice⟩ :=
      (hs.with_inputs (ds.map (fun d => HostInput.beat (encode (.slice d.1 d.2))) ++ rest)).exec_slice hv hd
    have hstep := (step_of_encode rfl hin).trans hslice
    obtain ⟨kvs, rs, draws', hkvs, hsteps⟩ := ih (step_keeps_inv hs hstep) hv hds rfl
    refine ⟨kv :: kvs, ⟨okCode, rdata⟩ :: rs, draws', .cons hkv hkvs, ?_⟩
    rw [List.length_cons, steps_succ_of_step hstep, hsteps, List.map_cons, List.flatMap_cons, ← State.packBits_packBits]
    simp only [State.ok_responses, List.append_assoc]
    rfl

/-! ### The symbols of a stream -/

/-- The symbols of a bit vector are determined: those of its complete groups (R130, R132). -/
theorem State.Inv.eq_of_symbolsOf {s : State} (hs : s.Inv) (hv : s.cfg.valid = true) {b : Bits} {xs : List Sample}
    (h : SymbolsOf s b xs) : xs = (splitGroups s.cfg.logn.toNat b.length b).1.map s.symbolAt := by
  obtain ⟨hlen, hxs⟩ := h
  obtain ⟨hlen', hxs'⟩ := hs.symbolsOf_groups hv b
  refine List.ext_getElem? fun j => ?_
  by_cases hj : j < b.length / s.cfg.logn.toNat
  · obtain ⟨k, u, hk, -, -, hu, -, hx⟩ := hxs j hj
    obtain ⟨k', u', hk', -, -, hu', -, hx'⟩ := hxs' j hj
    obtain rfl : k = k' := Option.some.inj (hk.symm.trans hk')
    obtain rfl : u = u' := Option.some.inj (hu.symm.trans hu')
    rw [hx, hx']
  · rw [List.getElem?_eq_none (by omega), List.getElem?_eq_none (by omega)]

/-- The pattern of the slicer's decision on the symbol of a group is the group (R147). -/
theorem State.Noiseless.decided_pattern {s : State} (hs : s.Noiseless) {g : Bits} (hg : g.length = s.cfg.logn.toNat) :
    intToBits (s.ord.getD (slicedecOf s.params s.cfg.order.toNat s.cfg.rot (s.symbolAt g).re (s.symbolAt g).im) 0)
      s.cfg.logn.toNat = g := by
  obtain ⟨h1, -, h14, hN, -, -, -, -⟩ := hs.inv.configured_fields hs.valid
  obtain ⟨-, hord, -, hph, hk⟩ := hs.inv.tables_at hs.valid (hs.inv.bitsToInt_lt_order hs.valid hg)
  obtain ⟨hsym, hdec⟩ := hs.conforms _ (List.mem_of_getElem? hph)
  have hx : symvalOf s.params (2 ^ s.cfg.logn.toNat) (2 * s.indexOf (bitsToInt g) + s.cfg.rot.toNat) =
      ((s.symbolAt g).re, (s.symbolAt g).im) := by
    rw [← hN]
    rfl
  obtain ⟨-, hindex⟩ := slicedecOf_symvalOf h1 h14 (hN ▸ hk) hs.symTol hs.sliceTol hx hsym hdec
  rw [hN, hindex, List.getD_eq_getElem?_getD, hord, Option.getD_some, ← hg, intToBits_bitsToInt]

end Sys2Proof.Machine
end

section
/-! The settled statements of 43_slicer.md. -/

namespace Sys2Proof.Proofs

open Sys2Proof.Machine Sys2Proof.Statements

/-- Settles O26: the classes compare the exponent and fraction fields, and the value is the magnitude with its sign. -/
theorem binary32Classes : Obligations.Binary32Classes :=
  fun p => ⟨f32IsInf_iff p, f32IsNaN_iff p, by rw [f32IsZero, decide_eq_true_eq]; exact extractLsb'_eq_zero_iff p 0 31,
    fun h _ => f32Rat_normal h, f32Rat_subnormal, fun _ => (f32IsZero_iff p).symm⟩

/-- Settles O27: the signs of the squarings give the integer part of the angle's position, which rounds as t does. -/
theorem sliceRefIsRoundedPhase : Obligations.SliceRefIsRoundedPhase :=
  fun _ _ _ _ _ _ hn _ _ h ht hr => sliceRef_eq hn (samplePoint_ne_zero_iff.2 h) ht hr

/-- Settles O28: the projection falls with the distance from the position, and the decision is the nearest integer. -/
theorem sliceRefMaximisesProjection : Obligations.SliceRefMaximisesProjection := by
  intro n re im j hn _ _ h hj rot along
  exact ⟨sliceRef_lt (Nat.two_pow_pos n) rot re im, projection_le_sliceRef hn rot (samplePoint_ne_zero_iff.2 h) hj⟩

/-- Settles O29: a positive multiple of a sample has its angle, and so its position. -/
theorem sliceRefIgnoresMagnitude : Obligations.SliceRefIgnoresMagnitude :=
  fun _ rot _ _ _ _ _ hn hc _ _ _ _ h hre him => sliceRef_scaled hre him hc hn rot (samplePoint_ne_zero_iff.2 h)

/-- Settles O30: the default SLICEDEC is the reference decision, which is always one of the two neighbours. -/
theorem referenceSlicedecConforms : Obligations.ReferenceSlicedecConforms := by
  intro p n rot re im hp hn _ _ h t m ht hm
  have href := slicedecOf_reference hp (2 ^ n) rot re im
  exact ⟨fun _ => href, fun _ => href ▸ sliceRef_eq_neighbour hn (samplePoint_ne_zero_iff.2 h) ht hm⟩

/-- Settles O31: a finite sample has an index below N, whose pattern is packed, and a word of opcode 4 is illegal, or the
SLICE of D's two halves. -/
theorem sliceRule : Obligations.SliceRule := by
  refine ⟨fun s re im hs hv hre him => ⟨fun hne => ?_, fun hre0 him0 => ?_⟩, fun c d s hop => ?_⟩
  · obtain ⟨v, hord⟩ := hs.exists_ord hv (slicedecOf_lt hs.params (hs.order_pos hv) s.cfg.rot re im)
    exact ⟨v, hord, (exec_slice_nonzero hv hre him hne).trans (hs.sliceIndex_eq hv hord)⟩
  · have hk := Nat.mod_lt (Config.zeroIdx s.draws) (hs.order_pos hv)
    obtain ⟨v, hord⟩ := hs.exists_ord hv hk
    exact ⟨_, v, hk, hord, (exec_slice_zero hv hre him ⟨hre0, him0⟩).trans (hs.drawn.sliceIndex_eq hv hord)⟩
  · have hdec := decode_of_opcode_four hop d
    refine ⟨fun hres => runBeat_formatZ_illegal hdec hres s, fun hres => ?_⟩
    have hrun := runBeat_formatZ_legal hdec hres s
    have hword : (Instr.slice (BitVec.ofNat 32 d.toNat) (BitVec.ofNat 32 (d.toNat / 2 ^ 32))).word = c :=
      word_of_decode (hdec.trans (formatZ_ok_iff.2 ⟨by simpa [slice] using hres, rfl⟩))
    exact ⟨fun hv => by rw [hrun, exec_slice_of_unconfigured hv, hword],
      fun hv hbad => by rw [hrun, exec_slice_of_not_finite hv hbad, hword], hrun⟩

/-- Settles O32: DEND has one outcome, its byte the padded tail of DACC, and a word of opcode 5 is illegal, or DEND. -/
theorem dendRule : Obligations.DendRule := by
  refine ⟨fun s h => ?_, fun s hz hne => ?_, fun c d s hop => ?_⟩
  · have hnone : ¬ (s.params.decTail = .zpad ∧ s.dacc.length ≠ 0) := by
      rintro ⟨hz, hlen⟩
      rcases h with h | h
      · rw [h] at hz; cases hz
      · exact hlen (by rw [h]; rfl)
    simp only [exec_dend, dendData_eq, paddedTail, Nat.pos_iff_ne_zero, if_neg hnone, decide_eq_false hnone,
      State.emitBout_nil, Bool.toNat_false, Nat.zero_mul, Nat.add_zero]
    rfl
  · have hpad : s.params.decTail = .zpad ∧ s.dacc.length ≠ 0 := ⟨hz, fun h => hne (List.length_eq_zero_iff.1 h)⟩
    simp only [exec_dend, dendData_eq, paddedTail, Nat.pos_iff_ne_zero, if_pos hpad, decide_eq_true hpad]
    rfl
  · have hdec := decode_of_opcode_five hop d
    exact ⟨fun hres => runBeat_formatZ_illegal hdec hres s, fun hres => runBeat_formatZ_legal hdec hres s⟩

/-- Settles O33: the SLICE commands pack their patterns in a row, and DEND pads what is left of them. -/
theorem slicesEndedByDendAreSlicer : Obligations.SlicesEndedByDendAreSlicer := by
  intro s ds rest hs hv hd hfinite hin
  obtain ⟨kvs, rs, draws, hkvs, hsteps⟩ := hs.steps_slices hv hfinite hin
  have hlen := hkvs.length_eq
  refine ⟨kvs.map Prod.fst, kvs.map Prod.snd, _, by simp [hlen], by simp [hlen], fun j d hj => ?_,
    steps_then_encode hsteps rfl rfl (exec_dend _), ?_, rfl, rfl, rfl, rfl, rfl, rfl⟩
  · obtain ⟨hlt, rfl⟩ := List.getElem?_eq_some_iff.1 hj
    have hlt' := hlen ▸ hlt
    obtain ⟨hord, hindex⟩ := hkvs.get hlt hlt'
    exact ⟨_, _, by simp [hlt'], by simp [hlt'], hord, hindex⟩
  · simp only [State.packBits_eq, hd, List.nil_append, ← paddedTail_rest]
    rfl

/-- Settles O34: the sample of index k is near its constellation point, so both decisions give k back. -/
theorem noiselessSymbolSlicesBack : Obligations.NoiselessSymbolSlicesBack := by
  intro s k u hs hv hk hu hsym hslice hs' hd
  obtain ⟨-, -, -, -, -, -, -, hph⟩ := hs.configured_fields hv
  rw [hph, phaseTable_at hk] at hu
  obtain rfl := Option.some.inj hu
  obtain ⟨hre, him, hchoose⟩ := hs.chooseIndex_sampleOf hv hk hsym hslice hs' hd
  obtain ⟨v, hord⟩ := hs.exists_ord hv hk
  refine ⟨v, hord, (exec_slice_finite hv hre him).trans ?_⟩
  rw [hchoose]
  exact hs.sliceIndex_eq hv hord

/-- Settles O35: the symbols are those of the complete groups, each decision gives its group back, and the groups in a row
are the first bits. -/
theorem noiselessRoundTripReturnsBits : Obligations.NoiselessRoundTripReturnsBits := by
  intro s b xs hs hv hxs hsym hslice hconf
  obtain ⟨hn, -, -, -, -, -, -, -⟩ := hs.configured_fields hv
  have hnoiseless : s.Noiseless := ⟨hs, hv, hsym, hslice, hconf⟩
  rw [hs.eq_of_symbolsOf hv hxs, List.flatMap_map, List.flatMap_def,
    List.map_congr_left fun g hg => hnoiseless.decided_pattern (length_of_mem_splitGroups hn hg), List.map_id',
    flatten_splitGroups hn]

/-- Settles O54: a SLICE fails, or packs at most 15 bits onto DACC; DEND has one outcome. -/
theorem slicerFrame : Obligations.SlicerFrame := by
  rintro i s t (⟨re, im, rfl⟩ | rfl) h
  · rcases exec_slice_next h with ⟨e, rfl⟩ | ⟨s', v, d, hs', rfl⟩
    · exact ⟨[], by rw [List.append_nil]; rfl, Nat.zero_le _, nofun⟩
    · refine ⟨bytesOf (s.dacc ++ intToBits v s.cfg.logn.toNat), ?_, ?_, nofun⟩
      · rw [State.packBits_eq]
        rcases hs' with rfl | rfl <;> rfl
      · have hlogn := s.cfg.logn.isLt
        rw [bytesOf, List.length_map, List.length_range, List.length_append, length_intToBits]
        omega
  · rw [exec_dend] at h
    cases h
    have hlen : (paddedTail s.params s.dacc).length ≤ 1 := by
      unfold paddedTail
      split
      · exact le_rfl
      · exact Nat.zero_le 1
    exact ⟨paddedTail s.params s.dacc, rfl, hlen.trans (by omega), fun _ => ⟨hlen, rfl, rfl⟩⟩

end Sys2Proof.Proofs
end

section
/-! RDTAB and RDREG in the statements' numbers (44_control.md R160, R161): their answers and failures, and the words of
the four control opcodes. -/

namespace Sys2Proof

theorem slice_eq_fieldT (c : Word) : Statements.slice c 17 16 = (fieldT c).toNat := (toNat_fieldT c).symm

theorem slice_eq_fieldRN (c : Word) : Statements.slice c 3 0 = (fieldRN c).toNat := (toNat_fieldRN c).symm

/-- A selector value names one table (R75). -/
theorem fieldOfTable_eq_iff {tab : TableSel} {t : BitVec 2} : fieldOfTable tab = t ↔ tab = tableOfField t := by
  constructor
  · rintro rfl
    exact (tableOfField_fieldOfTable tab).symm
  · rintro rfl
    exact fieldOfTable_tableOfField t

end Sys2Proof

namespace Sys2Proof.Machine

open Statements

/-! ### The words of the control opcodes -/

/-- A beat that decodes to no command fails with ILLEGAL (R78). -/
theorem runBeat_of_decode_ne_ok {c : Word} {d : DWord} (h : ∀ i, decode ⟨c, d⟩ ≠ .ok i) (s : State) :
    runBeat ⟨c, d⟩ s = .next (failed s 6 c) := by
  cases hdec : decode ⟨c, d⟩ with
  | ok i => exact absurd hdec (h i)
  | error e => rw [runBeat_of_decode_error hdec, raise_illegal_eq_failed]

/-- Opcode 0 is NOP in format Z (R77). -/
theorem decode_of_opcode_zero {c : Word} (hop : slice c 31 28 = 0) (d : DWord) :
    decode ⟨c, d⟩ = formatZ c .nop := by
  rw [slice_eq_fieldOp] at hop
  simp only [decode, hop]

/-- Opcode 6 is RDTAB in format T (R77). -/
theorem decode_of_opcode_six {c : Word} (hop : slice c 31 28 = 6) (d : DWord) :
    decode ⟨c, d⟩ = formatT c (.rdtab (tableOfField (fieldT c)) (fieldV c)) := by
  rw [slice_eq_fieldOp] at hop
  simp only [decode, hop]

/-- Opcode 7 is RDREG in format R (R77). -/
theorem decode_of_opcode_seven {c : Word} (hop : slice c 31 28 = 7) (d : DWord) :
    decode ⟨c, d⟩ = formatR c (.rdreg (fieldRN c)) := by
  rw [slice_eq_fieldOp] at hop
  simp only [decode, hop]

/-- Opcode 8 is CLRERR in format Z (R77). -/
theorem decode_of_opcode_eight {c : Word} (hop : slice c 31 28 = 8) (d : DWord) :
    decode ⟨c, d⟩ = formatZ c .clrerr := by
  rw [slice_eq_fieldOp] at hop
  simp only [decode, hop]

/-- A reserved bit makes a word of opcode 6 illegal (R75, R78). -/
theorem runBeat_rdtab_illegal {c : Word} (hop : slice c 31 28 = 6) (hres : slice c 27 18 ≠ 0) (d : DWord) (s : State) :
    runBeat ⟨c, d⟩ s = .next (failed s 6 c) :=
  runBeat_of_decode_ne_ok (fun _ hdec => hres (formatT_ok_iff.1 ((decode_of_opcode_six hop d).symm.trans hdec)).1) s

/-- Every other word of opcode 6 is the RDTAB of its fields T and I (R75, R77). -/
theorem decode_rdtab_legal {c : Word} (hop : slice c 31 28 = 6) (hres : slice c 27 18 = 0) (d : DWord) :
    decode ⟨c, d⟩ = .ok (.rdtab (tableOfField (fieldT c)) (fieldV c)) :=
  (decode_of_opcode_six hop d).trans (formatT_ok_iff.2 ⟨hres, rfl⟩)

/-- A reserved bit makes a word of opcode 7 illegal (R76, R78). -/
theorem runBeat_rdreg_illegal {c : Word} (hop : slice c 31 28 = 7) (hres : slice c 27 4 ≠ 0) (d : DWord) (s : State) :
    runBeat ⟨c, d⟩ s = .next (failed s 6 c) :=
  runBeat_of_decode_ne_ok (fun _ hdec => hres (formatR_ok_iff.1 ((decode_of_opcode_seven hop d).symm.trans hdec)).1) s

/-- Every other word of opcode 7 is the RDREG of its field RN (R76, R77). -/
theorem decode_rdreg_legal {c : Word} (hop : slice c 31 28 = 7) (hres : slice c 27 4 = 0) (d : DWord) :
    decode ⟨c, d⟩ = .ok (.rdreg (fieldRN c)) :=
  (decode_of_opcode_seven hop d).trans (formatR_ok_iff.2 ⟨hres, rfl⟩)

/-! ### RDTAB -/

/-- RDTAB with no configuration in force fails with NOTCFG, whatever its index (R160, R191). -/
theorem exec_rdtab_of_unconfigured {s : State} (hv : s.cfg.valid = false) (tab : TableSel) (idx : BitVec 16) :
    exec (.rdtab tab idx) s = .next (failed s 3 (Instr.rdtab tab idx).word) := by
  simp only [exec, execRdtab, if_pos hv]
  exact congrArg Host.Outcome.next (raise_eq_failed s .notcfg _)

/-- RDTAB of an index that is not below N fails with RANGE (R160). -/
theorem exec_rdtab_of_range {s : State} {idx : BitVec 16} (hv : s.cfg.valid = true)
    (hidx : s.cfg.order.toNat ≤ idx.toNat) (tab : TableSel) :
    exec (.rdtab tab idx) s = .next (failed s 4 (Instr.rdtab tab idx).word) := by
  simp only [exec, execRdtab, hv, Bool.true_eq_false, if_false, if_pos hidx]
  exact congrArg Host.Outcome.next (raise_eq_failed s .range _)

section
variable {s : State} {idx : BitVec 16} {e : Nat} (hv : s.cfg.valid = true) (hidx : idx.toNat < s.cfg.order.toNat)
include hv hidx

/-- RDTAB of a slot that holds a value answers it (R160). -/
theorem exec_rdtab_of_entry {tab : TableSel} (h : s.tableEntry? tab idx.toNat = some (BitVec.ofNat 64 e)) :
    exec (.rdtab tab idx) s = .next (answered s e) := by
  simp only [exec, execRdtab, hv, Bool.true_eq_false, if_false, if_neg (not_le.2 hidx), h, ok_ofNat_eq_answered]

theorem exec_rdtab_ord (h : s.ord[idx.toNat]? = some e) : exec (.rdtab .ord idx) s = .next (answered s e) :=
  exec_rdtab_of_entry hv hidx (by rw [State.tableEntry?, h, Option.map_some])

theorem exec_rdtab_inv (h : s.inv[idx.toNat]? = some e) : exec (.rdtab .inv idx) s = .next (answered s e) :=
  exec_rdtab_of_entry hv hidx (by rw [State.tableEntry?, h, Option.map_some])

theorem exec_rdtab_ph (h : s.ph[idx.toNat]? = some e) : exec (.rdtab .ph idx) s = .next (answered s e) :=
  exec_rdtab_of_entry hv hidx (by rw [State.tableEntry?, h, Option.map_some])

/-- SYM is derived from PH: SYMVAL of the phase, the imaginary part in the upper half (R31, R160). -/
theorem exec_rdtab_sym (h : s.ph[idx.toNat]? = some e) : exec (.rdtab .sym idx) s = .next (answered s
    ((symvalOf s.params s.cfg.order.toNat e).2.toNat * 2 ^ 32 + (symvalOf s.params s.cfg.order.toNat e).1.toNat)) := by
  refine exec_rdtab_of_entry hv hidx ?_
  rw [State.tableEntry?, h, Option.map_some, ← toNat_append_eq, BitVec.ofNat_toNat, BitVec.setWidth_eq]

end

/-! ### RDREG -/

/-- RDREG of a register answers its word, zero-extended (R161). -/
theorem exec_rdreg_of_register {s : State} {rn : BitVec 4} {r : Word} (h : s.register? rn = some r) :
    exec (.rdreg rn) s = .next (answered s r.toNat) := by
  simp only [exec, execRdreg, h]
  rw [← ok_ofNat_eq_answered, BitVec.ofNat_toNat]

/-- RDREG of 5 to 15 fails with RANGE (R161). -/
theorem exec_rdreg_of_range {rn : BitVec 4} (h : 5 ≤ rn.toNat) (s : State) :
    exec (.rdreg rn) s = .next (failed s 4 (Instr.rdreg rn).word) := by
  simp only [exec, execRdreg, register?_eq_none_iff.2 h]
  exact congrArg Host.Outcome.next (raise_eq_failed s .range _)

/-- The fields of CFG (R22). -/
theorem CfgReg.word_toNat (r : CfgReg) : r.word.toNat =
    r.order.toNat * 2 ^ 16 + r.logn.toNat * 2 ^ 4 + r.rot.toNat * 4 + r.gray.toNat * 2 + r.valid.toNat := by
  simp only [CfgReg.word, toNat_append_eq, BitVec.toNat_ofNat, BitVec.toNat_ofBool]
  omega

/-- The fields of STATUS (R23). -/
theorem StatusReg.word_toNat (r : StatusReg) (mcnt dcnt : Nat) : (r.word mcnt dcnt).toNat =
    dcnt % 8 * 2 ^ 12 + mcnt % 16 * 2 ^ 8 + r.lastErr.toNat * 2 ^ 4 + r.err.toNat := by
  simp only [StatusReg.word, toNat_append_eq, BitVec.toNat_ofNat, BitVec.toNat_ofBool]
  omega

/-- The fields of PARAM (R26). -/
theorem paramWord_toNat (p : Params) :
    (paramWord p).toNat = (if p.decTail = .zpad then 2 ^ 4 else 0) + p.lognMax % 16 := by
  have hzpad : (decide (p.decTail = .zpad)).toNat = if p.decTail = .zpad then 1 else 0 := Bool.cond_decide _ _ _
  simp only [paramWord, toNat_append_eq, BitVec.toNat_ofNat, BitVec.toNat_ofBool, hzpad]
  split <;> omega

end Sys2Proof.Machine
end

section
/-! The settled statements of 44_control.md. -/

namespace Sys2Proof.Proofs

open Sys2Proof.Machine Sys2Proof.Statements

/-- Settles O37: every slot below N of the three tables holds a value, and a word of opcode 6 is illegal, or the RDTAB
of its fields T and I. -/
theorem rdtabRule : Obligations.RdtabRule := by
  refine ⟨fun s idx hs hv hidx => ?_, fun c d s hop => ⟨fun hres => runBeat_rdtab_illegal hop hres d s, fun hres => ?_⟩⟩
  · obtain ⟨-, -, -, -, -, -, -, -, hslots⟩ := configuredTablesAreAsSpecified s hs hv
    obtain ⟨⟨o, ho, -⟩, ⟨v, hi, -⟩, hp⟩ := hslots _ hidx
    exact ⟨o, v, _, ho, hi, hp, exec_rdtab_ord hv hidx ho, exec_rdtab_inv hv hidx hi, exec_rdtab_ph hv hidx hp,
      exec_rdtab_sym hv hidx hp⟩
  · have hdec := decode_rdtab_legal hop hres d
    have hrun := runBeat_of_decode_ok hdec s
    have hword : (Instr.rdtab (tableOfField (fieldT c)) (fieldV c)).word = c := word_of_decode hdec
    simp only [slice_eq_fieldV, slice_eq_fieldT, BitVec.ofNat_toNat, BitVec.setWidth_eq, BitVec.toNat_inj,
      fieldOfTable_eq_iff]
    refine ⟨fun hv => ?_, fun hv hidx => ?_, ?_⟩
    · rw [hrun, exec_rdtab_of_unconfigured hv, hword]
    · rw [hrun, exec_rdtab_of_range hv hidx, hword]
    · rintro _ rfl
      exact hrun

/-- Settles O38: each register's word as a number, and a word of opcode 7 is illegal, or the RDREG of its field RN. -/
theorem rdregRule : Obligations.RdregRule := by
  refine ⟨fun s => ?_, fun c d s hop => ⟨fun hres => runBeat_rdreg_illegal hop hres d s, fun hres => ?_⟩⟩
  · rw [← CfgReg.word_toNat, ← StatusReg.word_toNat, ← paramWord_toNat,
      ← BitVec.toNat_ofNat (bitsToInt s.macc) 32, ← BitVec.toNat_ofNat (bitsToInt s.dacc) 32]
    exact ⟨exec_rdreg_of_register rfl, exec_rdreg_of_register rfl, exec_rdreg_of_register rfl,
      exec_rdreg_of_register rfl, exec_rdreg_of_register rfl⟩
  · have hdec := decode_rdreg_legal hop hres d
    have hrun := runBeat_of_decode_ok hdec s
    have hword : (Instr.rdreg (fieldRN c)).word = c := word_of_decode hdec
    simp only [slice_eq_fieldRN, BitVec.ofNat_toNat, BitVec.setWidth_eq]
    exact ⟨fun hrn => by rw [hrun, exec_rdreg_of_range hrn, hword], hrun⟩

/-- Settles O39: CLRERR has one outcome, and a word of opcode 8 is illegal, or CLRERR. -/
theorem clrerrRule : Obligations.ClrerrRule := by
  refine ⟨fun s => rfl, fun c d s hop => ?_⟩
  have hdec := decode_of_opcode_eight hop d
  exact ⟨fun hres => runBeat_formatZ_illegal hdec hres s, fun hres => runBeat_formatZ_legal hdec hres s⟩

/-- Settles O40: NOP has one outcome, and a word of opcode 0 is illegal, or NOP. -/
theorem nopRule : Obligations.NopRule := by
  refine ⟨fun s => rfl, fun c d s hop => ?_⟩
  have hdec := decode_of_opcode_zero hop d
  exact ⟨fun hres => runBeat_formatZ_illegal hdec hres s, fun hres => runBeat_formatZ_legal hdec hres s⟩

end Sys2Proof.Proofs
end

section
/-! The error a command reports (60_exceptions.md R170 to R172), that every beat and every other input of the host is
answered (R174), and which inputs can clear ERR (R175). -/

namespace Sys2Proof.Machine

open Statements

/-! ### The answer of a command -/

/-- The outcome is a next state, with one response of this code after those of `s` (R34, R170). -/
def Answers (s : State) (code : Nat) (o : Host.Outcome State Fault Refusal) : Prop :=
  ∃ t d, o = .next t ∧ t.responses = s.responses ++ [⟨BitVec.ofNat 4 code, d⟩]

theorem answers_failed (s : State) (code : Nat) (c : Word) : Answers s code (.next (failed s code c)) := ⟨_, _, rfl, rfl⟩

theorem answers_ok {s t : State} (d : DWord) (h : t.responses = s.responses ++ [⟨okCode, d⟩]) : Answers s 0 (.next t) :=
  ⟨t, d, rfl, h⟩

/-- The code of the first check of a well-formed command that fails (R172), 0 where none does. -/
def State.verdictOf (s : State) : Instr → Nat
  | .push v w =>
    if s.cfg.valid = false then 3
    else if w ≠ 0#5 ∧ 2 ^ w.toNat ≤ v.toNat then 2
    else 0
  | .i2b v w => if w ≠ 0#5 ∧ 2 ^ w.toNat ≤ v.toNat then 2 else 0
  | .slice re im =>
    if s.cfg.valid = false then 3
    else if ¬ (f32Finite re = true ∧ f32Finite im = true) then 5
    else 0
  | .rdtab _ idx =>
    if s.cfg.valid = false then 3
    else if s.cfg.order.toNat ≤ idx.toNat then 4
    else 0
  | .rdreg rn => if 5 ≤ rn.toNat then 4 else 0
  | .cfg nreq _ => if ¬ ValidOrder s.params.lognMax nreq.toInt then 1 else 0
  | .nop | .mend | .dend | .clrerr => 0

theorem fitsWidth_of_not_overflow {v : BitVec 16} {w : BitVec 5} (hw : w.toNat ≤ 16)
    (h : ¬ (w ≠ 0#5 ∧ 2 ^ w.toNat ≤ v.toNat)) : FitsWidth v w :=
  ⟨hw, fun h0 => not_le.1 fun hge => h ⟨h0, hge⟩⟩

/-- R111's order is one that CFG finds the log of. -/
theorem validOrder_iff {m : Nat} {q : BitVec 16} : ValidOrder m q.toInt ↔ ∃ n, orderLog? m q = some n := by
  simp only [ValidOrder, List.mem_range, Nat.lt_succ_iff, orderLog?_eq_some_iff]
  exact exists_congr fun n => ⟨fun ⟨hm, h1, hq⟩ => ⟨h1, hm, hq⟩, fun ⟨h1, hm, hq⟩ => ⟨hm, h1, hq⟩⟩

/-- In a state that meets the invariant every command that can be encoded answers the code of its first failing check. -/
theorem State.Inv.exec_answers {s : State} (hs : s.Inv) {i : Instr} (hwf : i.wellFormed = true) :
    Answers s (s.verdictOf i) (exec i s) := by
  cases i with simp only [State.verdictOf]
  | nop | mend | dend | clrerr => exact answers_ok _ rfl
  | cfg nreq gray =>
    split_ifs with horder
    · obtain ⟨n, hn⟩ := validOrder_iff.1 horder
      rw [exec_cfg_of_order hn]
      exact answers_ok _ rfl
    · rw [validOrder_iff, ← Option.ne_none_iff_exists', not_not] at horder
      rw [exec_cfg_of_no_order horder]
      exact answers_failed (deconfigured s) 1 _
  | push v w =>
    have hw : w.toNat ≤ 16 := of_decide_eq_true hwf
    split_ifs with hv hover
    · rw [exec_push_of_unconfigured hv hw]
      exact answers_failed s 3 _
    · rw [exec_push_of_overflow (Bool.of_not_eq_false hv) hw hover.1 hover.2]
      exact answers_failed s 2 _
    · obtain ⟨d, hd⟩ := hs.exec_push (Bool.of_not_eq_false hv) (fitsWidth_of_not_overflow hw hover)
      rw [hd]
      exact answers_ok d rfl
  | slice re im =>
    split_ifs with hv hfinite
    · rw [exec_slice_of_unconfigured hv]
      exact answers_failed s 3 _
    · obtain ⟨_, d, _, -, hd⟩ := hs.exec_slice (Bool.of_not_eq_false hv) (d := (re, im)) hfinite
      rw [hd]
      exact answers_ok d rfl
    · rw [exec_slice_of_not_finite (Bool.of_not_eq_false hv) hfinite]
      exact answers_failed s 5 _
  | rdtab tab idx =>
    split_ifs with hv hrange
    · rw [exec_rdtab_of_unconfigured hv]
      exact answers_failed s 3 _
    · rw [exec_rdtab_of_range (Bool.of_not_eq_false hv) hrange]
      exact answers_failed s 4 _
    · obtain ⟨_, _, _, -, -, -, hord, hinv, hph, hsym⟩ :=
        Proofs.rdtabRule.1 s idx hs (Bool.of_not_eq_false hv) (not_le.1 hrange)
      cases tab with
      | ord => exact hord ▸ answers_ok _ rfl
      | inv => exact hinv ▸ answers_ok _ rfl
      | ph => exact hph ▸ answers_ok _ rfl
      | sym => exact hsym ▸ answers_ok _ rfl
  | rdreg rn =>
    split_ifs with hrange
    · rw [exec_rdreg_of_range hrange]
      exact answers_failed s 4 _
    · obtain ⟨r, hr⟩ := Option.ne_none_iff_exists'.1 (mt register?_eq_none_iff.1 hrange)
      rw [exec_rdreg_of_register hr]
      exact answers_ok _ rfl
  | i2b v w =>
    have hw : w.toNat ≤ 16 := of_decide_eq_true hwf
    split_ifs with hover
    · rw [exec_i2b_of_overflow hw hover.1 hover.2]
      exact answers_failed s 2 _
    · rw [exec_i2b_of_fits (fitsWidth_of_not_overflow hw hover)]
      exact answers_ok _ rfl

/-! ### The answer of a beat -/

theorem legalWord_of_decode {b : Beat} {i : Instr} (h : decode b = .ok i) : LegalWord b.cmd := by
  obtain ⟨-, -, hwf, -⟩ := decode_ok h
  exact word_of_decode h ▸ i.legalWord_word hwf

theorem not_legalWord_of_decode_error {b : Beat} {e : DecodeError} (h : decode b = .error e) : ¬ LegalWord b.cmd := by
  intro hlegal
  obtain ⟨i, hi⟩ := exists_decode_of_legalWord hlegal b.data
  cases h.symm.trans hi

/-- The checks of R172 on the numbers of a word are those of the command it decodes to. -/
theorem verdict_of_decode (s : State) {b : Beat} {i : Instr} (h : decode b = .ok i) : verdict s b = s.verdictOf i := by
  have hlegal := legalWord_of_decode h
  obtain ⟨hop, -, -, hsample⟩ := decode_ok h
  obtain ⟨hcfg, hwidth, htab, hreg, -⟩ := Proofs.operandAssembly b
  rw [← slice_eq_fieldOp] at hop
  unfold verdict
  simp only [hlegal, not_true, if_false, ← hop]
  cases i with
  | nop | mend | dend | clrerr => simp [Instr.opcode, State.verdictOf]
  | cfg nreq gray =>
    obtain ⟨hnreq, -⟩ := hcfg nreq gray h
    simp [Instr.opcode, State.verdictOf, hnreq]
  | push v w | i2b v w =>
    obtain ⟨hv, hw⟩ := hwidth v w (by simp [h])
    simp [Instr.opcode, State.verdictOf, ← hv, ← hw, ← BitVec.toNat_inj]
  | slice re im =>
    obtain ⟨rfl, rfl⟩ := hsample re im rfl
    simp [Instr.opcode, State.verdictOf]
  | rdtab tab idx =>
    obtain ⟨-, hidx⟩ := htab tab idx h
    simp [Instr.opcode, State.verdictOf, hidx]
  | rdreg rn =>
    simp [Instr.opcode, State.verdictOf, hreg rn h]

/-- In a state that meets the invariant every beat is answered, with the code of its first failing check. -/
theorem State.Inv.runBeat_answers {s : State} (hs : s.Inv) (b : Beat) : Answers s (verdict s b) (runBeat b s) := by
  cases hdec : decode b with
  | ok i =>
    obtain ⟨-, -, hwf, -⟩ := decode_ok hdec
    rw [runBeat_of_decode_ok hdec, verdict_of_decode s hdec]
    exact hs.exec_answers hwf
  | error e =>
    have hillegal : verdict s b = 6 := if_pos (not_legalWord_of_decode_error hdec)
    rw [runBeat_of_decode_error hdec, raise_illegal_eq_failed, hillegal]
    exact answers_failed s 6 b.cmd

/-! ### The block never stops -/

theorem State.Inv.runBeat_next {s : State} (hs : s.Inv) (b : Beat) : ∃ t, runBeat b s = .next t := by
  obtain ⟨t, -, ht, -⟩ := hs.runBeat_answers b
  exact ⟨t, ht⟩

/-- Every input of the host is answered with a next state, the beat that RESET interrupts too (R174, R190). -/
theorem State.Inv.deliver_next {s : State} (hs : s.Inv) (x : HostInput) : ∃ t, deliver x s = .next t := by
  cases x with
  | beat b => exact hs.runBeat_next b
  | resetDuring b =>
    obtain ⟨t, ht⟩ := hs.drawn.runBeat_next b
    simp only [deliver, runBeatDuringReset, ht, thenReset]
    split
    · exact ⟨_, rfl⟩
    · exact ⟨_, rfl⟩
  | reset | takeResponse | takeSample | takeByte => exact ⟨_, rfl⟩

theorem step_of_inputs_nil {s : State} (h : s.inputs = []) : step s = .next s := by
  simp only [step, State.nextInput?, h]

/-! ### What a failed command writes -/

@[simp] theorem deconfigured_responses (s : State) : (deconfigured s).responses = s.responses := rfl

/-- All that a beat can make of the state: the failure of R171, that of a CFG with a bad order, which leaves the block
unconfigured first (R110), or a change that ends with a successful response. -/
theorem runBeat_failed_or_ok {b : Beat} {s t : State} (h : runBeat b s = .next t) :
    (∃ e, t = s.raise e b.cmd) ∨ (slice b.cmd 31 28 = 1 ∧ t = (deconfigured s).raise .cfgerr b.cmd) ∨
    ∃ d, t.responses = s.responses ++ [⟨okCode, d⟩] := by
  cases hdec : decode b with
  | ok i =>
    have hword := word_of_decode hdec
    rw [runBeat_of_decode_ok hdec] at h
    rcases exec_next h with ⟨e, rfl⟩ | ⟨nreq, gray, rfl, rfl⟩ | ⟨d, hresp, -⟩
    · exact .inl ⟨e, by rw [hword]⟩
    · obtain ⟨hop, -, -, -⟩ := decode_ok hdec
      exact .inr (.inl ⟨(slice_eq_fieldOp b.cmd).trans hop.symm, by rw [hword]; rfl⟩)
    · exact .inr (.inr ⟨d, hresp⟩)
  | error e =>
    rw [runBeat_of_decode_error hdec] at h
    cases h
    exact .inl ⟨.illegal, rfl⟩

/-! ### What clears ERR -/

/-- The inputs of the host that may clear ERR: the word of CLRERR and the two forms of RESET (R175). -/
inductive MayClearErrors : HostInput → Prop
  | clrerr (b : Beat) (hcmd : b.cmd = 0x80000000#32) : MayClearErrors (.beat b)
  | reset : MayClearErrors .reset
  | resetDuring (b : Beat) : MayClearErrors (.resetDuring b)

theorem runBeat_keeps_err {b : Beat} {s t : State} (h : runBeat b s = .next t) (herr : s.status.err = true)
    (hb : b.cmd ≠ 0x80000000#32) : t.status.err = true := by
  rcases runBeat_response h with ⟨e, -, hstatus⟩ | ⟨d, -, hstatus | ⟨hdec, -⟩⟩
  · rw [hstatus]; rfl
  · rw [hstatus, herr]
  · exact absurd (word_of_decode hdec).symm hb

/-- No other input clears ERR. -/
theorem deliver_keeps_err {x : HostInput} {s t : State} (h : deliver x s = .next t) (herr : s.status.err = true)
    (hx : ¬ MayClearErrors x) : t.status.err = true := by
  cases x with
  | beat b => exact runBeat_keeps_err h herr fun hcmd => hx (.clrerr b hcmd)
  | reset => exact absurd .reset hx
  | resetDuring b => exact absurd (.resetDuring b) hx
  | takeResponse => cases h; rw [(SameBlock.takeResponse s).status, herr]
  | takeSample => cases h; rw [(SameBlock.takeSample s).status, herr]
  | takeByte => cases h; rw [(SameBlock.takeByte s).status, herr]

/-- A step keeps ERR at 1, or the input it takes is one that may clear it. -/
theorem step_keeps_err {s t : State} (h : step s = .next t) (herr : s.status.err = true) :
    t.status.err = true ∨ ∃ x rest, s.inputs = x :: rest ∧ MayClearErrors x := by
  cases hin : s.inputs with
  | nil =>
    rw [step_of_inputs_nil hin] at h
    cases h
    exact .inl herr
  | cons x rest =>
    rw [step_of_inputs_cons hin] at h
    by_cases hx : MayClearErrors x
    · exact .inr ⟨x, rest, rfl, hx⟩
    · exact .inl (deliver_keeps_err h herr hx)

end Sys2Proof.Machine
end

section
/-! The settled statements of 60_exceptions.md. -/

namespace Sys2Proof.Proofs

open Sys2Proof.Machine Sys2Proof.Statements

/-- Settles O49: with nothing to do the block waits, and `deliver_next` answers every input. -/
theorem stepNeverStops : Obligations.StepNeverStops := by
  intro s hs
  cases hin : s.inputs with
  | nil => exact ⟨s, step_of_inputs_nil hin⟩
  | cons x rest =>
    rw [step_of_inputs_cons hin]
    exact (hs.with_inputs rest).deliver_next x

/-- Settles O42: of the three things a beat can do, two are the failures named, and the third answers OK. -/
theorem failedCommandWritesNothingElse : Obligations.FailedCommandWritesNothingElse := by
  intro s t b r h hr hfail
  rcases runBeat_failed_or_ok h with ⟨e, rfl⟩ | ⟨hop, rfl⟩ | ⟨d, hok⟩
  · obtain rfl : _ = r := by simpa using hr
    exact .inl (raise_eq_failed s e b.cmd)
  · obtain rfl : _ = r := by simpa using hr
    exact .inr ⟨hop, rfl, raise_eq_failed (deconfigured s) .cfgerr b.cmd⟩
  · obtain rfl : _ = r := by simpa [hok] using hr
    exact absurd rfl hfail

/-- Settles O43: a word is illegal, or it runs the command it decodes to, whose checks fail in the order of R172. -/
theorem firstFailingCheckIsReported : Obligations.FirstFailingCheckIsReported := fun _ b hs => hs.runBeat_answers b

/-- Settles O44: a step that clears ERR does not keep it, so by `step_keeps_err` its input is one that may clear it. -/
theorem errorStaysUntilCleared : Obligations.ErrorStaysUntilCleared := by
  intro s t h herr hclear
  rcases step_keeps_err h herr with hkept | ⟨x, rest, hin, hx⟩
  · exact absurd (hkept.symm.trans hclear) (by decide)
  · refine ⟨rest, ?_⟩
    cases hx with
    | clrerr b hcmd => exact .inl ⟨b, hin, hcmd⟩
    | reset => exact .inr (.inl hin)
    | resetDuring b => exact .inr (.inr ⟨b, hin⟩)

end Sys2Proof.Proofs
end

section
/-! The modulator and the slicer side by side (70_reset_and_hazards.md R195): the pieces of the state each of them writes,
and that a command of the one answers the same whatever the other has written. -/

namespace Sys2Proof.Machine

open Statements

/-! ### What a command of one side makes of the state -/

/-- How a command ends: with the error E of R171, or with what it writes and its RDATA. -/
abbrev Ending (W : Type) := Except Err (W × DWord)

/-- The response of a command of word `c` that ends so (R34, R171). -/
def Ending.response {W : Type} (c : Word) : Ending W → Response
  | .error e => ⟨BitVec.ofNat 4 e.code.toNat, BitVec.ofNat 64 c.toNat⟩
  | .ok (_, d) => ⟨okCode, d⟩

/-- STATUS after a command that ends so (R171). -/
def Ending.status {W : Type} (r : StatusReg) : Ending W → StatusReg
  | .error e => ⟨true, BitVec.ofNat 4 e.code.toNat⟩
  | .ok _ => r

/-- A command with the response OK leaves STATUS. -/
theorem Ending.status_of_ok {W : Type} {x : Ending W} {c : Word} (h : (Ending.response c x).rstatus = 0#4)
    (r : StatusReg) : Ending.status r x = r := by
  cases x with
  | error e => exact absurd (by simpa [Ending.response] using h) e.code_ne_zero
  | ok y => rfl

/-- What a modulator command writes: the symbols it emits, and MACC. -/
structure ModulatorWrites where
  symbols : List Sample
  macc    : Bits

/-- What a slicer command writes: the bytes it emits, DACC, and the count of draws. -/
structure SlicerWrites where
  bytes : List Byte
  dacc  : Bits
  draws : Nat

/-- The state after a modulator command of word `c` that ends so (R130, R131). -/
def State.modulated (s : State) (c : Word) : Ending ModulatorWrites → State
  | .error e => failed s e.code.toNat c
  | .ok (x, d) => ((s.emitSout x.symbols).setMacc x.macc).ok d

/-- The state after a slicer command of word `c` that ends so (R140, R146). -/
def State.demodulated (s : State) (c : Word) : Ending SlicerWrites → State
  | .error e => failed s e.code.toNat c
  | .ok (x, d) => { ((s.emitBout x.bytes).setDacc x.dacc).ok d with draws := x.draws }

section
variable (s : State) (c : Word) (x : Ending ModulatorWrites) (y : Ending SlicerWrites)

@[simp] theorem State.modulated_status : (s.modulated c x).status = Ending.status s.status x := by cases x <;> rfl

@[simp] theorem State.demodulated_status : (s.demodulated c y).status = Ending.status s.status y := by cases y <;> rfl

@[simp] theorem State.modulated_responses :
    (s.modulated c x).responses = s.responses ++ [Ending.response c x] := by cases x <;> rfl

@[simp] theorem State.demodulated_responses :
    (s.demodulated c y).responses = s.responses ++ [Ending.response c y] := by cases y <;> rfl

/-- Both orders write the same but for STATUS and the order of the responses. -/
theorem State.modulated_demodulated (c' : Word) : (s.demodulated c' y).modulated c x =
    { (s.modulated c x).demodulated c' y with
      status := ((s.demodulated c' y).modulated c x).status
      responses := ((s.demodulated c' y).modulated c x).responses } := by
  cases x <;> cases y <;> rfl

end

/-! ### What the other side may have written -/

/-- `s`, with all that slicer commands write as `t` has it. -/
def State.withSlicerOf (s t : State) : State :=
  { s with dacc := t.dacc, bout := t.bout, draws := t.draws, status := t.status, responses := t.responses }

/-- `s`, with all that modulator commands write as `t` has it. -/
def State.withModulatorOf (s t : State) : State :=
  { s with macc := t.macc, sout := t.sout, status := t.status, responses := t.responses }

theorem State.demodulated_eq_withSlicerOf (s : State) (c : Word) (y : Ending SlicerWrites) :
    s.demodulated c y = s.withSlicerOf (s.demodulated c y) := by cases y <;> rfl

theorem State.modulated_eq_withModulatorOf (s : State) (c : Word) (x : Ending ModulatorWrites) :
    s.modulated c x = s.withModulatorOf (s.modulated c x) := by cases x <;> rfl

/-! ### What each side answers -/

@[simp] theorem State.emitSout_nil (s : State) : s.emitSout [] = s := by
  rw [State.emitSout, List.append_nil]

/-- PUSH of a width above 16, which no word encodes, fails with ILLEGAL (R74). -/
theorem exec_push_of_wide {w : BitVec 5} (hw : 16 < w.toNat) (v : BitVec 16) (s : State) :
    exec (.push v w) s = .next (failed s 6 (Instr.push v w).word) := by
  simp only [exec, execPush, if_pos hw]
  exact congrArg Host.Outcome.next (raise_eq_failed s .illegal _)

/-- How a PUSH of the bits `b` ends that takes the success path (R130). -/
def State.pushedEnding (s : State) (b : Bits) : Ending ModulatorWrites :=
  let all := s.macc ++ b
  let groups := splitGroups s.cfg.logn.toNat all.length all
  .ok (⟨groups.1.map s.symbolAt, groups.2⟩, pushData (all.length % s.cfg.logn.toNat) (all.length / s.cfg.logn.toNat))

/-- PUSH ends the same whatever slicer commands have written (R130, R195). -/
theorem exec_push_withSlicerOf (s : State) (v : BitVec 16) (w : BitVec 5) : ∃ x, ∀ t, (s.withSlicerOf t).Inv →
    exec (.push v w) (s.withSlicerOf t) = .next ((s.withSlicerOf t).modulated (Instr.push v w).word x) := by
  by_cases hwide : 16 < w.toNat
  · exact ⟨.error .illegal, fun t _ => exec_push_of_wide hwide v _⟩
  have hw : w.toNat ≤ 16 := not_lt.1 hwide
  cases hv : s.cfg.valid with
  | false => exact ⟨.error .notcfg, fun t _ => exec_push_of_unconfigured (s := s.withSlicerOf t) hv hw v⟩
  | true =>
    by_cases hover : w ≠ 0#5 ∧ 2 ^ w.toNat ≤ v.toNat
    · exact ⟨.error .overflow, fun t _ => exec_push_of_overflow (s := s.withSlicerOf t) hv hw hover.1 hover.2⟩
    · have hfit := fitsWidth_of_not_overflow hw hover
      exact ⟨s.pushedEnding (intToBits v.toNat (usedWidth v w)), fun t ht =>
        (exec_push_of_fits (s := s.withSlicerOf t) hv hfit).trans (ht.pushBits_answer hv _)⟩

/-- How a SLICE ends that took index k with the pattern v, and after which `draws` values have been drawn (R140). -/
def State.slicedEnding (s : State) (draws k v : Nat) : Ending SlicerWrites :=
  let all := s.dacc ++ intToBits v s.cfg.logn.toNat
  .ok (⟨bytesOf all, all.drop (all.length / 8 * 8), draws⟩,
    BitVec.ofNat 64 (all.length % 8 * 2 ^ 36 + all.length / 8 * 2 ^ 32 + v * 2 ^ 16 + k))

/-- SLICE ends the same whatever modulator commands have written (R140, R195). -/
theorem exec_slice_withModulatorOf {s : State} (hs : s.Inv) (re im : F32) : ∃ y, ∀ t, (s.withModulatorOf t).Inv →
    exec (.slice re im) (s.withModulatorOf t) =
      .next ((s.withModulatorOf t).demodulated (Instr.slice re im).word y) := by
  cases hv : s.cfg.valid with
  | false => exact ⟨.error .notcfg, fun t _ => exec_slice_of_unconfigured (s := s.withModulatorOf t) hv re im⟩
  | true =>
    by_cases hfinite : f32Finite re = true ∧ f32Finite im = true
    · obtain ⟨hre, him⟩ := hfinite
      by_cases hzero : f32IsZero re = true ∧ f32IsZero im = true
      · obtain ⟨v, hord⟩ := hs.exists_ord hv (Nat.mod_lt (Config.zeroIdx s.draws) (hs.order_pos hv))
        exact ⟨s.slicedEnding (s.draws + 1) _ v, fun t ht =>
          (exec_slice_zero (s := s.withModulatorOf t) hv hre him hzero).trans (ht.drawn.sliceIndex_eq hv hord)⟩
      · obtain ⟨v, hord⟩ := hs.exists_ord hv (slicedecOf_lt hs.params (hs.order_pos hv) s.cfg.rot re im)
        exact ⟨s.slicedEnding s.draws _ v, fun t ht =>
          (exec_slice_nonzero (s := s.withModulatorOf t) hv hre him hzero).trans (ht.sliceIndex_eq hv hord)⟩
    · exact ⟨.error .badsample, fun t _ => exec_slice_of_not_finite (s := s.withModulatorOf t) hv hfinite⟩

/-- A modulator command ends the same whatever slicer commands have written (R195). -/
theorem exec_modulator_withSlicerOf (s : State) {i : Instr} (hi : (∃ v w, i = .push v w) ∨ i = .mend) :
    ∃ x, ∀ t, (s.withSlicerOf t).Inv → exec i (s.withSlicerOf t) = .next ((s.withSlicerOf t).modulated i.word x) := by
  rcases hi with ⟨v, w, rfl⟩ | rfl
  · exact exec_push_withSlicerOf s v w
  · refine ⟨.ok (⟨[], []⟩, mendData s.macc), fun t _ => ?_⟩
    rw [exec_mend, State.modulated, State.emitSout_nil]
    rfl

/-- A slicer command ends the same whatever modulator commands have written (R195). -/
theorem exec_slicer_withModulatorOf {s : State} (hs : s.Inv) {j : Instr} (hj : (∃ re im, j = .slice re im) ∨ j = .dend) :
    ∃ y, ∀ t, (s.withModulatorOf t).Inv →
      exec j (s.withModulatorOf t) = .next ((s.withModulatorOf t).demodulated j.word y) := by
  rcases hj with ⟨re, im, rfl⟩ | rfl
  · exact exec_slice_withModulatorOf hs re im
  · exact ⟨.ok (⟨paddedTail s.params s.dacc, [], s.draws⟩,
      dendData s.dacc (decide (s.params.decTail = .zpad ∧ 0 < s.dacc.length))),
      fun t _ => exec_dend (s.withModulatorOf t)⟩

end Sys2Proof.Machine
end

section
/-! The host's takes and RESET during a beat (70_reset_and_hazards.md R190, R193). -/

namespace Sys2Proof.Machine

section
variable {s : State}

theorem State.takeResponse_of_cons {x : Response} {xs : List Response} (h : s.responses = x :: xs) :
    s.takeResponse = { s with responses := xs, taken := { s.taken with responses := s.taken.responses ++ [x] } } := by
  simp only [State.takeResponse, h]

theorem State.takeSample_of_cons {x : Sample} {xs : List Sample} (h : s.sout = x :: xs) :
    s.takeSample = { s with sout := xs, taken := { s.taken with samples := s.taken.samples ++ [x] } } := by
  simp only [State.takeSample, h]

theorem State.takeByte_of_cons {x : Byte} {xs : List Byte} (h : s.bout = x :: xs) :
    s.takeByte = { s with bout := xs, taken := { s.taken with bytes := s.taken.bytes ++ [x] } } := by
  simp only [State.takeByte, h]

/-- RESET comes after a beat in delivery that completes, or after the draw alone (R190). -/
theorem State.Inv.runBeatDuringReset_next (hs : s.Inv) (b : Beat) :
    ∃ t, runBeatDuringReset b s = .next t.applyReset ∧ (t = s.drawn ∨ runBeat b s.drawn = .next t) := by
  unfold runBeatDuringReset
  split
  · obtain ⟨t, ht⟩ := hs.drawn.runBeat_next b
    exact ⟨t, congrArg thenReset ht, .inr ht⟩
  · exact ⟨s.drawn, rfl, .inl rfl⟩

end

end Sys2Proof.Machine
end

section
/-! The settled statements of 70_reset_and_hazards.md. -/

namespace Sys2Proof.Proofs

open Sys2Proof.Machine Sys2Proof.Statements

/-- Settles O55: each command ends the same before and after the other, and the two write disjoint pieces of the state but
for STATUS, which a command that answers OK leaves, and the responses. -/
theorem modulatorAndSlicerInterleave : Obligations.ModulatorAndSlicerInterleave := by
  intro i j s hs hi hj
  obtain ⟨x, hx⟩ := exec_modulator_withSlicerOf s hi
  obtain ⟨y, hy⟩ := exec_slicer_withModulatorOf hs hj
  have hfirst : exec i s = .next (s.modulated i.word x) := hx s hs
  have hfirst' : exec j s = .next (s.demodulated j.word y) := hy s hs
  have hsecond : exec j (s.modulated i.word x) = .next ((s.modulated i.word x).demodulated j.word y) := by
    have hinv := exec_keeps_inv hs hfirst
    rw [s.modulated_eq_withModulatorOf] at hinv ⊢
    exact hy _ hinv
  have hsecond' : exec i (s.demodulated j.word y) = .next ((s.demodulated j.word y).modulated i.word x) := by
    have hinv := exec_keeps_inv hs hfirst'
    rw [s.demodulated_eq_withSlicerOf] at hinv ⊢
    exact hx _ hinv
  refine ⟨_, _, _, _, Ending.response i.word x, Ending.response j.word y, hfirst, hsecond, hfirst', hsecond',
    by simp, by simp, s.modulated_demodulated i.word x y j.word, ?_⟩
  rintro (hok | hok) <;> simp [Ending.status_of_ok hok]

/-- Settles O57: R191's three commands check CFG.VALID first, and the others have no such check. -/
theorem whatWorksBeforeCfg : Obligations.WhatWorksBeforeCfg := by
  refine fun s hv => ⟨fun v w hw => exec_push_of_unconfigured hv hw v, exec_slice_of_unconfigured hv,
    exec_rdtab_of_unconfigured hv, ?_⟩
  rintro i (rfl | rfl | rfl | rfl | ⟨rn, hrn, rfl⟩ | ⟨v, w, hfit, rfl⟩)
  · exact answers_ok _ rfl
  · exact answers_ok _ rfl
  · exact answers_ok _ rfl
  · exact answers_ok _ rfl
  · obtain ⟨r, hr⟩ := Option.ne_none_iff_exists'.1 (mt register?_eq_none_iff.1 (not_le.2 hrn))
    rw [exec_rdreg_of_register hr]
    exact answers_ok _ rfl
  · rw [exec_i2b_of_fits hfit]
    exact answers_ok _ rfl

/-- Settles O8: with no input a step waits, and a take removes the head of its stream. -/
theorem waitsAndHostTakes : Obligations.WaitsAndHostTakes := by
  refine fun s rest => ⟨step_of_inputs_nil, fun x xs hin hx => ?_, fun x xs hin hx => ?_, fun x xs hin hx => ?_⟩
  · exact (step_of_inputs_cons hin).trans (congrArg Host.Outcome.next (State.takeResponse_of_cons hx))
  · exact (step_of_inputs_cons hin).trans (congrArg Host.Outcome.next (State.takeSample_of_cons hx))
  · exact (step_of_inputs_cons hin).trans (congrArg Host.Outcome.next (State.takeByte_of_cons hx))

/-- Settles O46: RESET has one outcome, and the free value says which of the two happens to a beat in delivery. -/
theorem resetInput : Obligations.ResetInput := by
  refine fun s rest => ⟨fun hin => step_of_inputs_cons hin, fun b hin hs => ?_⟩
  rw [step_of_inputs_cons hin]
  exact (hs.with_inputs rest).runBeatDuringReset_next b

end Sys2Proof.Proofs
end

section
/-! The settled statement on the words written out in the spec (30_encoding.md section 3, 95_test_vectors.md section 3). -/

namespace Sys2Proof

/-- Of a format V word with no reserved bit set, a width above 16 is illegal (R78 (c)). -/
theorem formatV_of_wide {c : Word} (hres : c.toNat / 2 ^ 21 % 2 ^ 7 = 0) (hw : 16 < (fieldW c).toNat) (i : Instr) :
    formatV c i = .error .illegalWidth := by
  rw [formatV, if_pos ((extractLsb'_eq_zero_iff c 21 7).2 hres), if_neg (not_le.2 hw)]

end Sys2Proof

namespace Sys2Proof.Proofs

open Sys2Proof.Machine

/-- Settles O6: each legal word is the encoding of its instruction, which decodes back, and the refused one is an I2B of
width 17. -/
theorem specWordsDecode : Obligations.SpecWordsDecode := by
  refine ⟨?nop, ?cfg, ?push, ?slice, ?rdtab, ?rdreg, ?wide⟩
  case nop => exact decode_encode (i := .nop) rfl
  case cfg => exact decode_encode (i := .cfg 4#16 true) rfl
  case push => exact decode_encode (i := .push 0x41#16 8#5) rfl
  case slice => exact decode_encode (i := .slice 0xBF3504F3#32 0x3F3504F3#32) rfl
  case rdtab => exact decode_encode (i := .rdtab .inv 4#16) rfl
  case rdreg => exact decode_encode (i := .rdreg 4#4) rfl
  case wide => exact (decode_of_opcode_nine (by decide) _).trans (formatV_of_wide (by decide) (by decide) _)

end Sys2Proof.Proofs
end
